-- ==== Sys2Proof/Word.lean ====
section
/-!
DEFINITION. The word types of OTPCORE: a byte, a 32-bit register, a 64-bit counter or time step, and a 20-byte
HMAC-SHA1 digest (00_scope.md R6 `MAC_LEN`, R8; 10_state.md R21, R38).
-/
namespace Sys2Proof

/-- A buffer byte (R8). -/
abbrev Byte := BitVec 8

/-- A register (10_state.md R21). -/
abbrev Word := BitVec 32

/-- A counter, a time step or a clock answer (10_state.md R22, R30; 60_exceptions.md R234). -/
abbrev DWord := BitVec 64

/-- The answer of the HMAC port: exactly 20 bytes, index 0 the first byte of the digest (20_memory.md R65). -/
abbrev Digest := Vector Byte 20

end Sys2Proof
end

