-- ==== Sys2Proof/Syntax.lean ====
section
/-!
DEFINITION. The command set of OTPCORE: one constructor per row of spec/opcode_table.json. A command has no operand
fields (30_encoding.md R90, R91): its operands are registers and buffers.
-/
namespace Sys2Proof

/-- The nine commands of 30_encoding.md R92. -/
inductive Instr where
  /-- `B32ENC`, 40_base32.md R122. -/
  | b32enc
  /-- `B32DEC`, 40_base32.md R130. -/
  | b32dec
  /-- `GENKEY`, 41_otp_code.md R160. -/
  | genkey
  /-- `TRUNC`, 41_otp_code.md R150. -/
  | trunc
  /-- `COMPUTE`, 41_otp_code.md R155. -/
  | compute
  /-- `TSTEP`, 42_totp_window.md R180. -/
  | tstep
  /-- `TOTP`, 42_totp_window.md R183. -/
  | totp
  /-- `VALIDATE`, 42_totp_window.md R190. -/
  | validate
  /-- `VALIDATES`, 42_totp_window.md R195. -/
  | validates
  deriving DecidableEq, Repr

end Sys2Proof
end

