-- ==== Sys2Proof/Decode.lean ====
section
/-!
DEFINITION. Command words (30_encoding.md R90 to R94): the decoder, total on 32-bit words and rejecting by name, and
after it the encoder from the same table.
-/
namespace Sys2Proof

/-- Why a word is an illegal command (R93). Both raise the same `IllegalCommand` (R94). -/
inductive DecodeError where
  /-- `w[31:8] != 0`. -/
  | zeroFieldNotZero
  /-- `w[7:0]` is not one of the nine opcodes. -/
  | unknownOpcode
  deriving DecidableEq, Repr

/-- The field `OP`, bits [7:0] (R90). -/
def opField (w : Word) : Byte := w.extractLsb' 0 8

/-- The field `ZERO`, bits [31:8] (R90). -/
def zeroField (w : Word) : BitVec 24 := w.extractLsb' 8 24

/-- The opcode map of R92. -/
def instrOfOpcode (op : Byte) : Option Instr :=
  match op with
  | 0x01#8 => some .b32enc
  | 0x02#8 => some .b32dec
  | 0x10#8 => some .genkey
  | 0x11#8 => some .trunc
  | 0x12#8 => some .compute
  | 0x13#8 => some .tstep
  | 0x14#8 => some .totp
  | 0x15#8 => some .validate
  | 0x16#8 => some .validates
  | _ => none

/-- R93: decoding looks at the word alone. -/
def decode (w : Word) : Except DecodeError Instr :=
  if zeroField w = 0#24 then
    match instrOfOpcode (opField w) with
    | some i => .ok i
    | none => .error .unknownOpcode
  else .error .zeroFieldNotZero

/-- The column `OP` of R92. -/
def opcode : Instr → Byte
  | .b32enc => 0x01#8
  | .b32dec => 0x02#8
  | .genkey => 0x10#8
  | .trunc => 0x11#8
  | .compute => 0x12#8
  | .tstep => 0x13#8
  | .totp => 0x14#8
  | .validate => 0x15#8
  | .validates => 0x16#8

/-- The word of a command: `ZERO` is 0 and `OP` selects it (R90, R92). -/
def encode (i : Instr) : Word := 0#24 ++ opcode i

/-- The command the decoder reads from a word whose low `nbits` bits are given, the bits above them 0. A command is
one 32-bit word, transferred as a number (20_memory.md R66), so there is no byte order to lay out. -/
def decodeTableWord (nbits w : Nat) : Option Instr :=
  match decode (BitVec.ofNat 32 (w % 2 ^ nbits)) with
  | .ok i => some i
  | .error _ => none

end Sys2Proof
end

