-- ==== Sys2Proof/Config.lean ====
section
/-!
DEFINITION. What is fixed for a machine: the constants of 00_scope.md R6, the OPEN parameters of R6 as a record of
plain data, and the free values (opaque constants without a body) that stand for what the spec leaves open: the
HMAC function, the answers of the clock and of the random source, and the bytes nothing has specified.
-/
namespace Sys2Proof

/-- The OPEN parameters of 00_scope.md R6. The widths of the capacities are R6's bound `0 <= … <= LEN_MAX`. The
record is the field `cfg` of the state, the same in every state of a run (log entry 1, DESIGN CHOICE). -/
structure Params where
  /-- `BASE`, the host address of offset 0 of the block. -/
  base : Nat
  keyMax : BitVec 16
  modMax : BitVec 16
  srcMax : BitVec 16
  dstMax : BitVec 16
  /-- `CAND_MAX`, the largest value a candidate digit string may denote. -/
  candMax : Word
  deriving DecidableEq, Repr

/-- The defaults of R6; `BASE` has none there and is 0 here (log entry 1, DESIGN CHOICE). -/
def Params.defaults : Params where
  base := 0
  keyMax := 65535
  modMax := 65535
  srcMax := 65535
  dstMax := 65535
  candMax := 2147483647

namespace Config

/-- `LEN_MAX` (R6). -/
abbrev lenMax : Nat := 65535
/-- `STEP_SECONDS` (R6). -/
abbrev stepSeconds : Nat := 30
/-- `CODE_MOD`, 10^`DIGITS` (R6). -/
abbrev codeMod : Nat := 1000000
/-- `WINDOW`, the steps of tolerance on each side (R6). -/
abbrev window : Nat := 2
/-- `MAC_LEN` (R6). -/
abbrev macLen : Nat := 20
/-- `RLEN_DEFAULT` (R6). -/
abbrev rlenDefault : Nat := 10

/-- `HMAC_SHA1(key, msg)`: a total function, the same for the whole run (60_exceptions.md R233, U10). Free value:
nothing is known of it (log entry 5). -/
opaque hmacSha1 (key msg : List Byte) : Digest

/-- The `k`-th answer of `ClockSeconds()` where none is fixed beforehand (60_exceptions.md R234, U9; log entry 3). -/
opaque clockSeconds (k : Nat) : DWord

/-- Whether the `k`-th `RngBytes` call finds the source available, where that is not fixed beforehand
(60_exceptions.md R235, U8; log entry 4). -/
opaque rngAvailable (k : Nat) : Bool

/-- Byte `i` of the answer of the `k`-th `RngBytes` call, where it is not fixed beforehand (R235, U8; log entry 4). -/
opaque rngByte (k i : Nat) : Byte

/-- What the host reads at an offset whose byte is unspecified (10_state.md R39, R48; 93 U5): one value per offset
between two moments at which such bytes may change, which `epoch` counts (log entry 7). -/
opaque unspecifiedByte (epoch offset : Nat) : Byte

end Config

end Sys2Proof
end

