-- ==== Sys2Proof/Machine/State.lean ====
section
/-!
DEFINITION. The state of OTPCORE as plain data (10_state.md R20 to R48), the events the host side can cause, why a
step can stop, and the state after reset.
-/
namespace Sys2Proof.Machine

/-- The registers by name, in the order of their offsets (20_memory.md R70). -/
inductive Reg where
  | cmd | status | ctrLo | ctrHi | cand | rlen | keyLen | modLen | srcLen | dstLen
  | code | bincode | offset | tsLo | tsHi
  /-- Offset 0x3C: reads 0, writes ignored. -/
  | reserved
  deriving DecidableEq, Repr

/-- The five byte memories (10_state.md R35). -/
inductive Buffer where
  | key | mod | src | dst | mac
  deriving DecidableEq, Repr

/-- The width of a bus access (20_memory.md R66). -/
inductive Width where
  | w8 | w16 | w32 | w64
  deriving DecidableEq, Repr

/-- What the outside world can do to the block: a host access at a host address (00_scope.md R5, 20_memory.md R66), or
a level of the reset input (70_reset_and_hazards.md R250). A write's data are the low bits of `data`. -/
inductive BusEvent where
  | read (w : Width) (addr : Nat)
  | write (w : Width) (addr : Nat) (data : DWord)
  | resetInput (asserted : Bool)
  deriving DecidableEq, Repr

/-- What a host read returned. -/
inductive ReadData where
  | byte (b : Byte)
  | word (w : Word)
  deriving DecidableEq, Repr

/-- An answer of the RNG port fixed beforehand (60_exceptions.md R235). -/
inductive RngAnswer where
  | unavailable
  /-- The first bytes of the answer; those it does not list are free (log entry 4). -/
  | bytes (l : List Byte)
  deriving DecidableEq, Repr

/-- An assumed answer of the HMAC port (60_exceptions.md R233; 95_test_vectors.md, "assumed answers of the port"). -/
structure HmacAnswer where
  key : List Byte
  msg : List Byte
  digest : Digest
  deriving DecidableEq, Repr

/-- The collaborator ports as the environment presents them (60_exceptions.md R232): the model's own fields, not the
block's state (log entries 3, 4, 5, 12). -/
structure Ports where
  /-- Answers of `ClockSeconds()` fixed beforehand, next first. -/
  clockAnswers : List DWord
  /-- How many answers of the clock were drawn. -/
  clockReads : Nat
  /-- Answers of `RngBytes` fixed beforehand, next first. -/
  rngAnswers : List RngAnswer
  /-- How many answers of the random source were drawn. -/
  rngReads : Nat
  /-- Points at which `HMAC_SHA1` is assumed to have a given value; no step changes them. -/
  hmacAnswers : List HmacAnswer
  /-- How many times the HMAC port was called. -/
  hmacCalls : Nat
  deriving DecidableEq, Repr

/-- The host side of the port (10_state.md R31, 70_reset_and_hazards.md R250; log entries 2, 9, 11). -/
structure HostSide where
  /-- The level of the reset input. -/
  resetAsserted : Bool
  /-- The bus events still to come, next first. -/
  pending : List BusEvent
  /-- What the last completed read returned. -/
  readData : Option ReadData
  deriving DecidableEq, Repr

/-- The five buffers: a list of (offset, byte), offsets strictly rising. An offset that is not listed holds a byte
nothing has written since reset (10_state.md R48). -/
abbrev Memory := List Host.Cell

/-- The state of OTPCORE (10_state.md R20). The fields up to `mem` are the spec's; the rest are the model's own. -/
structure State where
  status : Word
  ctrLo : Word
  ctrHi : Word
  cand : Word
  rlen : Word
  keyLen : Word
  modLen : Word
  srcLen : Word
  dstLen : Word
  code : Word
  bincode : Word
  offset : Word
  tsLo : Word
  tsHi : Word
  mem : Memory
  /-- Counts the moments at which unspecified bytes may change (log entry 7). -/
  epoch : Nat
  ports : Ports
  host : HostSide
  /-- The OPEN parameters of 00_scope.md R6 (log entry 1). -/
  cfg : Params
  deriving DecidableEq, Repr

/-- Why the machine stops with a fault: never. The errors of the block are values of `STATUS` (60_exceptions.md R210,
R216), its fatal lock is a state (R218, log entry 10), and every access or read to which the spec gives no behaviour is
one it asks a model to refuse (93 U1 to U4). The type has no value. -/
inductive Fault where
  deriving DecidableEq, Repr

/-- Why a step is given no meaning. -/
inductive Refusal where
  /-- Raised by an arm of `exec` whose command has no meaning yet. Safe. No arm of this model raises it. -/
  | notModelled (mnemonic : String)
  /-- Raised by a command that reads a buffer byte nothing has written since reset, named by its offset
  (10_state.md R48, 93 U1). Safe. -/
  | unwrittenByte (offset : Nat)
  /-- Raised by a host access to an address outside the mapped locations of 20_memory.md R70 (R71, 93 U3), named by
  that address. Safe. -/
  | unmapped (addr : Nat)
  /-- Raised by a host access of the wrong width or alignment (20_memory.md R66, R67, 93 U2). Safe. -/
  | wrongWidth (addr : Nat)
  /-- Raised by a host access while the reset input is asserted (70_reset_and_hazards.md R250, 93 U4). Safe. -/
  | accessInReset
  deriving DecidableEq, Repr

/-- The ports before anything was asked of them and with no answer fixed beforehand (log entries 3, 4, 5). -/
def Ports.initial : Ports where
  clockAnswers := []
  clockReads := 0
  rngAnswers := []
  rngReads := 0
  hmacAnswers := []
  hmacCalls := 0

/-- A host that has nothing to issue, the reset input released (log entries 2, 9, 11). -/
def HostSide.initial : HostSide where
  resetAsserted := false
  pending := []
  readData := none

/-- The state right after reset: 10_state.md R47 and R48. -/
def State.reset : State where
  status := 0
  ctrLo := 0
  ctrHi := 0
  cand := 0
  rlen := BitVec.ofNat 32 Config.rlenDefault
  keyLen := 0
  modLen := 0
  srcLen := 0
  dstLen := 0
  code := 0
  bincode := 0
  offset := 0
  tsLo := 0
  tsHi := 0
  mem := []
  epoch := 0
  ports := Ports.initial
  host := HostSide.initial
  cfg := Params.defaults

end Sys2Proof.Machine
end

