-- ==== Sys2Proof/Machine/Flags.lean ====
section
/-!
DEFINITION. The STATUS register: its fields (10_state.md R33), the error codes (60_exceptions.md R210), and the whole
words a command that ends writes to it (10_state.md R34, 60_exceptions.md R216, R218).
-/
namespace Sys2Proof.Machine

/-- The kinds of error (60_exceptions.md R210). -/
inductive ErrKind where
  | format | argument | overflow | capacity | rngFatal | illegalCommand
  deriving DecidableEq, Repr

/-- The value of `STATUS.ERR` for each kind (R210); 0 is success, 7 to 15 are never written. -/
def ErrKind.code : ErrKind → BitVec 4
  | .format => 1
  | .argument => 2
  | .overflow => 3
  | .capacity => 4
  | .rngFatal => 5
  | .illegalCommand => 6

/-- The word with the fields of R33: `ERR` [7:4], bit 3 zero, `FATAL` [2], `MATCH` [1], `DONE` [0]. -/
def statusWord (done matched fatal : Bool) (err : BitVec 4) : Word :=
  0#24 ++ err ++ 0#1 ++ BitVec.ofBool fatal ++ BitVec.ofBool matched ++ BitVec.ofBool done

/-- `STATUS` after a success with the given `MATCH` (10_state.md R34). -/
def successStatus (matched : Bool) : Word := statusWord true matched false 0

/-- `STATUS` after an error: `DONE = 1`, `MATCH = 0`, `ERR` the kind's code (R216), and `FATAL = 1` for the unavailable
random source only (R218). -/
def errorStatus (e : ErrKind) : Word := statusWord true false (decide (e = .rngFatal)) e.code

/-- `STATUS.DONE` (R33). -/
def State.done (s : State) : Bool := s.status.getLsbD 0

/-- `STATUS.MATCH` (R33). -/
def State.matched (s : State) : Bool := s.status.getLsbD 1

/-- `STATUS.FATAL` (R33). -/
def State.fatal (s : State) : Bool := s.status.getLsbD 2

/-- `STATUS.ERR` (R33). -/
def State.err (s : State) : BitVec 4 := s.status.extractLsb' 4 4

end Sys2Proof.Machine
end

