-- ==== Sys2Proof/Machine/Ops.lean ====
section
/-!
DEFINITION. The named operations the commands are made of: reading and writing buffer bytes, the named updates of the
state, drawing from the three collaborator ports, taking an error and ending a command.
-/
namespace Sys2Proof.Machine

/-! ### Memory -/

/-- What an offset that is not listed reads as: no value (10_state.md R48). -/
def Memory.unlisted : Option Byte := none

/-- The byte at an offset, or nothing if none has been written since reset. -/
def Memory.read : Memory → Nat → Option Byte
  | [], _ => Memory.unlisted
  | (k, v) :: m, a => if k = a then some v else Memory.read m a

/-- Store one byte, keeping the offsets strictly rising. -/
def Memory.write : Memory → Nat → Byte → Memory
  | [], a, b => [(a, b)]
  | (k, v) :: m, a, b =>
    if a < k then (a, b) :: (k, v) :: m
    else if a = k then (a, b) :: m
    else (k, v) :: Memory.write m a b

/-- Store a byte sequence from an offset upward (20_memory.md R73). -/
def Memory.writeBytes : Memory → Nat → List Byte → Memory
  | m, _, [] => m
  | m, a, b :: bs => Memory.writeBytes (m.write a b) (a + 1) bs

/-- The canonical form: offsets strictly rising. (No listed entry can equal what an unlisted offset reads as.) -/
abbrev Memory.wf (m : Memory) : Prop := m.Pairwise (fun x y => x.1 < y.1)

/-- The offset of byte 0 of a buffer (20_memory.md R70). -/
def Buffer.base : Buffer → Nat
  | .mac => 0x40
  | .key => 0x10000
  | .mod => 0x20000
  | .src => 0x30000
  | .dst => 0x40000

/-- The capacity of a buffer (10_state.md R35). -/
def Buffer.capacity (p : Params) : Buffer → Nat
  | .mac => Config.macLen
  | .key => p.keyMax.toNat
  | .mod => p.modMax.toNat
  | .src => p.srcMax.toNat
  | .dst => p.dstMax.toNat

/-! ### How a command ends early -/

/-- Why the body of a command ends before it commits: with an error (60_exceptions.md R216), or because it reads a
byte nothing has written (10_state.md R48). -/
inductive Stop where
  | err (e : ErrKind)
  | unwritten (offset : Nat)
  deriving DecidableEq, Repr

/-- The body of a command: its result, or why it ends early. -/
abbrev Cmd (α : Type) := Except Stop α

/-- `raise e` where the condition holds (00_scope.md R9). -/
def raiseIf (bad : Bool) (e : ErrKind) : Cmd Unit := if bad then .error (.err e) else .ok ()

/-- `MemRead(offset, 1)` inside a command (00_scope.md R9, 10_state.md R48). -/
def readByte (m : Memory) (a : Nat) : Cmd Byte :=
  match m.read a with
  | some b => .ok b
  | none => .error (.unwritten a)

/-- The byte sequence of `n` bytes from offset `a`, index upward (20_memory.md R73). -/
def readBytes (m : Memory) (a : Nat) : (n : Nat) → Cmd (Vector Byte n)
  | 0 => .ok #v[]
  | n + 1 => do
    let v ← readBytes m a n
    let b ← readByte m (a + n)
    .ok (v.push b)

/-! ### Named updates of the state -/

/-- Write the whole of `STATUS` (10_state.md R34). -/
def State.setStatus (s : State) (w : Word) : State := { s with status := w }

/-- Commit an output to `DST`: the bytes from index 0, then `DST_LEN` (20_memory.md R73, 10_state.md R39). Bytes of
`DST` at or above the new length become unspecified to the host, so `epoch` moves on (93 U5). -/
def State.setDst (s : State) (l : List Byte) : State :=
  { s with mem := s.mem.writeBytes Buffer.dst.base l, dstLen := BitVec.ofNat 32 l.length, epoch := s.epoch + 1 }

/-- Latch a digest in `MAC` (10_state.md R38, 20_memory.md R65). -/
def State.setMac (s : State) (d : Digest) : State :=
  { s with mem := s.mem.writeBytes Buffer.mac.base d.toList }

/-- Write `OFFSET`, `BINCODE` and `CODE` (10_state.md R29). -/
def State.setCode (s : State) (offset bincode code : Word) : State :=
  { s with offset := offset, bincode := bincode, code := code }

/-- Write the time step `TS` to its two registers (10_state.md R30). -/
def State.setTs (s : State) (t : DWord) : State :=
  { s with tsLo := t.extractLsb' 0 32, tsHi := t.extractLsb' 32 32 }

/-- Write `CAND` (10_state.md R23). -/
def State.setCand (s : State) (w : Word) : State := { s with cand := w }

/-- Replace the ports' bookkeeping. -/
def State.setPorts (s : State) (p : Ports) : State := { s with ports := p }

/-- Replace the bus events still to come. -/
def State.setPending (s : State) (l : List BusEvent) : State := { s with host := { s.host with pending := l } }

/-- What a host read returned. -/
def State.setReadData (s : State) (d : ReadData) : State := { s with host := { s.host with readData := some d } }

/-- The level of the reset input. -/
def State.setResetAsserted (s : State) (b : Bool) : State := { s with host := { s.host with resetAsserted := b } }

/-! ### The collaborator ports -/

/-- The value of `ClockSeconds()` at the next draw (60_exceptions.md R234). -/
def Ports.clockNow (p : Ports) : DWord :=
  match p.clockAnswers with
  | t :: _ => t
  | [] => Config.clockSeconds p.clockReads

/-- The ports after one draw of the clock. -/
def Ports.afterClock (p : Ports) : Ports :=
  { p with clockAnswers := p.clockAnswers.tail, clockReads := p.clockReads + 1 }

/-- The value of `RngBytes(n)` at the next draw: exactly `n` bytes, or `none` for `unavailable` (R235). -/
def Ports.rngNow (p : Ports) (n : Nat) : Option (List Byte) :=
  match p.rngAnswers with
  | .unavailable :: _ => none
  | .bytes l :: _ => some ((List.range n).map fun i => l.getD i (Config.rngByte p.rngReads i))
  | [] =>
    if Config.rngAvailable p.rngReads then some ((List.range n).map fun i => Config.rngByte p.rngReads i)
    else none

/-- The ports after one draw of the random source. -/
def Ports.afterRng (p : Ports) : Ports :=
  { p with rngAnswers := p.rngAnswers.tail, rngReads := p.rngReads + 1 }

/-- `HMAC_SHA1(key, msg)`: a function of its two arguments, the same in every state with the same assumed answers
(R233). -/
def Ports.hmacSha1 (p : Ports) (key msg : List Byte) : Digest :=
  match p.hmacAnswers.find? (fun h => decide (h.key = key) && decide (h.msg = msg)) with
  | some h => h.digest
  | none => Config.hmacSha1 key msg

/-- The ports after `n` calls of the HMAC port. -/
def Ports.afterHmac (p : Ports) (n : Nat) : Ports := { p with hmacCalls := p.hmacCalls + n }

/-! ### Errors and the end of a command -/

/-- Error entry (60_exceptions.md R216, R218): `STATUS` takes the error's word and nothing else changes. There is no
return from it: the next command overwrites `STATUS` (R217). -/
def raiseError (e : ErrKind) (s : State) : State := s.setStatus (errorStatus e)

/-- A success: `STATUS` takes the success word with the given `MATCH` (10_state.md R34). -/
def succeed (matched : Bool) (s : State) : State := s.setStatus (successStatus matched)

/-- One command: ignored under the fatal lock (R213 (1), R218); else its body's result, or its error. -/
def runCommand (s : State) (body : Cmd State) : Host.Outcome State Fault Refusal :=
  if s.fatal then .next s
  else
    match body with
    | .ok t => .next t
    | .error (.err e) => .next (raiseError e s)
    | .error (.unwritten a) => .refused (.unwrittenByte a)

end Sys2Proof.Machine
end

