-- ==== Sys2Proof/Machine/Operands.lean ====
section
/-!
DEFINITION. The operand forms of 30_encoding.md R91: the fields of the length registers, the 64-bit registers made of
two halves, buffer operands, the optional secret, the checks that COMPUTE, TOTP, VALIDATE and VALIDATES share
(41_otp_code.md R155), and the byte order of the counter (20_memory.md R64).
-/
namespace Sys2Proof.Machine

/-- The field `LEN`, bits [15:0], of a length register (10_state.md R24 to R28). -/
def lenField (w : Word) : Nat := (w.extractLsb' 0 16).toNat

/-- `KEY_LEN.VALID`, bit 31: a secret is present (10_state.md R25). -/
def State.keyValid (s : State) : Bool := s.keyLen.getLsbD 31

/-- `CTR = {CTR_HI, CTR_LO}` (10_state.md R22). -/
def State.ctr (s : State) : DWord := s.ctrHi ++ s.ctrLo

/-- `TS = {TS_HI, TS_LO}` (10_state.md R30). -/
def State.ts (s : State) : DWord := s.tsHi ++ s.tsLo

/-- `be64(v)`: eight bytes, the most significant first (20_memory.md R64). -/
def be64 (v : DWord) : List Byte :=
  [v.extractLsb' 56 8, v.extractLsb' 48 8, v.extractLsb' 40 8, v.extractLsb' 32 8,
   v.extractLsb' 24 8, v.extractLsb' 16 8, v.extractLsb' 8 8, v.extractLsb' 0 8]

/-- The buffer operand `BUF[0..n)` (20_memory.md R73, 30_encoding.md R91 (b)). -/
def readOperand (s : State) (b : Buffer) (n : Nat) : Cmd (List Byte) := do
  let v ← readBytes s.mem b.base n
  .ok v.toList

/-- `CapacityError` of a source length (60_exceptions.md R214). -/
def checkSrcCapacity (s : State) : Cmd Unit :=
  raiseIf (decide (s.cfg.srcMax.toNat < lenField s.srcLen)) .capacity

/-- `CapacityError` of a result that does not fit `DST` (R214). -/
def checkDstCapacity (s : State) (n : Nat) : Cmd Unit :=
  raiseIf (decide (s.cfg.dstMax.toNat < n)) .capacity

/-- `CapacityError` of the secret, whose length counts only when it is present, then of the modifier (R213, R214). -/
def checkKeyModCapacity (s : State) : Cmd Unit := do
  raiseIf (s.keyValid && decide (s.cfg.keyMax.toNat < lenField s.keyLen)) .capacity
  raiseIf (decide (s.cfg.modMax.toNat < lenField s.modLen)) .capacity

/-- `ArgumentError` of a missing secret (10_state.md R25, 41_otp_code.md R158 (b)). -/
def checkSecretPresent (s : State) : Cmd Unit := raiseIf (!s.keyValid) .argument

/-- `OverflowError` of the combined length, formed without wrapping (41_otp_code.md R157). -/
def checkMessageLength (s : State) : Cmd Unit :=
  raiseIf (decide (Config.lenMax < 8 + lenField s.modLen)) .overflow

/-- The secret and the modifier as byte sequences (30_encoding.md R91 (b), (c)). -/
def readSecretAndModifier (s : State) : Cmd (List Byte × List Byte) := do
  let key ← readOperand s .key (lenField s.keyLen)
  let modifier ← readOperand s .mod (lenField s.modLen)
  .ok (key, modifier)

/-- `CheckSecretAndModifier()` of 41_otp_code.md R155. -/
def checkSecretAndModifier (s : State) : Cmd (List Byte × List Byte) := do
  checkKeyModCapacity s
  checkSecretPresent s
  checkMessageLength s
  readSecretAndModifier s

end Sys2Proof.Machine
end

