-- ==== Sys2Proof/Machine/Base32.lean ====
section
/-!
DEFINITION. The Base32 unit: the alphabet, the 5-bit/8-bit packing, and the commands B32ENC and B32DEC (40_base32.md).
-/
namespace Sys2Proof.Machine

/-- The pad character `=` (R120). -/
abbrev b32Pad : Byte := 0x3D

/-- `ALPHA` (R120). -/
def b32Alpha (v : BitVec 5) : Byte :=
  if v.toNat ≤ 25 then 0x41 + v.setWidth 8 else 0x32 + (v.setWidth 8 - 26)

/-- `VAL`, `none` for `invalid` (R121). -/
def b32Val (c : Byte) : Option (BitVec 5) :=
  if 0x41 ≤ c.toNat ∧ c.toNat ≤ 0x5A then some ((c - 0x41).setWidth 5)
  else if 0x61 ≤ c.toNat ∧ c.toNat ≤ 0x7A then some ((c - 0x61).setWidth 5)
  else if 0x32 ≤ c.toNat ∧ c.toNat ≤ 0x37 then some ((c - 0x32 + 26).setWidth 5)
  else none

/-- `NCHAR[k]` for a block of `k` bytes, 1 to 5 (R123). -/
def b32Nchar : Nat → Nat
  | 0 => 0
  | 1 => 2
  | 2 => 4
  | 3 => 5
  | 4 => 7
  | _ => 8

/-- `BLK`: the first five bytes shifted in at the bottom, absent bytes as zero (R122). -/
def b32Pack (l : List Byte) : BitVec 40 :=
  l.getD 0 0 ++ l.getD 1 0 ++ l.getD 2 0 ++ l.getD 3 0 ++ l.getD 4 0

/-- Group `i` of a block, bits [39 - 5i : 35 - 5i] (R122). -/
def b32Group (blk : BitVec 40) (i : Nat) : BitVec 5 := blk.extractLsb' (35 - 5 * i) 5

/-- The eight characters of a block of `l.length` bytes, 1 to 5 (R122). -/
def b32Block (l : List Byte) : List Byte :=
  (List.range 8).map fun i =>
    if i < b32Nchar l.length then b32Alpha (b32Group (b32Pack l) i) else b32Pad

/-- The text of a byte sequence: one block per five bytes, the last one possibly shorter (R122). -/
def b32Encode : List Byte → List Byte
  | [] => []
  | [a] => b32Block [a]
  | [a, b] => b32Block [a, b]
  | [a, b, c] => b32Block [a, b, c]
  | [a, b, c, d] => b32Block [a, b, c, d]
  | a :: b :: c :: d :: e :: rest => b32Block [a, b, c, d, e] ++ b32Encode rest

/-- The length `m` of the text without its trailing `=`, of the `m` characters from offset `a` (R130). Characters are
read from the last one downward, and only as far as the first that is not `=`. -/
def b32Strip (mem : Memory) (a : Nat) : Nat → Cmd Nat
  | 0 => .ok 0
  | m + 1 => do
    let c ← readByte mem (a + m)
    if c = b32Pad then b32Strip mem a m else .ok (m + 1)

/-- The value of a character, or `FormatError` (R130). -/
def b32CharValue (c : Byte) : Cmd (BitVec 5) :=
  match b32Val c with
  | some v => .ok v
  | none => .error (.err .format)

/-- `{ACC[6:0], v}` (R130, R131). -/
def b32ShiftIn (acc : BitVec 12) (v : BitVec 5) : BitVec 12 := acc.extractLsb' 0 7 ++ v

/-- `ACC & ((1 << n) - 1)` (R130). -/
def b32Keep (acc : BitVec 12) (n : Nat) : BitVec 12 := acc &&& ((1#12 <<< n) - 1#12)

/-- The decoder's loop over `k` characters from offset `a`, with the bit buffer `ACC` and its count `NBITS` (R130). -/
def b32DecodeFrom (mem : Memory) : (k a : Nat) → (acc : BitVec 12) → (nbits : Nat) → Cmd (List Byte)
  | 0, _, _, _ => .ok []
  | k + 1, a, acc, nbits => do
    let c ← readByte mem a
    let v ← b32CharValue c
    let acc' := b32ShiftIn acc v
    if nbits + 5 < 8 then b32DecodeFrom mem k (a + 1) acc' (nbits + 5)
    else do
      let rest ← b32DecodeFrom mem k (a + 1) (b32Keep acc' (nbits - 3)) (nbits - 3)
      .ok ((acc' >>> (nbits - 3)).setWidth 8 :: rest)

/-- The pseudocode of R122 up to its commit. -/
def b32encBody (s : State) : Cmd State := do
  checkSrcCapacity s
  checkDstCapacity s (8 * ((lenField s.srcLen + 4) / 5))
  let src ← readOperand s .src (lenField s.srcLen)
  .ok (succeed false (s.setDst (b32Encode src)))

/-- B32ENC (R122). -/
def execB32enc (s : State) : Host.Outcome State Fault Refusal := runCommand s (b32encBody s)

/-- The pseudocode of R130 up to its commit. -/
def b32decBody (s : State) : Cmd State := do
  checkSrcCapacity s
  let m ← b32Strip s.mem Buffer.src.base (lenField s.srcLen)
  checkDstCapacity s (5 * m / 8)
  let out ← b32DecodeFrom s.mem m Buffer.src.base 0 0
  .ok (succeed false (s.setDst out))

/-- B32DEC (R130). -/
def execB32dec (s : State) : Host.Outcome State Fault Refusal := runCommand s (b32decBody s)

end Sys2Proof.Machine
end

