-- ==== Sys2Proof/Machine/OtpCode.lean ====
section
/-!
DEFINITION. The truncation unit and the code engine: `Truncate`, `Code`, and the commands GENKEY, TRUNC and COMPUTE
(41_otp_code.md).
-/
namespace Sys2Proof.Machine

/-- `mac[19] & 0x0F`: `Truncate`'s offset as a byte (R150, R151 step 4). -/
def truncOffset (mac : Digest) : Byte := mac[19] &&& 0x0F#8

/-- The offset is at most 15, so the four bytes read stay inside the digest (R152 (a)). -/
theorem truncOffset_lt (mac : Digest) : (truncOffset mac).toNat < 16 := by
  unfold truncOffset
  rw [BitVec.toNat_and]
  exact Nat.lt_of_le_of_lt Nat.and_le_right (by decide)

/-- `binaryCode` (R150, R151 step 5): four bytes big-endian, the top bit masked off. -/
def truncBincode (mac : Digest) : Word :=
  have h := truncOffset_lt mac
  let o := (truncOffset mac).toNat
  ((mac[o] &&& 0x7F#8).setWidth 32 <<< 24) ||| (mac[o + 1].setWidth 32 <<< 16)
    ||| (mac[o + 2].setWidth 32 <<< 8) ||| mac[o + 3].setWidth 32

/-- `code` (R150, R151 step 6). -/
def truncCode (mac : Digest) : Word := truncBincode mac % BitVec.ofNat 32 Config.codeMod

/-- Write the three results of `Truncate(mac)` (R150). -/
def State.setTruncation (s : State) (mac : Digest) : State :=
  s.setCode ((truncOffset mac).setWidth 32) (truncBincode mac) (truncCode mac)

/-- The HMAC message `be64(c) ++ mod` (R156). -/
def hmacMessage (c : DWord) (modifier : List Byte) : List Byte := be64 c ++ modifier

/-- The digest of `Code(key, c, mod)` (R155). -/
def codeDigest (p : Ports) (key : List Byte) (c : DWord) (modifier : List Byte) : Digest :=
  p.hmacSha1 key (hmacMessage c modifier)

/-- Commit the results of `Code`: `MAC`, `OFFSET`, `BINCODE`, `CODE`, after one call of the HMAC port (R155). -/
def State.setCodeResult (s : State) (mac : Digest) : State :=
  ((s.setPorts (s.ports.afterHmac 1)).setMac mac).setTruncation mac

/-- The pseudocode of R160 up to its commit. An unavailable source is an error like the others but for what it leaves
in `STATUS`; the port has been asked in both cases. -/
def genkeyBody (s : State) : Cmd State := do
  checkDstCapacity s (lenField s.rlen)
  .ok (match s.ports.rngNow (lenField s.rlen) with
    | none => raiseError .rngFatal (s.setPorts s.ports.afterRng)
    | some r => succeed false ((s.setPorts s.ports.afterRng).setDst r))

/-- GENKEY (R160). -/
def execGenkey (s : State) : Host.Outcome State Fault Refusal := runCommand s (genkeyBody s)

/-- The pseudocode of R150 up to its commit. -/
def truncBody (s : State) : Cmd State := do
  let mac ← readBytes s.mem Buffer.mac.base 20
  .ok (succeed false (s.setTruncation mac))

/-- TRUNC (R150). -/
def execTrunc (s : State) : Host.Outcome State Fault Refusal := runCommand s (truncBody s)

/-- The pseudocode of R155 up to its commit. -/
def computeBody (s : State) : Cmd State := do
  let (key, modifier) ← checkSecretAndModifier s
  .ok (succeed false (s.setCodeResult (codeDigest s.ports key s.ctr modifier)))

/-- COMPUTE (R155). -/
def execCompute (s : State) : Host.Outcome State Fault Refusal := runCommand s (computeBody s)

end Sys2Proof.Machine
end

