-- ==== Sys2Proof/Machine/TotpWindow.lean ====
section
/-!
DEFINITION. The time step and the window unit: the commands TSTEP, TOTP, VALIDATE and VALIDATES (42_totp_window.md).
-/
namespace Sys2Proof.Machine

/-- `TimeStep(s) = s div 30` (R181). -/
def timeStep (seconds : DWord) : DWord := seconds / BitVec.ofNat 64 Config.stepSeconds

/-- The time step of the command's one sample of the clock (R180, R183, R190). -/
def State.timeStepNow (s : State) : DWord := timeStep s.ports.clockNow

/-- The state after the command's one sample of the clock. -/
def State.sampleClock (s : State) : State := s.setPorts s.ports.afterClock

/-- The counter of window index `w`: `(T - 2 + w) mod 2^64` (R191). -/
def windowCounter (t : DWord) (w : Nat) : DWord := t - BitVec.ofNat 64 Config.window + BitVec.ofNat 64 w

/-- `Window` from index `w` with `k` indices left: whether one matches, and how many calls of the HMAC port were made,
none after the first match (R190, R192, R193). -/
def windowFrom (p : Ports) (key modifier : List Byte) (t : DWord) (cand : Word) : (k w : Nat) → Bool × Nat
  | 0, _ => (false, 0)
  | k + 1, w =>
    if truncCode (codeDigest p key (windowCounter t w) modifier) = cand then (true, 1)
    else
      let (r, calls) := windowFrom p key modifier t cand k (w + 1)
      (r, calls + 1)

/-- `Window(key, mod, T, cand)` over the five counters in ascending order (R190, R191). -/
def windowCheck (p : Ports) (key modifier : List Byte) (t : DWord) (cand : Word) : Bool × Nat :=
  windowFrom p key modifier t cand (2 * Config.window + 1) 0

/-- The end of VALIDATE and VALIDATES: one clock sample, the window, `TS` and `MATCH` (R190, R195). -/
def validateCommit (s : State) (key modifier : List Byte) (cand : Word) : State :=
  let t := s.timeStepNow
  let (r, calls) := windowCheck s.ports key modifier t cand
  succeed r ((s.setPorts (s.ports.afterClock.afterHmac calls)).setTs t)

/-- The pseudocode of R180. -/
def tstepBody (s : State) : Cmd State := .ok (succeed false (s.sampleClock.setTs s.timeStepNow))

/-- TSTEP (R180). -/
def execTstep (s : State) : Host.Outcome State Fault Refusal := runCommand s (tstepBody s)

/-- The pseudocode of R183 up to its commit. -/
def totpBody (s : State) : Cmd State := do
  let (key, modifier) ← checkSecretAndModifier s
  .ok (succeed false
    ((s.sampleClock.setTs s.timeStepNow).setCodeResult (codeDigest s.ports key s.timeStepNow modifier)))

/-- TOTP (R183). -/
def execTotp (s : State) : Host.Outcome State Fault Refusal := runCommand s (totpBody s)

/-- The pseudocode of R190 up to its commit. -/
def validateBody (s : State) : Cmd State := do
  let (key, modifier) ← checkSecretAndModifier s
  .ok (validateCommit s key modifier s.cand)

/-- VALIDATE (R190). -/
def execValidate (s : State) : Host.Outcome State Fault Refusal := runCommand s (validateBody s)

/-- The loop of `ParseCandidate` over `k` characters from offset `a` with the running value `v`, a natural number that
cannot wrap (R195, R196). -/
def parseDigits (mem : Memory) (candMax : Nat) : (k a v : Nat) → Cmd Nat
  | 0, _, v => .ok v
  | k + 1, a, v => do
    let ch ← readByte mem a
    raiseIf (decide (ch.toNat < 0x30) || decide (0x39 < ch.toNat)) .format
    raiseIf (decide (candMax < 10 * v + (ch.toNat - 0x30))) .format
    parseDigits mem candMax k (a + 1) (10 * v + (ch.toNat - 0x30))

/-- `ParseCandidate(SRC[0..n))` (R195, R196). -/
def parseCandidate (s : State) : Cmd Word := do
  raiseIf (decide (lenField s.srcLen = 0)) .format
  let v ← parseDigits s.mem s.cfg.candMax.toNat (lenField s.srcLen) Buffer.src.base 0
  .ok (BitVec.ofNat 32 v)

/-- The pseudocode of R195 up to its commit. -/
def validatesBody (s : State) : Cmd State := do
  checkSrcCapacity s
  checkKeyModCapacity s
  checkSecretPresent s
  let cand ← parseCandidate s
  checkMessageLength s
  let (key, modifier) ← readSecretAndModifier s
  .ok (validateCommit (s.setCand cand) key modifier cand)

/-- VALIDATES (R195). -/
def execValidates (s : State) : Host.Outcome State Fault Refusal := runCommand s (validatesBody s)

end Sys2Proof.Machine
end

