-- ==== Sys2Proof/Machine/Dispatch.lean ====
section
/-!
DEFINITION. One arm per command of 30_encoding.md R92.
-/
namespace Sys2Proof.Machine

def exec (i : Instr) (s : State) : Host.Outcome State Fault Refusal :=
  match i with
  | .b32enc => Sys2Proof.Machine.execB32enc s
  | .b32dec => Sys2Proof.Machine.execB32dec s
  | .genkey => Sys2Proof.Machine.execGenkey s
  | .trunc => Sys2Proof.Machine.execTrunc s
  | .compute => Sys2Proof.Machine.execCompute s
  | .tstep => Sys2Proof.Machine.execTstep s
  | .totp => Sys2Proof.Machine.execTotp s
  | .validate => Sys2Proof.Machine.execValidate s
  | .validates => Sys2Proof.Machine.execValidates s

end Sys2Proof.Machine
end

