-- ==== Sys2Proof/Machine/HostPort.lean ====
section
/-!
DEFINITION. The host port: the address map (20_memory.md R70, R71), what a read or a write of each location does (R66,
R69), the write to `CMD` that runs a command (30_encoding.md R93, R94), the reset input (70_reset_and_hazards.md R250),
and the taking of the next bus event.
-/
namespace Sys2Proof.Machine

/-- What stands at a host address (20_memory.md R70). -/
inductive Location where
  | reg (r : Reg)
  | byte (b : Buffer) (i : Nat)
  /-- Inside the register area, not a multiple of 4 (R67). -/
  | misaligned
  | unmapped
  deriving DecidableEq, Repr

/-- The register at an offset of the map (R70). -/
def regAt : Nat → Option Reg
  | 0x00 => some .cmd
  | 0x04 => some .status
  | 0x08 => some .ctrLo
  | 0x0C => some .ctrHi
  | 0x10 => some .cand
  | 0x14 => some .rlen
  | 0x18 => some .keyLen
  | 0x1C => some .modLen
  | 0x20 => some .srcLen
  | 0x24 => some .dstLen
  | 0x28 => some .code
  | 0x2C => some .bincode
  | 0x30 => some .offset
  | 0x34 => some .tsLo
  | 0x38 => some .tsHi
  | 0x3C => some .reserved
  | _ => none

/-- The offset of a register (R70). -/
def regOffset : Reg → Nat
  | .cmd => 0x00
  | .status => 0x04
  | .ctrLo => 0x08
  | .ctrHi => 0x0C
  | .cand => 0x10
  | .rlen => 0x14
  | .keyLen => 0x18
  | .modLen => 0x1C
  | .srcLen => 0x20
  | .dstLen => 0x24
  | .code => 0x28
  | .bincode => 0x2C
  | .offset => 0x30
  | .tsLo => 0x34
  | .tsHi => 0x38
  | .reserved => 0x3C

/-- Index `i` of a buffer, if it is below the capacity (R70, R71). -/
def bufferLocation (p : Params) (b : Buffer) (i : Nat) : Location :=
  if i < b.capacity p then .byte b i else .unmapped

/-- What stands at an offset from `BASE` (R70, R71). -/
def locateOffset (p : Params) (o : Nat) : Location :=
  if o < 0x40 then
    match regAt o with
    | some r => .reg r
    | none => .misaligned
  else if o < 0x10000 then bufferLocation p .mac (o - 0x40)
  else if o < 0x20000 then bufferLocation p .key (o - 0x10000)
  else if o < 0x30000 then bufferLocation p .mod (o - 0x20000)
  else if o < 0x40000 then bufferLocation p .src (o - 0x30000)
  else if o < 0x50000 then bufferLocation p .dst (o - 0x40000)
  else .unmapped

/-- What stands at a host address (R60, R70). -/
def locate (p : Params) (addr : Nat) : Location :=
  if addr < p.base then .unmapped else locateOffset p (addr - p.base)

/-- The value a 32-bit read of a register returns (10_state.md R22 to R33, 20_memory.md R69, R70). -/
def hostReadReg (s : State) : Reg → Word
  | .cmd => 0
  | .status => s.status
  | .ctrLo => s.ctrLo
  | .ctrHi => s.ctrHi
  | .cand => s.cand
  | .rlen => s.rlen
  | .keyLen => s.keyLen
  | .modLen => s.modLen
  | .srcLen => s.srcLen
  | .dstLen => s.dstLen
  | .code => s.code
  | .bincode => s.bincode
  | .offset => s.offset
  | .tsLo => s.tsLo
  | .tsHi => s.tsHi
  | .reserved => 0

/-- The bits of a length register that hold `LEN`; the others ignore writes (10_state.md R21, R24). -/
abbrev lenMask : Word := 0x0000FFFF

/-- The bits of `KEY_LEN` that are not zero bits: `VALID` and `LEN` (10_state.md R25). -/
abbrev keyLenMask : Word := 0x8000FFFF

/-- A 32-bit write to a register other than `CMD`: RW registers store the bits that are not zero bits; read-only
registers and offset 0x3C ignore the write (10_state.md R21, 20_memory.md R69, R70). -/
def hostWriteReg (s : State) (v : Word) : Reg → State
  | .ctrLo => { s with ctrLo := v }
  | .ctrHi => { s with ctrHi := v }
  | .cand => { s with cand := v }
  | .rlen => { s with rlen := v &&& lenMask }
  | .keyLen => { s with keyLen := v &&& keyLenMask }
  | .modLen => { s with modLen := v &&& lenMask }
  | .srcLen => { s with srcLen := v &&& lenMask }
  | .cmd | .status | .dstLen | .code | .bincode | .offset | .tsLo | .tsHi | .reserved => s

/-- A byte of `DST` at or above `DST_LEN`, to be treated as unspecified whatever it held (10_state.md R39, 93 U5). -/
def staleDst (s : State) (b : Buffer) (i : Nat) : Bool := decide (b = .dst) && decide (lenField s.dstLen ≤ i)

/-- The value an 8-bit read of a buffer byte returns: the byte, or a free value where nothing has written it since
reset (10_state.md R48) or it lies above `DST_LEN` (R39). -/
def hostReadByte (s : State) (b : Buffer) (i : Nat) : Byte :=
  match s.mem.read (b.base + i) with
  | some v => if staleDst s b i then Config.unspecifiedByte s.epoch (b.base + i) else v
  | none => Config.unspecifiedByte s.epoch (b.base + i)

/-- An 8-bit write of a buffer byte; `DST` ignores it (10_state.md R39, 20_memory.md R69). -/
def hostWriteByte (s : State) (v : Byte) (b : Buffer) (i : Nat) : State :=
  match b with
  | .dst => s
  | .key | .mod | .src | .mac => { s with mem := s.mem.write (b.base + i) v }

/-- An illegal word: `IllegalCommand`, unless the fatal lock ignores it (30_encoding.md R94, 60_exceptions.md R213). -/
def illegalCommand (s : State) : Host.Outcome State Fault Refusal :=
  runCommand s (.error (.err .illegalCommand))

/-- A write to `CMD`: the command the word selects, or `IllegalCommand` (30_encoding.md R93, R94). -/
def writeCmd (w : Word) (s : State) : Host.Outcome State Fault Refusal :=
  match decode w with
  | .ok i => exec i s
  | .error _ => illegalCommand s

/-- A host read (20_memory.md R66, R69, R71). -/
def hostRead (s : State) (w : Width) (addr : Nat) : Host.Outcome State Fault Refusal :=
  match locate s.cfg addr with
  | .unmapped => .refused (.unmapped addr)
  | .misaligned => .refused (.wrongWidth addr)
  | .reg r => if w = .w32 then .next (s.setReadData (.word (hostReadReg s r))) else .refused (.wrongWidth addr)
  | .byte b i => if w = .w8 then .next (s.setReadData (.byte (hostReadByte s b i))) else .refused (.wrongWidth addr)

/-- A host write (20_memory.md R66, R69, R71): a write to `CMD` runs a command, any other only stores. -/
def hostWrite (s : State) (w : Width) (addr : Nat) (data : DWord) : Host.Outcome State Fault Refusal :=
  match locate s.cfg addr with
  | .unmapped => .refused (.unmapped addr)
  | .misaligned => .refused (.wrongWidth addr)
  | .reg r =>
    if w = .w32 then
      if r = .cmd then writeCmd (data.setWidth 32) s else .next (hostWriteReg s (data.setWidth 32) r)
    else .refused (.wrongWidth addr)
  | .byte b i => if w = .w8 then .next (hostWriteByte s (data.setWidth 8) b i) else .refused (.wrongWidth addr)

/-- The registers and buffers at their values after reset; what is outside the block stays (10_state.md R47, R48,
70_reset_and_hazards.md R250). Unspecified bytes may have changed, so `epoch` moves on. -/
def State.toReset (s : State) : State :=
  { State.reset with
    epoch := s.epoch + 1
    ports := s.ports
    host := { s.host with resetAsserted := false }
    cfg := s.cfg }

/-- The reset input takes a level: released after having been asserted, it leaves the reset state (R250). -/
def resetInput (s : State) (asserted : Bool) : State :=
  if asserted then s.setResetAsserted true
  else if s.host.resetAsserted then s.toReset else s

/-- What a bus event does. While the reset input is asserted a host access has no defined effect (R250, 93 U4). -/
def performEvent (s : State) : BusEvent → Host.Outcome State Fault Refusal
  | .resetInput asserted => .next (resetInput s asserted)
  | .read w addr => if s.host.resetAsserted then .refused .accessInReset else hostRead s w addr
  | .write w addr data => if s.host.resetAsserted then .refused .accessInReset else hostWrite s w addr data

/-- The next bus event takes place, each completing before the next starts (20_memory.md R75, R76); with none to come
nothing happens (60_exceptions.md R230: nothing advances by itself). -/
def performNext (s : State) : Host.Outcome State Fault Refusal :=
  match s.host.pending with
  | [] => .next s
  | e :: rest => performEvent (s.setPending rest) e

/-- The write to `CMD` with the command word `w` is made the next bus event, the reset input released. -/
def State.withCommand (s : State) (w : DWord) : State :=
  (s.setResetAsserted false).setPending (.write .w32 (s.cfg.base + regOffset .cmd) w :: s.host.pending)

end Sys2Proof.Machine
end

