-- ==== Sys2Proof/Machine/Step.lean ====
section
/-!
DEFINITION. One step of the machine: the host's next bus event, a write to `CMD` running its whole command
(20_memory.md R76). OTPCORE fetches nothing (10_state.md R31), so an instruction is placed as the host's next write
to `CMD`.
-/
namespace Sys2Proof.Machine

/-- One step. -/
def step (s : State) : Host.Outcome State Fault Refusal := performNext s

/-- The state whose next step is the write of the given word to `CMD` (bits above `nbits` zero; a command is one
32-bit word). -/
def State.withFetchWord (s : State) (nbits w : Nat) : State := s.withCommand (BitVec.ofNat 64 (w % 2 ^ nbits))

end Sys2Proof.Machine
end

