-- ==== Sys2Proof/Machine/Script.lean ====
section
/-!
DEFINITION. The host's script notation (30_encoding.md R95, R96): a line is one bus access, a pseudo-instruction is a
list of lines. It is how a host program is written into the list of bus events; no step depends on it.
-/
namespace Sys2Proof.Machine

/-- A script line (R95). -/
inductive Line where
  | wr (r : Reg) (v : Word)
  | rd (r : Reg)
  | wrb (b : Buffer) (i : Nat) (v : Byte)
  | rdb (b : Buffer) (i : Nat)
  | command (i : Instr)
  deriving DecidableEq, Repr

/-- A pseudo-instruction (R96). -/
inductive Pseudo where
  | setctr (v : DWord)
  | ldkey (l : List Byte)
  | nokey
  | ldmod (l : List Byte)
  | nomod
  | ldsrc (l : List Byte)
  | ldmac (d : Digest)
  | rdts
  | rddst
  | dst2src
  deriving DecidableEq, Repr

/-- A buffer line names a byte below the buffer's capacity (R70); every other line is well formed by its types. -/
def Line.wellFormed (p : Params) : Line → Bool
  | .wrb b i _ | .rdb b i => decide (i < b.capacity p)
  | .wr _ _ | .rd _ | .command _ => true

/-- The bus access of a line (R95). -/
def Line.event (p : Params) : Line → BusEvent
  | .wr r v => .write .w32 (p.base + regOffset r) (v.setWidth 64)
  | .rd r => .read .w32 (p.base + regOffset r)
  | .wrb b i v => .write .w8 (p.base + (b.base + i)) (v.setWidth 64)
  | .rdb b i => .read .w8 (p.base + (b.base + i))
  | .command i => .write .w32 (p.base + regOffset .cmd) ((encode i).setWidth 64)

/-- `WRB BUF[i], bi` for every byte of a list. -/
def loadLines (b : Buffer) (l : List Byte) : List Line :=
  (List.range l.length).map fun i => .wrb b i (l.getD i 0)

/-- `RD DST_LEN` and `RDB DST[i]` for every `i` below the length it reads (R96). -/
def rddstLines (s : State) : List Line :=
  .rd .dstLen :: (List.range (lenField s.dstLen)).map fun i => .rdb .dst i

/-- The expansion of a pseudo-instruction (R96). `RDDST` and `DST2SRC` depend on what the host reads, which is what it
would read in the state in which the expansion starts (log entry 15). -/
def Pseudo.lines (s : State) : Pseudo → List Line
  | .setctr v => [.wr .ctrLo (v.extractLsb' 0 32), .wr .ctrHi (v.extractLsb' 32 32)]
  | .ldkey l => loadLines .key l ++ [.wr .keyLen (0x80000000 + BitVec.ofNat 32 l.length)]
  | .nokey => [.wr .keyLen 0]
  | .ldmod l => loadLines .mod l ++ [.wr .modLen (BitVec.ofNat 32 l.length)]
  | .nomod => [.wr .modLen 0]
  | .ldsrc l => loadLines .src l ++ [.wr .srcLen (BitVec.ofNat 32 l.length)]
  | .ldmac d => loadLines .mac d.toList
  | .rdts => [.rd .tsLo, .rd .tsHi]
  | .rddst => rddstLines s
  | .dst2src =>
    let l := (List.range (lenField s.dstLen)).map fun i => hostReadByte s .dst i
    rddstLines s ++ loadLines .src l ++ [.wr .srcLen (BitVec.ofNat 32 l.length)]

/-- The state with script lines as the next bus events. -/
def State.withScript (s : State) (l : List Line) : State :=
  s.setPending (l.map (Line.event s.cfg) ++ s.host.pending)

end Sys2Proof.Machine
end

