-- ==== Sys2Proof/Safety.lean ====
section
/-!
DEFINITION. The terms claims are stated in: what a step leaves, what a safe run is, and the invariant `Inv` of the
states a run can reach.
-/
namespace Sys2Proof.Machine

/-- The next state of an outcome, if it has one. -/
def nextState? : Host.Outcome State Fault Refusal → Option State
  | .next t => some t
  | .fault _ => none
  | .refused _ => none

/-- A run of `k` steps that meets neither a fault nor a refusal. -/
def SafeRun (s : State) (k : Nat) : Prop := ∃ t, Sys2Proof.core.run k s = .next t

/-- The words `STATUS` can hold: 0 after reset, a success without or with `MATCH`, and one word per error kind
(10_state.md R33, R34; 60_exceptions.md R210). -/
def legalStatuses : List Word :=
  [0x00000000, 0x00000001, 0x00000003, 0x00000011, 0x00000021, 0x00000031, 0x00000041, 0x00000055, 0x00000061]

/-- The error kinds each command raises, RngFatal among them (60_exceptions.md R210, R211). -/
def raisedErrors : Instr → List ErrKind
  | .b32enc => [.capacity]
  | .b32dec => [.format, .capacity]
  | .genkey => [.capacity, .rngFatal]
  | .trunc => []
  | .compute => [.argument, .overflow, .capacity]
  | .tstep => []
  | .totp => [.argument, .overflow, .capacity]
  | .validate => [.argument, .overflow, .capacity]
  | .validates => [.format, .argument, .overflow, .capacity]

/-- A listed offset is a buffer byte below its capacity (20_memory.md R70). -/
def isBufferOffset (p : Params) (o : Nat) : Bool :=
  match locateOffset p o with
  | .byte _ _ => true
  | .reg _ => false
  | .misaligned => false
  | .unmapped => false

/-- What holds of the state after reset and is kept by every step. -/
structure Inv (s : State) : Prop where
  /-- Memory keeps its canonical form. -/
  memWf : Memory.wf s.mem
  /-- Only buffer bytes below their capacity are listed (R70). -/
  memMapped : ∀ c ∈ s.mem, isBufferOffset s.cfg c.1 = true
  /-- `STATUS` holds one of the nine words R33, R34 and R210 allow. -/
  status : s.status ∈ legalStatuses
  /-- The zero bits of the length registers are zero (10_state.md R21, R24 to R28). -/
  rlen : s.rlen.toNat ≤ Config.lenMax
  keyLen : s.keyLen &&& 0x7FFF0000 = 0
  modLen : s.modLen.toNat ≤ Config.lenMax
  srcLen : s.srcLen.toNat ≤ Config.lenMax
  /-- `DST_LEN` never exceeds the capacity of `DST` (20_memory.md R73). -/
  dstLen : s.dstLen.toNat ≤ s.cfg.dstMax.toNat
  /-- Every byte of `DST` below `DST_LEN` has been written. -/
  dstWritten : ∀ i < s.dstLen.toNat, (s.mem.read (Buffer.dst.base + i)).isSome = true
  /-- The ranges of the truncation's results (41_otp_code.md R152), and the relation between the two codes (R151). -/
  offset : s.offset.toNat ≤ 15
  bincode : s.bincode.toNat ≤ 0x7FFFFFFF
  code : s.code.toNat = s.bincode.toNat % Config.codeMod
  /-- The range of a time step (42_totp_window.md R181). -/
  ts : s.ts.toNat ≤ 614891469123651720

end Sys2Proof.Machine
end

