-- ==== Sys2Proof/Spec.lean ====
section
/-!
DEFINITION. The words the claims use for what the spec computes, written with natural numbers and lists, apart from the
machine's own bit-level definitions: a claim then compares two texts of one rule.
-/
namespace Sys2Proof.Spec

open Sys2Proof.Machine

/-- The buffer holds the byte sequence from index 0 (00_scope.md R9, 20_memory.md R73). -/
abbrev Holds (s : State) (b : Buffer) (l : List Byte) : Prop :=
  ∀ i, (h : i < l.length) → s.mem.read (b.base + i) = some l[i]

/-- Memory outside the `n` bytes from offset `a` reads as before. -/
abbrev SameOutside (s t : State) (a n : Nat) : Prop :=
  ∀ x, ¬ (a ≤ x ∧ x < a + n) → t.mem.read x = s.mem.read x

/-- The buffers a command reads, each with how many of its bytes are operands (20_memory.md R61). -/
def operandBuffers (s : State) : Instr → List (Buffer × Nat)
  | .b32enc => [(.src, lenField s.srcLen)]
  | .b32dec => [(.src, lenField s.srcLen)]
  | .genkey => []
  | .trunc => [(.mac, Config.macLen)]
  | .compute => [(.key, lenField s.keyLen), (.mod, lenField s.modLen)]
  | .tstep => []
  | .totp => [(.key, lenField s.keyLen), (.mod, lenField s.modLen)]
  | .validate => [(.key, lenField s.keyLen), (.mod, lenField s.modLen)]
  | .validates => [(.src, lenField s.srcLen), (.key, lenField s.keyLen), (.mod, lenField s.modLen)]

/-! ### Base32 -/

/-- The alphabet in listing order (40_base32.md R120). -/
def alphabet : List Byte :=
  [0x41, 0x42, 0x43, 0x44, 0x45, 0x46, 0x47, 0x48, 0x49, 0x4A, 0x4B, 0x4C, 0x4D, 0x4E, 0x4F, 0x50,
   0x51, 0x52, 0x53, 0x54, 0x55, 0x56, 0x57, 0x58, 0x59, 0x5A, 0x32, 0x33, 0x34, 0x35, 0x36, 0x37]

/-- `8 * ⌈n / 5⌉` (R122). -/
def encodedLength (n : Nat) : Nat := 8 * ((n + 4) / 5)

/-- Block `j` as a number of 40 bits, absent bytes zero (R122; 20_memory.md R63). -/
def blockValue (src : List Byte) (j : Nat) : Nat :=
  (src.getD (5 * j) 0).toNat * 2 ^ 32 + (src.getD (5 * j + 1) 0).toNat * 2 ^ 24
    + (src.getD (5 * j + 2) 0).toNat * 2 ^ 16 + (src.getD (5 * j + 3) 0).toNat * 2 ^ 8
    + (src.getD (5 * j + 4) 0).toNat

/-- Character `i` of the text of `src`: a group of its block, or the pad (R122 to R124). -/
def encodedChar (src : List Byte) (i : Nat) : Byte :=
  if i % 8 < (8 * min 5 (src.length - 5 * (i / 8)) + 4) / 5 then
    alphabet.getD (blockValue src (i / 8) / 2 ^ (35 - 5 * (i % 8)) % 32) 0
  else 0x3D

/-- An ASCII letter in upper case (R121). -/
def upperCase (c : Byte) : Byte := if 0x61 ≤ c.toNat ∧ c.toNat ≤ 0x7A then c - 0x20 else c

/-- The place of a character in the alphabet, letters of either case (R121). -/
def symbolValue (c : Byte) : Option Nat := alphabet.findIdx? (· == upperCase c)

/-- The length of a text without its trailing `=` (R130). -/
def strippedLength (text : List Byte) : Nat := (text.reverse.dropWhile (· == 0x3D)).length

/-- The 5-bit values of a text joined into one number, the first one most significant (R132). -/
def textValue (text : List Byte) : Nat := text.foldl (fun v c => 32 * v + (symbolValue c).getD 0) 0

/-- Byte `o` of what a text decodes to (R132). -/
def decodedByte (text : List Byte) (o : Nat) : Byte :=
  BitVec.ofNat 8
    (textValue (text.take (strippedLength text)) / 2 ^ (5 * strippedLength text - 8 * (o + 1)))

/-- Every character before the trailing `=` is in the alphabet (R130). -/
def decodable (text : List Byte) : Bool :=
  (text.take (strippedLength text)).all fun c => (symbolValue c).isSome

/-! ### Codes -/

/-- The eight bytes of a counter, most significant first (20_memory.md R64). -/
def counterBytes (c : Nat) : List Byte := (List.range 8).map fun i => BitVec.ofNat 8 (c / 256 ^ (7 - i))

/-- `mac[19] & 0x0F` (41_otp_code.md R151 step 4). -/
def offsetOf (mac : Digest) : Nat := (mac.toList.getD 19 0).toNat % 16

/-- Four bytes from the offset, big-endian, bit 31 cleared (R151 step 5). -/
def binaryCodeOf (mac : Digest) : Nat :=
  ((mac.toList.getD (offsetOf mac) 0).toNat * 2 ^ 24 + (mac.toList.getD (offsetOf mac + 1) 0).toNat * 2 ^ 16
    + (mac.toList.getD (offsetOf mac + 2) 0).toNat * 2 ^ 8 + (mac.toList.getD (offsetOf mac + 3) 0).toNat) % 2 ^ 31

/-- The code of a digest (R151 step 6). -/
def codeOf (mac : Digest) : Nat := binaryCodeOf mac % 1000000

/-- The digest of the code for a secret, a counter and a modifier (R155, R156). -/
def digestFor (p : Ports) (key : List Byte) (c : Nat) (modifier : List Byte) : Digest :=
  p.hmacSha1 key (counterBytes c ++ modifier)

/-- The code for a secret, a counter and a modifier (R155). -/
def codeFor (p : Ports) (key : List Byte) (c : Nat) (modifier : List Byte) : Nat :=
  codeOf (digestFor p key c modifier)

/-- The three result registers hold the truncation of a digest (R150). -/
abbrev HoldsTruncation (t : State) (mac : Digest) : Prop :=
  t.offset = BitVec.ofNat 32 (offsetOf mac) ∧ t.bincode = BitVec.ofNat 32 (binaryCodeOf mac)
    ∧ t.code = BitVec.ofNat 32 (codeOf mac)

/-- A length of the secret or of the modifier exceeds its buffer (60_exceptions.md R214). -/
abbrev KeyModTooLong (s : State) : Prop :=
  (s.keyValid = true ∧ s.cfg.keyMax.toNat < lenField s.keyLen) ∨ s.cfg.modMax.toNat < lenField s.modLen

/-- The secret is present, the lengths pass every check, and both buffers hold their bytes (R155). -/
abbrev SecretReady (s : State) (key modifier : List Byte) : Prop :=
  s.keyValid = true ∧ lenField s.keyLen = key.length ∧ lenField s.modLen = modifier.length
    ∧ key.length ≤ s.cfg.keyMax.toNat ∧ modifier.length ≤ s.cfg.modMax.toNat ∧ 8 + modifier.length ≤ 65535
    ∧ Holds s .key key ∧ Holds s .mod modifier

/-- The errors of `CheckSecretAndModifier` in their order, for a command that starts with it (R155, R157, R158 (b);
60_exceptions.md R213, R214): each leaves the error's word in `STATUS` and nothing else changed, the ports included. -/
def SecretErrors (i : Instr) : Prop :=
  (∀ s : State, s.fatal = false → KeyModTooLong s → exec i s = .next { s with status := 0x41 })
  ∧ (∀ s : State, s.fatal = false → ¬ KeyModTooLong s → s.keyValid = false →
      exec i s = .next { s with status := 0x21 })
  ∧ (∀ s : State, s.fatal = false → ¬ KeyModTooLong s → s.keyValid = true → 65527 < lenField s.modLen →
      exec i s = .next { s with status := 0x31 })

/-! ### Time steps and candidates -/

/-- The time step of the next clock answer (42_totp_window.md R181). -/
def stepNow (s : State) : Nat := s.ports.clockNow.toNat / 30

/-- Counter `w` of the window around `T`, `w` from 0 to 4 (R191). -/
def windowStep (t w : Nat) : Nat := (t + 2 ^ 64 - 2 + w) % 2 ^ 64

/-- The candidate equals the code of a step of the window (R190, R192). -/
abbrev Matches (p : Ports) (key modifier : List Byte) (t cand : Nat) : Prop :=
  ∃ w < 5, codeFor p key (windowStep t w) modifier = cand

/-- How many steps of the window are tried: up to the first match (R192). -/
def tries (p : Ports) (key modifier : List Byte) (t cand : Nat) : Nat :=
  if codeFor p key (windowStep t 0) modifier = cand then 1
  else if codeFor p key (windowStep t 1) modifier = cand then 2
  else if codeFor p key (windowStep t 2) modifier = cand then 3
  else if codeFor p key (windowStep t 3) modifier = cand then 4
  else 5

/-- A decimal digit (R196). -/
def isDigit (c : Byte) : Bool := decide (0x30 ≤ c.toNat) && decide (c.toNat ≤ 0x39)

/-- The decimal value of a digit string (R196). -/
def decimalValue (text : List Byte) : Nat := text.foldl (fun v c => 10 * v + (c.toNat - 0x30)) 0

/-- The grammar of a candidate string (R196). -/
def validCandidate (candMax : Nat) (text : List Byte) : Bool :=
  !text.isEmpty && text.all isDigit && decide (decimalValue text ≤ candMax)

end Sys2Proof.Spec
end

