-- ==== Sys2Proof/Certificates/Slice0/Obligations.lean ====
section
/-!
DEFINITION. The statements for the provers, each from the numbered rules its docstring names. Of the state, `ports`,
`host`, `epoch` and `cfg` are the model's own fields (log entries 1 to 7, 9, 11, 12); where a statement counts the calls
of a port, it counts them there.
-/
open Sys2Proof Sys2Proof.Machine Sys2Proof.Spec

/-! ### Command words -/

/-- Words written out from 30_encoding.md R92 decode to their commands, and neighbours of them (95, Q1 to Q6) do not
decode. -/
def Obligations.DecodeSanity : Prop :=
  decode 0x00000001 = .ok .b32enc ∧ decode 0x00000010 = .ok .genkey ∧ decode 0x00000012 = .ok .compute
  ∧ decode 0x00000016 = .ok .validates ∧ decode 0x00000000 = .error .unknownOpcode
  ∧ decode 0x00000017 = .error .unknownOpcode ∧ decode 0x00000101 = .error .zeroFieldNotZero
  ∧ decode 0x80000012 = .error .zeroFieldNotZero

/-- R92: the nine words and no other select the nine commands, every mask being 0xFFFFFFFF. -/
def Obligations.OpcodeMap : Prop :=
  ∀ (w : Word) (i : Instr), decode w = .ok i ↔
    (w, i) ∈ [((0x01 : Word), Instr.b32enc), (0x02, .b32dec), (0x10, .genkey), (0x11, .trunc), (0x12, .compute),
      (0x13, .tstep), (0x14, .totp), (0x15, .validate), (0x16, .validates)]

/-- R93: a word is illegal exactly when a bit above [7:0] is set or [7:0] is none of the nine opcodes; any other word is
the command whose word it is, and writing it to `CMD` runs that command, whatever the state. -/
def Obligations.IllegalWords : Prop :=
  ∀ w : Word,
    ((∃ e, decode w = .error e) ↔
      w.toNat / 256 ≠ 0 ∨ w.toNat % 256 ∉ [0x01, 0x02, 0x10, 0x11, 0x12, 0x13, 0x14, 0x15, 0x16])
    ∧ ∀ i, decode w = .ok i → encode i = w ∧ ∀ s, writeCmd w s = exec i s

/-- Decoding and encoding are inverse to each other: a word decodes to a command exactly when it encodes it. -/
def Obligations.DecodeEncode : Prop := ∀ (w : Word) (i : Instr), decode w = .ok i ↔ encode i = w

/-- R94: every word but the nine, 0 among them, writes `STATUS <- {DONE = 1, MATCH = 0, FATAL = 0, ERR = 6}` and nothing
else. -/
def Obligations.IllegalCommand : Prop :=
  ∀ (s : State) (w : Word), s.fatal = false → w ∉ [0x01, 0x02, 0x10, 0x11, 0x12, 0x13, 0x14, 0x15, 0x16] →
    writeCmd w s = .next { s with status := 0x61 }

/-! ### Steps -/

/-- A step whose bus event writes a command word to `CMD` runs the decoded command on the state with that event
taken; a word that does not decode is an illegal command. -/
def Obligations.StepRunsCommand : Prop :=
  ∀ (s : State) (d : DWord) (rest : List BusEvent), s.host.resetAsserted = false →
    s.host.pending = .write .w32 s.cfg.base d :: rest →
    (∀ i, decode (d.setWidth 32) = .ok i →
      step s = exec i { s with host := { s.host with pending := rest } })
    ∧ ((∀ i, decode (d.setWidth 32) ≠ .ok i) →
      step s = illegalCommand { s with host := { s.host with pending := rest } })

/-- R75: the bus events take effect one by one in the order the host issues them; with none to come a step changes
nothing (log entry 2). -/
def Obligations.StepTakesNextEvent : Prop :=
  (∀ (s : State) (e : BusEvent) (rest : List BusEvent), s.host.pending = e :: rest →
    step s = performEvent { s with host := { s.host with pending := rest } } e)
  ∧ (∀ (s : State) (w : Width) (a : Nat), s.host.resetAsserted = false →
      performEvent s (.read w a) = hostRead s w a)
  ∧ (∀ (s : State) (w : Width) (a : Nat) (d : DWord), s.host.resetAsserted = false →
      performEvent s (.write w a d) = hostWrite s w a d)
  ∧ (∀ s : State, s.host.pending = [] → step s = .next s)

/-- The invariant holds after reset. -/
def Obligations.InvReset : Prop := Inv State.reset

/-- Every step keeps the invariant: memory keeps its canonical form and lists buffer bytes only, `STATUS` holds one of
its nine words, the zero bits of the length registers are zero, `DST_LEN` fits `DST` and its bytes are written, and the
result registers keep their ranges. -/
def Obligations.InvStep : Prop := ∀ s t : State, Inv s → step s = .next t → Inv t

/-- No step changes the parameters of the machine or the assumed values of `HMAC_SHA1` (00_scope.md R7, R14;
60_exceptions.md R233). -/
def Obligations.ParametersFixed : Prop :=
  ∀ s t : State, step s = .next t → t.cfg = s.cfg ∧ t.ports.hmacAnswers = s.ports.hmacAnswers

/-! ### Whole-machine rules of commands -/

/-- The fatal lock (60_exceptions.md R218, 70_reset_and_hazards.md R250): how it is entered, what it ignores, what still
works, and that reset alone clears it. That the machine runs on in the lock is log entry 10; that the levels of the reset
input are bus events of the state, and `STATUS` stays until the release, is log entry 9. -/
def Obligations.FatalLock : Prop :=
  (∀ s : State, s.fatal = false → lenField s.rlen ≤ s.cfg.dstMax.toNat → s.ports.rngNow (lenField s.rlen) = none →
    exec .genkey s = .next { s with status := 0x55, ports := s.ports.afterRng })
  ∧ (∀ (s : State) (w : Word), s.fatal = true → writeCmd w s = .next s)
  ∧ (∀ (s : State) (r : Reg) (d : DWord), s.fatal = true → r ≠ .cmd →
      hostWrite s .w32 (s.cfg.base + regOffset r) d = .next (hostWriteReg s (d.setWidth 32) r))
  ∧ (∀ (s : State) (r : Reg), s.fatal = true →
      hostRead s .w32 (s.cfg.base + regOffset r) = .next (s.setReadData (.word (hostReadReg s r))))
  ∧ (∀ (s : State) (b : Buffer) (i : Nat) (d : DWord), s.fatal = true → i < b.capacity s.cfg →
      hostWrite s .w8 (s.cfg.base + (b.base + i)) d = .next (hostWriteByte s (d.setWidth 8) b i))
  ∧ (∀ (s : State) (b : Buffer) (i : Nat), s.fatal = true → i < b.capacity s.cfg →
      hostRead s .w8 (s.cfg.base + (b.base + i)) = .next (s.setReadData (.byte (hostReadByte s b i))))
  ∧ (∀ s t : State, s.fatal = true → step s = .next t →
      t.status = s.status
      ∨ (∃ rest, s.host.pending = .resetInput false :: rest) ∧ s.host.resetAsserted = true ∧ t.status = 0)

/-- R216: a command that ends with error code 1, 2, 3, 4 or 6 has written the error's word to `STATUS` and changed
nothing else. -/
def Obligations.ErrorEntry : Prop :=
  ∀ (w : Word) (s t : State), s.fatal = false → writeCmd w s = .next t →
    t.err = 1 ∨ t.err = 2 ∨ t.err = 3 ∨ t.err = 4 ∨ t.err = 6 →
    t = { s with status := BitVec.ofNat 32 (16 * t.err.toNat + 1) }

/-- A command that ends writes the whole of `STATUS` (10_state.md R33, R34; 60_exceptions.md R210): one of eight words,
`MATCH` only after VALIDATE or VALIDATES, `FATAL` only after a GENKEY that found the source unavailable. -/
def Obligations.StatusAfterCommand : Prop :=
  ∀ (w : Word) (s t : State), s.fatal = false → writeCmd w s = .next t →
    t.status ∈ legalStatuses ∧ t.done = true
    ∧ (t.matched = true → t.err = 0 ∧ (decode w = .ok .validate ∨ decode w = .ok .validates))
    ∧ (t.fatal = true → t.err = 5 ∧ decode w = .ok .genkey ∧ s.ports.rngNow (lenField s.rlen) = none)

/-- A command that ends without the lock succeeds or reports one of the kinds R210 lists for it; TRUNC and TSTEP raise
none, B32ENC only `CapacityError` (60_exceptions.md R210, R211). -/
def Obligations.ErrorsByCommand : Prop :=
  ∀ (i : Instr) (s t : State), s.fatal = false → exec i s = .next t →
    t.err = 0 ∨ ∃ e ∈ raisedErrors i, t.err = e.code

/-- No command alters an operand register other than `CAND`, nor a byte of `KEY`, `MOD` or `SRC`, nor the host side;
`CAND` is altered by VALIDATES only (10_state.md R22 to R27, R36; 20_memory.md R61, R73). -/
def Obligations.CommandsKeepOperands : Prop :=
  ∀ (w : Word) (s t : State), writeCmd w s = .next t →
    t.ctrLo = s.ctrLo ∧ t.ctrHi = s.ctrHi ∧ t.rlen = s.rlen ∧ t.keyLen = s.keyLen ∧ t.modLen = s.modLen
    ∧ t.srcLen = s.srcLen ∧ t.host = s.host ∧ t.cfg = s.cfg
    ∧ (decode w ≠ .ok .validates → t.cand = s.cand)
    ∧ (∀ a, 0x10000 ≤ a → a < 0x40000 → t.mem.read a = s.mem.read a)

/-- How often a command that ends asks the three ports (60_exceptions.md R233 to R235), by the model's counters (log
entry 12). -/
def Obligations.PortCalls : Prop :=
  ∀ (i : Instr) (s t : State), s.fatal = false → exec i s = .next t →
    t.ports.clockReads = s.ports.clockReads
      + (if t.err = 0 ∧ i ∈ [Instr.tstep, .totp, .validate, .validates] then 1 else 0)
    ∧ t.ports.rngReads = s.ports.rngReads + (if i = .genkey ∧ t.err ≠ 4 then 1 else 0)
    ∧ (if t.err = 0 ∧ i ∈ [Instr.compute, .totp] then t.ports.hmacCalls = s.ports.hmacCalls + 1
      else if t.err = 0 ∧ i ∈ [Instr.validate, .validates] then
        s.ports.hmacCalls + 1 ≤ t.ports.hmacCalls ∧ t.ports.hmacCalls ≤ s.ports.hmacCalls + 5
      else t.ports.hmacCalls = s.ports.hmacCalls)

/-- A write to `CMD` comes to a next state, or is refused for a byte of a buffer the command reads, at an index below the
length of that operand and so below the buffer's capacity, that nothing has written since reset (10_state.md R48; 93
U1). -/
def Obligations.CommandStops : Prop :=
  ∀ (w : Word) (s : State), (∃ t, writeCmd w s = .next t)
    ∨ ∃ i b n k, decode w = .ok i ∧ s.fatal = false ∧ (b, n) ∈ operandBuffers s i ∧ k < n ∧ n ≤ b.capacity s.cfg
        ∧ s.mem.read (b.base + k) = none ∧ writeCmd w s = .refused (.unwrittenByte (b.base + k))

/-- A command whose operand bytes the host has written runs to its end (70_reset_and_hazards.md R255, R264). -/
def Obligations.WrittenOperandsSuffice : Prop :=
  ∀ (w : Word) (s : State),
    (∀ i < 20, (s.mem.read (Buffer.mac.base + i)).isSome = true) →
    (∀ i < lenField s.keyLen, (s.mem.read (Buffer.key.base + i)).isSome = true) →
    (∀ i < lenField s.modLen, (s.mem.read (Buffer.mod.base + i)).isSome = true) →
    (∀ i < lenField s.srcLen, (s.mem.read (Buffer.src.base + i)).isSome = true) →
    ∃ t, writeCmd w s = .next t

/-- A command that would use a byte nothing has written since reset is refused (10_state.md R48, 93 U1): COMPUTE, TOTP
and VALIDATE for the secret or the modifier; B32ENC for its source; B32DEC for the byte at which its stripping of pads,
or its decoding, arrives; VALIDATES for the byte at which its parsing arrives and, the string parsed, for the secret or
the modifier. (TRUNC: `TruncResult`. That only bytes arrived at count is log entry 13.) -/
def Obligations.UnwrittenOperandRefused : Prop :=
  (∀ (c : Instr) (s : State) (i : Nat), c ∈ [Instr.compute, .totp, .validate] → s.fatal = false →
      ¬ KeyModTooLong s → s.keyValid = true → lenField s.modLen ≤ 65527 →
      (i < lenField s.keyLen ∧ s.mem.read (Buffer.key.base + i) = none
        ∨ i < lenField s.modLen ∧ s.mem.read (Buffer.mod.base + i) = none) →
      ∃ o, exec c s = .refused (.unwrittenByte o))
  ∧ (∀ (s : State) (i : Nat), s.fatal = false → lenField s.srcLen ≤ s.cfg.srcMax.toNat →
      encodedLength (lenField s.srcLen) ≤ s.cfg.dstMax.toNat → i < lenField s.srcLen →
      s.mem.read (Buffer.src.base + i) = none →
      ∃ o, exec .b32enc s = .refused (.unwrittenByte o))
  ∧ (∀ (s : State) (i : Nat), s.fatal = false → lenField s.srcLen ≤ s.cfg.srcMax.toNat → i < lenField s.srcLen →
      s.mem.read (Buffer.src.base + i) = none →
      (∀ j, i < j → j < lenField s.srcLen → s.mem.read (Buffer.src.base + j) = some 0x3D) →
      exec .b32dec s = .refused (.unwrittenByte (Buffer.src.base + i)))
  ∧ (∀ (s : State) (last : Nat) (c : Byte) (before : List Byte), s.fatal = false →
      lenField s.srcLen ≤ s.cfg.srcMax.toNat → last < lenField s.srcLen →
      s.mem.read (Buffer.src.base + last) = some c → c ≠ 0x3D →
      (∀ j, last < j → j < lenField s.srcLen → s.mem.read (Buffer.src.base + j) = some 0x3D) →
      5 * (last + 1) / 8 ≤ s.cfg.dstMax.toNat → before.length < last → Holds s .src before →
      (∀ x ∈ before, (symbolValue x).isSome = true) → s.mem.read (Buffer.src.base + before.length) = none →
      exec .b32dec s = .refused (.unwrittenByte (Buffer.src.base + before.length)))
  ∧ (∀ (s : State) (before : List Byte), s.fatal = false → lenField s.srcLen ≤ s.cfg.srcMax.toNat →
      ¬ KeyModTooLong s → s.keyValid = true → before.length < lenField s.srcLen → Holds s .src before →
      before.all isDigit = true → decimalValue before ≤ s.cfg.candMax.toNat →
      s.mem.read (Buffer.src.base + before.length) = none →
      exec .validates s = .refused (.unwrittenByte (Buffer.src.base + before.length)))
  ∧ (∀ (s : State) (text : List Byte) (i : Nat), s.fatal = false → lenField s.srcLen = text.length →
      Holds s .src text → text.length ≤ s.cfg.srcMax.toNat → validCandidate s.cfg.candMax.toNat text = true →
      ¬ KeyModTooLong s → s.keyValid = true → lenField s.modLen ≤ 65527 →
      (i < lenField s.keyLen ∧ s.mem.read (Buffer.key.base + i) = none
        ∨ i < lenField s.modLen ∧ s.mem.read (Buffer.mod.base + i) = none) →
      ∃ o, exec .validates s = .refused (.unwrittenByte o))

/-! ### Base32 -/

/-- R120, R121: the character of every 5-bit value, and the value of every character code. -/
def Obligations.Alphabet : Prop :=
  (∀ v : BitVec 5, some (b32Alpha v) = alphabet[v.toNat]?) ∧ b32Pad = 0x3D ∧ b32Pad ∉ alphabet
  ∧ (∀ c : Byte, (b32Val c).map BitVec.toNat =
      if 0x41 ≤ c.toNat ∧ c.toNat ≤ 0x5A then some (c.toNat - 0x41)
      else if 0x61 ≤ c.toNat ∧ c.toNat ≤ 0x7A then some (c.toNat - 0x61)
      else if 0x32 ≤ c.toNat ∧ c.toNat ≤ 0x37 then some (c.toNat - 0x32 + 26)
      else none)

/-- R122: B32ENC writes the text of `SRC`, its length and `STATUS`, and nothing else; or a capacity is exceeded
and only `STATUS` changes. -/
def Obligations.B32encResult : Prop :=
  decode 0x00000001 = .ok .b32enc
  ∧ (∀ (s : State) (src : List Byte), s.fatal = false → lenField s.srcLen = src.length → Holds s .src src →
    src.length ≤ s.cfg.srcMax.toNat → encodedLength src.length ≤ s.cfg.dstMax.toNat →
    ∃ t, exec .b32enc s = .next t ∧ t.status = 0x01 ∧ t.dstLen.toNat = encodedLength src.length
      ∧ (∀ i < encodedLength src.length, t.mem.read (Buffer.dst.base + i) = some (encodedChar src i))
      ∧ SameOutside s t Buffer.dst.base (encodedLength src.length)
      ∧ { t with status := s.status, dstLen := s.dstLen, mem := s.mem, epoch := s.epoch } = s)
  ∧ (∀ s : State, s.fatal = false →
      s.cfg.srcMax.toNat < lenField s.srcLen ∨ s.cfg.dstMax.toNat < encodedLength (lenField s.srcLen) →
      exec .b32enc s = .next { s with status := 0x41 })

/-- R130: B32DEC writes the bytes of the text in `SRC` (as the closed form R132 of the same function), their number and
`STATUS`, and nothing else; or a
capacity is exceeded, or a character before the trailing pads is not in the alphabet, and only `STATUS` changes. -/
def Obligations.B32decResult : Prop :=
  decode 0x00000002 = .ok .b32dec
  ∧ (∀ (s : State) (text : List Byte), s.fatal = false → lenField s.srcLen = text.length → Holds s .src text →
    text.length ≤ s.cfg.srcMax.toNat → 5 * strippedLength text / 8 ≤ s.cfg.dstMax.toNat →
    decodable text = true →
    ∃ t, exec .b32dec s = .next t ∧ t.status = 0x01 ∧ t.dstLen.toNat = 5 * strippedLength text / 8
      ∧ (∀ o < 5 * strippedLength text / 8, t.mem.read (Buffer.dst.base + o) = some (decodedByte text o))
      ∧ SameOutside s t Buffer.dst.base (5 * strippedLength text / 8)
      ∧ { t with status := s.status, dstLen := s.dstLen, mem := s.mem, epoch := s.epoch } = s)
  ∧ (∀ s : State, s.fatal = false → s.cfg.srcMax.toNat < lenField s.srcLen →
      exec .b32dec s = .next { s with status := 0x41 })
  ∧ (∀ (s : State) (text : List Byte), s.fatal = false → lenField s.srcLen = text.length → Holds s .src text →
      text.length ≤ s.cfg.srcMax.toNat → s.cfg.dstMax.toNat < 5 * strippedLength text / 8 →
      exec .b32dec s = .next { s with status := 0x41 })
  ∧ (∀ (s : State) (text : List Byte), s.fatal = false → lenField s.srcLen = text.length → Holds s .src text →
      text.length ≤ s.cfg.srcMax.toNat → 5 * strippedLength text / 8 ≤ s.cfg.dstMax.toNat →
      decodable text = false → exec .b32dec s = .next { s with status := 0x11 })

/-- B32ENC, the copy of its output to `SRC`, then B32DEC give back the byte sequence: what R136 derives from
R122, R123 and R130. -/
def Obligations.Base32RoundTrip : Prop :=
  ∀ (s : State) (b : List Byte), s.fatal = false → lenField s.srcLen = b.length → Holds s .src b →
    b.length ≤ s.cfg.srcMax.toNat → encodedLength b.length ≤ min s.cfg.dstMax.toNat s.cfg.srcMax.toNat →
    ∃ t, exec .b32enc s = .next t ∧ t.status = 0x01 ∧
      ∀ u : State, u.fatal = false → u.cfg = s.cfg → lenField u.srcLen = lenField t.dstLen →
        (∀ i < lenField t.dstLen, u.mem.read (Buffer.src.base + i) = t.mem.read (Buffer.dst.base + i)) →
        ∃ v, exec .b32dec u = .next v ∧ v.status = 0x01 ∧ lenField v.dstLen = b.length ∧ Holds v .dst b

/-- What R137 derives from 20_memory.md R61: what B32ENC and B32DEC leave in `STATUS`, `DST_LEN` and `DST` depends on
`SRC[0..n)` and `n` alone (given the capacities and that the block is not locked). -/
def Obligations.Base32DependsOnSource : Prop :=
  ∀ (c : Instr) (s s' t : State), c ∈ [Instr.b32enc, .b32dec] → s.fatal = false → s'.fatal = false →
    s'.cfg = s.cfg → lenField s'.srcLen = lenField s.srcLen →
    (∀ i < lenField s.srcLen, s'.mem.read (Buffer.src.base + i) = s.mem.read (Buffer.src.base + i)) →
    exec c s = .next t →
    ∃ t', exec c s' = .next t' ∧ t'.status = t.status
      ∧ (t.err = 0 → t'.dstLen = t.dstLen ∧ ∀ i < lenField t.dstLen,
          t'.mem.read (Buffer.dst.base + i) = t.mem.read (Buffer.dst.base + i))

/-- What B32ENC, B32DEC and GENKEY leave unchanged: every register but `STATUS` and `DST_LEN`, the host side, the ports
but for the draw of GENKEY, and every byte outside the `DST_LEN` bytes from the start of `DST`. -/
def Obligations.FrameDstCommands : Prop :=
  ∀ (c : Instr) (s t : State), c ∈ [Instr.b32enc, .b32dec, .genkey] → exec c s = .next t →
    { t with status := s.status, dstLen := s.dstLen, mem := s.mem, epoch := s.epoch, ports := s.ports } = s
    ∧ (c ≠ .genkey → t.ports = s.ports)
    ∧ SameOutside s t Buffer.dst.base (lenField t.dstLen)

/-! ### Truncation, codes and random bytes -/

/-- R150, R151: TRUNC writes the three results of the digest in `MAC` and `STATUS`, and nothing else; it is ignored
under the fatal lock, and refused where a byte of `MAC` has not been written. -/
def Obligations.TruncResult : Prop :=
  decode 0x00000011 = .ok .trunc
  ∧ (∀ (s : State) (mac : Digest), s.fatal = false → Holds s .mac mac.toList →
    exec .trunc s = .next { s with
      status := 0x01
      offset := BitVec.ofNat 32 (offsetOf mac)
      bincode := BitVec.ofNat 32 (binaryCodeOf mac)
      code := BitVec.ofNat 32 (codeOf mac) })
  ∧ (∀ s : State, s.fatal = true → exec .trunc s = .next s)
  ∧ (∀ (s : State) (i : Nat), s.fatal = false → i < 20 → s.mem.read (Buffer.mac.base + i) = none →
      ∃ o, exec .trunc s = .refused (.unwrittenByte o))

/-- The ranges and corner cases of `Truncate` (41_otp_code.md R152 (a) to (f)). -/
def Obligations.TruncateRanges : Prop :=
  (∀ mac : Digest, (truncOffset mac).toNat ≤ 15 ∧ (truncBincode mac).toNat ≤ 2147483647
    ∧ (truncCode mac).toNat ≤ 999999)
  ∧ (truncOffset (Vector.replicate 20 0x00) = 0 ∧ truncBincode (Vector.replicate 20 0x00) = 0
    ∧ truncCode (Vector.replicate 20 0x00) = 0)
  ∧ (truncOffset (Vector.replicate 20 0xFF) = 15 ∧ truncBincode (Vector.replicate 20 0xFF) = 0x7FFFFFFF
    ∧ truncCode (Vector.replicate 20 0xFF) = 483647)
  ∧ (∀ (mac : Digest) (b : Byte), b.toNat % 16 = mac[19].toNat % 16 →
      truncBincode (mac.set 19 b) = truncBincode mac)
  ∧ (∀ (mac : Digest) (h : (truncOffset mac).toNat < 20) (b : Byte),
      b.toNat % 128 = mac[(truncOffset mac).toNat].toNat % 128 →
      truncBincode (mac.set (truncOffset mac).toNat b) = truncBincode mac)

/-- What TRUNC leaves unchanged: every register but `STATUS`, `OFFSET`, `BINCODE` and `CODE`, and all of memory. -/
def Obligations.FrameTrunc : Prop :=
  ∀ s t : State, exec .trunc s = .next t →
    { t with status := s.status, offset := s.offset, bincode := s.bincode, code := s.code } = s
    ∧ ∀ a, t.mem.read a = s.mem.read a

/-- R155, R156: COMPUTE writes the digest of the counter's eight bytes and the modifier under the secret to `MAC`, its
truncation to the result registers and `STATUS`, and nothing else; its errors come in the order of R155. -/
def Obligations.ComputeResult : Prop :=
  decode 0x00000012 = .ok .compute
  ∧ (∀ (s : State) (key modifier : List Byte), s.fatal = false → SecretReady s key modifier →
    ∃ t, exec .compute s = .next t ∧ t.status = 0x01
      ∧ Holds t .mac (digestFor s.ports key s.ctr.toNat modifier).toList
      ∧ HoldsTruncation t (digestFor s.ports key s.ctr.toNat modifier)
      ∧ t.ports = { s.ports with hmacCalls := s.ports.hmacCalls + 1 }
      ∧ SameOutside s t Buffer.mac.base 20
      ∧ { t with status := s.status, offset := s.offset, bincode := s.bincode, code := s.code, mem := s.mem,
                 ports := s.ports } = s)
  ∧ SecretErrors .compute

/-- R157: with the capacities respected and a secret present, COMPUTE, TOTP and VALIDATE, and VALIDATES on a valid
candidate, end with `OverflowError` exactly when `8 + MOD_LEN.LEN` exceeds 65535; a modifier buffer of at most 65527
bytes rules it out. -/
def Obligations.OverflowExactly : Prop :=
  (∀ (c : Instr) (s : State), c ∈ [Instr.compute, .totp, .validate] → s.fatal = false → ¬ KeyModTooLong s →
    s.keyValid = true → 65535 < 8 + lenField s.modLen → exec c s = .next { s with status := 0x31 })
  ∧ (∀ (s : State) (text : List Byte), s.fatal = false → lenField s.srcLen = text.length → Holds s .src text →
      text.length ≤ s.cfg.srcMax.toNat → validCandidate s.cfg.candMax.toNat text = true → ¬ KeyModTooLong s →
      s.keyValid = true → 65535 < 8 + lenField s.modLen → exec .validates s = .next { s with status := 0x31 })
  ∧ (∀ (w : Word) (s t : State), s.fatal = false → writeCmd w s = .next t → t.err = 3 →
      65535 < 8 + lenField s.modLen ∧ 65527 < s.cfg.modMax.toNat)

/-- COMPUTE's results depend on the secret, the counter and the modifier alone, for every `HMAC_SHA1` (41_otp_code.md
R158 (d)). -/
def Obligations.ComputeDeterministic : Prop :=
  ∀ s s' t : State, s.fatal = false → s'.fatal = false → s'.cfg = s.cfg → s'.keyLen = s.keyLen →
    s'.modLen = s.modLen → s'.ctr = s.ctr → s'.ports.hmacAnswers = s.ports.hmacAnswers →
    (∀ i < lenField s.keyLen, s'.mem.read (Buffer.key.base + i) = s.mem.read (Buffer.key.base + i)) →
    (∀ i < lenField s.modLen, s'.mem.read (Buffer.mod.base + i) = s.mem.read (Buffer.mod.base + i)) →
    exec .compute s = .next t →
    ∃ t', exec .compute s' = .next t' ∧ t'.status = t.status
      ∧ (t.err = 0 → t'.offset = t.offset ∧ t'.bincode = t.bincode ∧ t'.code = t.code
          ∧ ∀ i < 20, t'.mem.read (Buffer.mac.base + i) = t.mem.read (Buffer.mac.base + i))

/-- What COMPUTE and TOTP leave unchanged: every register but `STATUS`, `OFFSET`, `BINCODE`, `CODE` and, for TOTP, `TS`,
the host side, and every byte outside `MAC`. -/
def Obligations.FrameCodeCommands : Prop :=
  ∀ (c : Instr) (s t : State), c ∈ [Instr.compute, .totp] → exec c s = .next t →
    { t with status := s.status, offset := s.offset, bincode := s.bincode, code := s.code, tsLo := s.tsLo,
             tsHi := s.tsHi, mem := s.mem, ports := s.ports } = s
    ∧ (c = .compute → t.tsLo = s.tsLo ∧ t.tsHi = s.tsHi)
    ∧ SameOutside s t Buffer.mac.base 20

/-- R160: GENKEY writes exactly `RLEN.LEN` bytes, those of the port's answer, their number and `STATUS`; an unavailable
source sets the lock; a length above `DST_MAX` is a `CapacityError` before the port is asked. -/
def Obligations.GenkeyResult : Prop :=
  decode 0x00000010 = .ok .genkey
  ∧ (∀ (s : State) (r : List Byte), s.fatal = false → lenField s.rlen ≤ s.cfg.dstMax.toNat →
    s.ports.rngNow (lenField s.rlen) = some r →
    r.length = lenField s.rlen
    ∧ ∃ t, exec .genkey s = .next t ∧ t.status = 0x01 ∧ t.dstLen.toNat = lenField s.rlen ∧ Holds t .dst r
      ∧ t.ports = s.ports.afterRng ∧ SameOutside s t Buffer.dst.base (lenField s.rlen)
      ∧ { t with status := s.status, dstLen := s.dstLen, mem := s.mem, epoch := s.epoch, ports := s.ports } = s)
  ∧ (∀ s : State, s.fatal = false → lenField s.rlen ≤ s.cfg.dstMax.toNat → s.ports.rngNow (lenField s.rlen) = none →
      exec .genkey s = .next { s with status := 0x55, ports := s.ports.afterRng }
      ∧ ∀ w, writeCmd w { s with status := 0x55, ports := s.ports.afterRng }
          = .next { s with status := 0x55, ports := s.ports.afterRng })
  ∧ (∀ s : State, s.fatal = false → s.cfg.dstMax.toNat < lenField s.rlen →
      exec .genkey s = .next { s with status := 0x41 })

/-! ### Time step and window -/

/-- R180: TSTEP draws the clock once and writes the time step to `TS`, and `STATUS`, and nothing else. -/
def Obligations.TstepResult : Prop :=
  decode 0x00000013 = .ok .tstep ∧ ∀ s : State, s.fatal = false →
    exec .tstep s = .next { s with
      status := 0x01
      tsLo := BitVec.ofNat 32 (stepNow s)
      tsHi := BitVec.ofNat 32 (stepNow s / 2 ^ 32)
      ports := s.ports.afterClock }

/-- R181 and R182 as laws of the time step: the quotient by 30, its bound, equal within a 30-second window,
non-decreasing. -/
def Obligations.TimeStepLaws : Prop :=
  (∀ x : DWord, (timeStep x).toNat = x.toNat / 30 ∧ (timeStep x).toNat ≤ 614891469123651720)
  ∧ (∀ (x y : DWord) (k : Nat), 30 * k ≤ x.toNat → x.toNat ≤ 30 * k + 29 → 30 * k ≤ y.toNat →
      y.toNat ≤ 30 * k + 29 → timeStep x = timeStep y)
  ∧ (∀ x y : DWord, x.toNat ≤ y.toNat → (timeStep x).toNat ≤ (timeStep y).toNat)

/-- R183: TOTP writes the code of the clock's time step as COMPUTE would, and `TS`; its errors come before the clock is
read. -/
def Obligations.TotpResult : Prop :=
  decode 0x00000014 = .ok .totp
  ∧ (∀ (s : State) (key modifier : List Byte), s.fatal = false → SecretReady s key modifier →
    ∃ t, exec .totp s = .next t ∧ t.status = 0x01 ∧ t.ts.toNat = stepNow s
      ∧ Holds t .mac (digestFor s.ports key (stepNow s) modifier).toList
      ∧ HoldsTruncation t (digestFor s.ports key (stepNow s) modifier)
      ∧ t.ports = { s.ports.afterClock with hmacCalls := s.ports.hmacCalls + 1 }
      ∧ SameOutside s t Buffer.mac.base 20
      ∧ { t with status := s.status, offset := s.offset, bincode := s.bincode, code := s.code, tsLo := s.tsLo,
                 tsHi := s.tsHi, mem := s.mem, ports := s.ports } = s)
  ∧ SecretErrors .totp

/-- What R184 derives from R155, R180 and R183: TOTP leaves what TSTEP, then `CTR` set to `TS`, then COMPUTE leave on the
same clock answer, but for `CTR`. -/
def Obligations.TotpIsTstepCompute : Prop :=
  ∀ (s : State) (key modifier : List Byte), s.fatal = false → SecretReady s key modifier →
    ∃ a b c, exec .tstep s = .next a ∧ exec .compute { a with ctrLo := a.tsLo, ctrHi := a.tsHi } = .next b
      ∧ exec .totp s = .next c
      ∧ c.tsLo = b.tsLo ∧ c.tsHi = b.tsHi ∧ c.offset = b.offset ∧ c.bincode = b.bincode ∧ c.code = b.code
      ∧ (∀ i < 20, c.mem.read (Buffer.mac.base + i) = b.mem.read (Buffer.mac.base + i))
      ∧ c.ctrLo = s.ctrLo ∧ c.ctrHi = s.ctrHi

/-- R190: VALIDATE sets `MATCH` exactly when the candidate equals the code of one of the five counters around the
clock's time step, writes `TS` and nothing else; its errors come before the clock is read. -/
def Obligations.ValidateResult : Prop :=
  decode 0x00000015 = .ok .validate
  ∧ (∀ (s : State) (key modifier : List Byte), s.fatal = false → SecretReady s key modifier →
    ∃ t, exec .validate s = .next t
      ∧ (Matches s.ports key modifier (stepNow s) s.cand.toNat → t.status = 0x03)
      ∧ (¬ Matches s.ports key modifier (stepNow s) s.cand.toNat → t.status = 0x01)
      ∧ t.ts.toNat = stepNow s
      ∧ t.ports = { s.ports.afterClock with
          hmacCalls := s.ports.hmacCalls + tries s.ports key modifier (stepNow s) s.cand.toNat }
      ∧ { t with status := s.status, tsLo := s.tsLo, tsHi := s.tsHi, ports := s.ports } = s)
  ∧ SecretErrors .validate

/-- The half of R194 that is a law: the code of a step at most two away from the clock's time step matches. -/
def Obligations.WindowAccepts : Prop :=
  ∀ (s : State) (key modifier : List Byte) (S : Nat), s.fatal = false → SecretReady s key modifier → S < 2 ^ 64 →
    stepNow s ≤ S + 2 → S ≤ stepNow s + 2 → s.cand.toNat = codeFor s.ports key S modifier →
    ∃ t, exec .validate s = .next t ∧ t.status = 0x03

/-- The acceptance span in seconds: the code of step `S` is accepted at every clock value from `30 (S - 2)` to
`30 (S + 2) + 29` (42_totp_window.md R191). -/
def Obligations.AcceptanceSpan : Prop :=
  ∀ (s : State) (key modifier : List Byte) (S : Nat), s.fatal = false → SecretReady s key modifier → S < 2 ^ 64 →
    30 * (S - 2) ≤ s.ports.clockNow.toNat → s.ports.clockNow.toNat ≤ 30 * (S + 2) + 29 →
    s.cand.toNat = codeFor s.ports key S modifier →
    ∃ t, exec .validate s = .next t ∧ t.matched = true ∧ t.err = 0

/-- A candidate of 1000000 or more matches no step and is no error (R193). -/
def Obligations.LargeCandidate : Prop :=
  ∀ (s : State) (key modifier : List Byte), s.fatal = false → SecretReady s key modifier → 1000000 ≤ s.cand.toNat →
    ∃ t, exec .validate s = .next t ∧ t.status = 0x01

/-- R195, R196: VALIDATES parses the digit string in `SRC`, then does as VALIDATE with its value, which it writes to
`CAND`; its errors in their order, each before the clock is read. -/
def Obligations.ValidatesResult : Prop :=
  decode 0x00000016 = .ok .validates
  ∧ (∀ (s : State) (key modifier text : List Byte), s.fatal = false → SecretReady s key modifier →
    lenField s.srcLen = text.length → Holds s .src text → text.length ≤ s.cfg.srcMax.toNat →
    validCandidate s.cfg.candMax.toNat text = true →
    ∃ t, exec .validates s = .next t
      ∧ (Matches s.ports key modifier (stepNow s) (decimalValue text) → t.status = 0x03)
      ∧ (¬ Matches s.ports key modifier (stepNow s) (decimalValue text) → t.status = 0x01)
      ∧ t.cand.toNat = decimalValue text ∧ t.ts.toNat = stepNow s
      ∧ t.ports = { s.ports.afterClock with
          hmacCalls := s.ports.hmacCalls + tries s.ports key modifier (stepNow s) (decimalValue text) }
      ∧ { t with status := s.status, cand := s.cand, tsLo := s.tsLo, tsHi := s.tsHi, ports := s.ports } = s)
  ∧ (∀ s : State, s.fatal = false → s.cfg.srcMax.toNat < lenField s.srcLen ∨ KeyModTooLong s →
      exec .validates s = .next { s with status := 0x41 })
  ∧ (∀ s : State, s.fatal = false → lenField s.srcLen ≤ s.cfg.srcMax.toNat → ¬ KeyModTooLong s →
      s.keyValid = false → exec .validates s = .next { s with status := 0x21 })
  ∧ (∀ (s : State) (text : List Byte), s.fatal = false → lenField s.srcLen = text.length → Holds s .src text →
      text.length ≤ s.cfg.srcMax.toNat → ¬ KeyModTooLong s → s.keyValid = true →
      validCandidate s.cfg.candMax.toNat text = false → exec .validates s = .next { s with status := 0x11 })
  ∧ (∀ (s : State) (text : List Byte), s.fatal = false → lenField s.srcLen = text.length → Holds s .src text →
      text.length ≤ s.cfg.srcMax.toNat → ¬ KeyModTooLong s → s.keyValid = true →
      validCandidate s.cfg.candMax.toNat text = true → 65527 < lenField s.modLen →
      exec .validates s = .next { s with status := 0x31 })

/-- What TSTEP, VALIDATE and VALIDATES leave unchanged: every register but `STATUS`, `TS` and, for VALIDATES, `CAND`,
the host side, and all of memory; no code is left readable (42_totp_window.md R192). -/
def Obligations.FrameWindowCommands : Prop :=
  ∀ (c : Instr) (s t : State), c ∈ [Instr.tstep, .validate, .validates] → exec c s = .next t →
    { t with status := s.status, cand := s.cand, tsLo := s.tsLo, tsHi := s.tsHi, ports := s.ports } = s
    ∧ (c ≠ .validates → t.cand = s.cand)
    ∧ ∀ a, t.mem.read a = s.mem.read a

/-! ### Host accesses and reset -/

/-- The address map (20_memory.md R70): each register and each buffer byte below its capacity stands at its address,
and nowhere else (10_state.md R21: no register aliases another). -/
def Obligations.AddressMap : Prop :=
  (∀ (p : Params) (r : Reg), locate p (p.base + regOffset r) = .reg r)
  ∧ (∀ (p : Params) (b : Buffer) (i : Nat), i < b.capacity p → locate p (p.base + (b.base + i)) = .byte b i)
  ∧ (∀ (p : Params) (a : Nat) (r : Reg), locate p a = .reg r → a = p.base + regOffset r)
  ∧ (∀ (p : Params) (a : Nat) (b : Buffer) (i : Nat), locate p a = .byte b i →
      i < b.capacity p ∧ a = p.base + (b.base + i))

/-- Host accesses that stop (20_memory.md R66, R67, R71; 93 U2, U3): each is refused, of the wrong width or alignment
under one name, unmapped under another (the names, and that an address below `BASE` counts as unmapped, are log
entry 8). -/
def Obligations.BadAccessStops : Prop :=
  (∀ (s : State) (r : Reg) (w : Width) (d : DWord), w ≠ .w32 →
    hostRead s w (s.cfg.base + regOffset r) = .refused (.wrongWidth (s.cfg.base + regOffset r))
    ∧ hostWrite s w (s.cfg.base + regOffset r) d = .refused (.wrongWidth (s.cfg.base + regOffset r)))
  ∧ (∀ (s : State) (o : Nat) (w : Width) (d : DWord), o < 0x40 → o % 4 ≠ 0 →
      hostRead s w (s.cfg.base + o) = .refused (.wrongWidth (s.cfg.base + o))
      ∧ hostWrite s w (s.cfg.base + o) d = .refused (.wrongWidth (s.cfg.base + o)))
  ∧ (∀ (s : State) (b : Buffer) (i : Nat) (w : Width) (d : DWord), i < b.capacity s.cfg → w ≠ .w8 →
      hostRead s w (s.cfg.base + (b.base + i)) = .refused (.wrongWidth (s.cfg.base + (b.base + i)))
      ∧ hostWrite s w (s.cfg.base + (b.base + i)) d = .refused (.wrongWidth (s.cfg.base + (b.base + i))))
  ∧ (∀ (s : State) (o : Nat) (w : Width) (d : DWord),
      0x54 ≤ o ∧ o < 0x10000 ∨ 0x50000 ≤ o
        ∨ (∃ (b : Buffer) (i : Nat), b ≠ .mac ∧ o = b.base + i ∧ b.capacity s.cfg ≤ i ∧ i < 0x10000) →
      hostRead s w (s.cfg.base + o) = .refused (.unmapped (s.cfg.base + o))
      ∧ hostWrite s w (s.cfg.base + o) d = .refused (.unmapped (s.cfg.base + o)))
  ∧ (∀ (s : State) (a : Nat) (w : Width) (d : DWord), a < s.cfg.base →
      hostRead s w a = .refused (.unmapped a) ∧ hostWrite s w a d = .refused (.unmapped a))

/-- A 32-bit write to a register other than `CMD` (20_memory.md R69, R70; 10_state.md R21): read back, a register with
no zero bits gives the value, a length register its `LEN` (and `VALID`), a read-only one what it held; every other
register and all of memory stay. -/
def Obligations.RegisterWrite : Prop :=
  ∀ (s : State) (r : Reg) (d : DWord), r ≠ .cmd →
    ∃ t, hostWrite s .w32 (s.cfg.base + regOffset r) d = .next t
      ∧ (r ∈ [Reg.ctrLo, .ctrHi, .cand] → hostReadReg t r = d.setWidth 32)
      ∧ (r ∈ [Reg.rlen, .modLen, .srcLen] → (hostReadReg t r).toNat = d.toNat % 2 ^ 16)
      ∧ (r = .keyLen → lenField t.keyLen = d.toNat % 2 ^ 16 ∧ t.keyValid = d.getLsbD 31
          ∧ t.keyLen &&& 0x7FFF0000 = 0)
      ∧ (r ∈ [Reg.status, .dstLen, .code, .bincode, .offset, .tsLo, .tsHi, .reserved] → t = s)
      ∧ (∀ q, q ≠ r → hostReadReg t q = hostReadReg s q)
      ∧ t.mem = s.mem ∧ t.ports = s.ports ∧ t.host = s.host ∧ t.cfg = s.cfg ∧ t.epoch = s.epoch

/-- An 8-bit write to a byte of `KEY`, `MOD`, `SRC` or `MAC` is read back and changes no other byte and no register; to
a byte of `DST` it is ignored (20_memory.md R69, R75; 10_state.md R35). -/
def Obligations.ByteWrite : Prop :=
  ∀ (s : State) (b : Buffer) (i : Nat) (d : DWord), i < b.capacity s.cfg →
    ∃ t, hostWrite s .w8 (s.cfg.base + (b.base + i)) d = .next t
      ∧ (b ≠ .dst → hostRead t .w8 (s.cfg.base + (b.base + i)) = .next (t.setReadData (.byte (d.setWidth 8))))
      ∧ (b = .dst → t = s)
      ∧ SameOutside s t (b.base + i) 1
      ∧ { t with mem := s.mem } = s

/-- Every read is free of side effects: a host read changes nothing but what was read (20_memory.md R69), and a read of
`CMD` or of offset 0x3C gives 0 (R32, R70). -/
def Obligations.ReadsChangeNothing : Prop :=
  (∀ (s t : State) (w : Width) (a : Nat), hostRead s w a = .next t →
    { t with host := s.host } = s ∧ t.host.pending = s.host.pending ∧ t.host.resetAsserted = s.host.resetAsserted)
  ∧ (∀ s : State, hostRead s .w32 (s.cfg.base + 0x00) = .next (s.setReadData (.word 0))
      ∧ hostRead s .w32 (s.cfg.base + 0x3C) = .next (s.setReadData (.word 0)))

/-- What a 32-bit host read of each register returns, locked or not: the register's value, and 0 for `CMD` and offset
0x3C (20_memory.md R69, R70, R75; 10_state.md R32); the offsets are those of R70 written out. -/
def Obligations.RegisterRead : Prop :=
  (∀ (s : State) (r : Reg),
    hostRead s .w32 (s.cfg.base + regOffset r) = .next (s.setReadData (.word (hostReadReg s r))))
  ∧ (∀ s : State, ∀ rv ∈ [(0x00, (0 : Word)), (0x04, s.status), (0x08, s.ctrLo), (0x0C, s.ctrHi), (0x10, s.cand),
        (0x14, s.rlen), (0x18, s.keyLen), (0x1C, s.modLen), (0x20, s.srcLen), (0x24, s.dstLen), (0x28, s.code),
        (0x2C, s.bincode), (0x30, s.offset), (0x34, s.tsLo), (0x38, s.tsHi), (0x3C, 0)],
      hostRead s .w32 (s.cfg.base + rv.1) = .next (s.setReadData (.word rv.2)))

/-- What the host reads of a result: a byte of `DST` below `DST_LEN`, or a written byte of another buffer, as it
stands (20_memory.md R75, 10_state.md R39). -/
def Obligations.ByteRead : Prop :=
  ∀ (s : State) (b : Buffer) (i : Nat) (v : Byte), i < b.capacity s.cfg → s.mem.read (b.base + i) = some v →
    (b = .dst → i < lenField s.dstLen) →
    hostRead s .w8 (s.cfg.base + (b.base + i)) = .next (s.setReadData (.byte v))

/-- R47: the registers after reset. -/
def Obligations.ResetValues : Prop :=
  State.reset.status = 0 ∧ State.reset.ctrLo = 0 ∧ State.reset.ctrHi = 0 ∧ State.reset.cand = 0
  ∧ State.reset.rlen = 10 ∧ State.reset.keyLen = 0 ∧ State.reset.modLen = 0 ∧ State.reset.srcLen = 0
  ∧ State.reset.dstLen = 0 ∧ State.reset.code = 0 ∧ State.reset.bincode = 0 ∧ State.reset.offset = 0
  ∧ State.reset.tsLo = 0 ∧ State.reset.tsHi = 0 ∧ ∀ a, State.reset.mem.read a = none

/-- The reset input (70_reset_and_hazards.md R250): a host access while it is asserted has no meaning; released, it
leaves the registers of R47 and no written byte, the parameters and the ports as they were. -/
def Obligations.ResetInput : Prop :=
  (∀ (s : State) (w : Width) (a : Nat) (d : DWord), s.host.resetAsserted = true →
    performEvent s (.read w a) = .refused .accessInReset
    ∧ performEvent s (.write w a d) = .refused .accessInReset)
  ∧ (∀ (s : State) (rest : List BusEvent), s.host.resetAsserted = true →
      s.host.pending = .resetInput false :: rest →
      ∃ t, step s = .next t ∧ t.host.resetAsserted = false ∧ t.host.pending = rest
        ∧ (∀ r, hostReadReg t r = hostReadReg State.reset r) ∧ (∀ a, t.mem.read a = none)
        ∧ t.cfg = s.cfg ∧ t.ports = s.ports)
  ∧ (∀ (s : State) (rest : List BusEvent), s.host.pending = .resetInput true :: rest →
      ∃ t, step s = .next t ∧ t.host.resetAsserted = true)

/-- What R252 derives from R47, R48 and the command rules: what can be run straight after reset, whatever the ports
answer and whatever the parameters are (the defaults of log entry 1 are one case); GENKEY needs a `DST` of ten bytes, and
below that raises `CapacityError`. -/
def Obligations.StraightAfterReset : Prop :=
  ∀ (p : Ports) (c : Params) (s : State), s = { State.reset with ports := p, cfg := c } →
    (∃ t, exec .tstep s = .next t ∧ t.status = 0x01)
    ∧ (10 ≤ c.dstMax.toNat →
        ∃ t, exec .genkey s = .next t ∧ (t.status = 0x01 ∧ t.dstLen = 10 ∨ t.status = 0x55))
    ∧ (c.dstMax.toNat < 10 → exec .genkey s = .next { s with status := 0x41 })
    ∧ (∃ t, exec .b32enc s = .next t ∧ t.status = 0x01 ∧ t.dstLen = 0)
    ∧ (∃ t, exec .b32dec s = .next t ∧ t.status = 0x01 ∧ t.dstLen = 0)
    ∧ exec .compute s = .next { s with status := 0x21 } ∧ exec .totp s = .next { s with status := 0x21 }
    ∧ exec .validate s = .next { s with status := 0x21 } ∧ exec .validates s = .next { s with status := 0x21 }
    ∧ exec .trunc s = .refused (.unwrittenByte Buffer.mac.base)
end

