-- ==== Sys2Proof/Laws/Memory.lean ====
section
/-!
SUPPORT. The laws of buffer memory: a read after a write, what a write leaves alone, the canonical form, and what
reading a byte sequence can answer.
-/
namespace Sys2Proof.Machine

@[simp] theorem Memory.read_nil (a : Nat) : Memory.read [] a = none := rfl

theorem Memory.read_write (m : Memory) (a : Nat) (b : Byte) (c : Nat) :
    (m.write a b).read c = if c = a then some b else m.read c := by
  induction m with
  | nil => simp only [Memory.write, Memory.read, eq_comm]
  | cons kv m ih =>
    obtain ⟨k, v⟩ := kv
    by_cases h1 : a < k
    · simp only [Memory.write, h1, if_true, Memory.read, eq_comm]
    · by_cases h2 : a = k
      · subst h2
        simp only [Memory.write, Nat.lt_irrefl, if_false, if_true, Memory.read, eq_comm]
        split <;> rfl
      · simp only [Memory.write, h1, h2, if_false, Memory.read, ih]
        by_cases h3 : k = c
        · have : c ≠ a := by omega
          simp [h3, this]
        · simp [h3]

@[simp] theorem Memory.read_write_self (m : Memory) (a : Nat) (b : Byte) : (m.write a b).read a = some b := by
  simp [Memory.read_write]

theorem Memory.read_write_of_ne (m : Memory) {a c : Nat} (b : Byte) (h : c ≠ a) :
    (m.write a b).read c = m.read c := by
  simp [Memory.read_write, h]

/-- Storing a byte sequence changes exactly its own bytes. -/
theorem Memory.read_writeBytes (l : List Byte) (m : Memory) (a c : Nat) :
    (m.writeBytes a l).read c = if a ≤ c ∧ c < a + l.length then l[c - a]? else m.read c := by
  induction l generalizing m a with
  | nil =>
    have : ¬ (a ≤ c ∧ c < a + ([] : List Byte).length) := by simp only [List.length_nil]; omega
    rw [if_neg this, Memory.writeBytes]
  | cons b l ih =>
    rw [Memory.writeBytes, ih, Memory.read_write, List.length_cons]
    by_cases hc : c = a
    · subst hc
      have h1 : ¬ (c + 1 ≤ c ∧ c < c + 1 + l.length) := by omega
      have h2 : c ≤ c ∧ c < c + (l.length + 1) := by omega
      rw [if_neg h1, if_pos rfl, if_pos h2, Nat.sub_self, List.getElem?_cons_zero]
    · by_cases hin : a + 1 ≤ c ∧ c < a + 1 + l.length
      · have h2 : a ≤ c ∧ c < a + (l.length + 1) := by omega
        have h3 : c - a = (c - (a + 1)) + 1 := by omega
        rw [if_pos hin, if_pos h2, h3, List.getElem?_cons_succ]
      · have h2 : ¬ (a ≤ c ∧ c < a + (l.length + 1)) := by omega
        rw [if_neg hin, if_neg hc, if_neg h2]

theorem Memory.read_writeBytes_outside (m : Memory) (l : List Byte) {a c : Nat}
    (h : ¬ (a ≤ c ∧ c < a + l.length)) : (m.writeBytes a l).read c = m.read c := by
  rw [Memory.read_writeBytes, if_neg h]

theorem Memory.read_writeBytes_at (m : Memory) (a : Nat) (l : List Byte) {i : Nat} (h : i < l.length) :
    (m.writeBytes a l).read (a + i) = some l[i] := by
  have : a ≤ a + i ∧ a + i < a + l.length := by omega
  rw [Memory.read_writeBytes, if_pos this, Nat.add_sub_cancel_left, List.getElem?_eq_getElem h]

/-- The cells after a write are the written one and cells that were there. -/
theorem Memory.mem_write {m : Memory} {a : Nat} {b : Byte} {c : Host.Cell} (h : c ∈ m.write a b) :
    c = (a, b) ∨ c ∈ m := by
  induction m with
  | nil => simpa [Memory.write] using h
  | cons kv m ih =>
    obtain ⟨k, v⟩ := kv
    unfold Memory.write at h
    split at h
    · simpa using h
    · split at h
      · rcases List.mem_cons.1 h with h | h
        · exact .inl h
        · exact .inr (List.mem_cons_of_mem _ h)
      · rcases List.mem_cons.1 h with h | h
        · exact .inr (h ▸ List.mem_cons_self)
        · exact (ih h).imp_right (List.mem_cons_of_mem _)

/-- The offsets listed after storing a byte sequence are its own and those listed before. -/
theorem Memory.mem_writeBytes {l : List Byte} {m : Memory} {a : Nat} {c : Host.Cell}
    (h : c ∈ m.writeBytes a l) : (a ≤ c.1 ∧ c.1 < a + l.length) ∨ c ∈ m := by
  induction l generalizing m a with
  | nil => exact .inr h
  | cons b l ih =>
    rw [List.length_cons]
    rcases ih h with h | h
    · exact .inl (by omega)
    · rcases Memory.mem_write h with h | h
      · exact .inl (by subst h; simp)
      · exact .inr h

/-- A write keeps the canonical form. -/
theorem Memory.wf_write {m : Memory} (h : m.wf) (a : Nat) (b : Byte) : (m.write a b).wf := by
  induction m with
  | nil => simp [Memory.write, Memory.wf]
  | cons kv m ih =>
    obtain ⟨k, v⟩ := kv
    have hall := (List.pairwise_cons.1 h).1
    have htl := (List.pairwise_cons.1 h).2
    unfold Memory.write
    split
    · next hlt =>
      refine List.pairwise_cons.2 ⟨fun y hy => ?_, h⟩
      rcases List.mem_cons.1 hy with rfl | hy
      · exact hlt
      · exact Nat.lt_trans hlt (hall y hy)
    · split
      · next heq => subst heq; exact List.pairwise_cons.2 ⟨hall, htl⟩
      · next hlt hne =>
        refine List.pairwise_cons.2 ⟨fun y hy => ?_, ih htl⟩
        rcases Memory.mem_write hy with rfl | hy
        · show k < a
          omega
        · exact hall y hy

/-- Storing a byte sequence keeps the canonical form. -/
theorem Memory.wf_writeBytes {m : Memory} (h : m.wf) (a : Nat) (l : List Byte) : (m.writeBytes a l).wf := by
  induction l generalizing m a with
  | nil => exact h
  | cons b l ih => exact ih (Memory.wf_write h a b) (a + 1)

/-- The memory after reset is in canonical form. -/
theorem State.reset_mem_wf : State.reset.mem.wf := by decide

/-! ### Reading inside a command -/

theorem readByte_ok_iff {m : Memory} {a : Nat} {b : Byte} : readByte m a = .ok b ↔ m.read a = some b := by
  unfold readByte
  cases m.read a <;> simp

theorem readByte_error {m : Memory} {a : Nat} {e : Stop} (h : readByte m a = .error e) :
    e = .unwritten a ∧ m.read a = none := by
  unfold readByte at h
  cases hm : m.read a <;> simp_all

/-- What reading a byte sequence answers, when it answers. -/
theorem readBytes_ok_iff {m : Memory} {a n : Nat} {v : Vector Byte n} :
    readBytes m a n = .ok v ↔ ∀ i, (h : i < n) → m.read (a + i) = some v[i] := by
  induction n with
  | zero =>
    have hv : v = #v[] := Vector.eq_empty
    simp [readBytes, hv]
  | succ n ih =>
    constructor
    · intro h
      simp only [readBytes, bind, Except.bind] at h
      split at h
      · cases h
      · next w hw =>
        split at h
        · cases h
        · next b hb =>
          cases h
          intro i hi
          rw [Vector.getElem_push]
          split
          · next hlt => exact ih.1 hw i hlt
          · next hge =>
            have : i = n := by omega
            subst this
            exact readByte_ok_iff.1 hb
    · intro h
      have hw : readBytes m a n = .ok v.pop := ih.2 fun i hi => by
        rw [Vector.getElem_pop]
        exact h i (by omega)
      have hb : readByte m (a + n) = .ok v.back := readByte_ok_iff.2 (by
        rw [Vector.back_eq_getElem]
        exact h n (by omega))
      simp only [readBytes, hw, hb, bind, Except.bind, Vector.push_pop_back]

/-- When reading a byte sequence stops, it is at a byte of it that nothing has written. -/
theorem readBytes_error {m : Memory} {a n : Nat} {e : Stop} (h : readBytes m a n = .error e) :
    ∃ i < n, e = .unwritten (a + i) ∧ m.read (a + i) = none := by
  induction n with
  | zero => cases h
  | succ n ih =>
    simp only [readBytes, bind, Except.bind] at h
    split at h
    · next hw =>
      cases h
      obtain ⟨i, hi, h⟩ := ih hw
      exact ⟨i, by omega, h⟩
    · split at h
      · next hb =>
        cases h
        exact ⟨n, by omega, readByte_error hb⟩
      · cases h

end Sys2Proof.Machine
end

