-- ==== Sys2Proof/Laws/State.lean ====
section
/-!
SUPPORT. The named updates of the state read field by field: one lemma per field per update, all by `rfl`.
-/
namespace Sys2Proof.Machine

/-! ### `State.setStatus` -/

@[simp] theorem State.setStatus_status (s : State) (w : Word) : (s.setStatus w).status = w := rfl
@[simp] theorem State.setStatus_ctrLo (s : State) (w : Word) : (s.setStatus w).ctrLo = s.ctrLo := rfl
@[simp] theorem State.setStatus_ctrHi (s : State) (w : Word) : (s.setStatus w).ctrHi = s.ctrHi := rfl
@[simp] theorem State.setStatus_cand (s : State) (w : Word) : (s.setStatus w).cand = s.cand := rfl
@[simp] theorem State.setStatus_rlen (s : State) (w : Word) : (s.setStatus w).rlen = s.rlen := rfl
@[simp] theorem State.setStatus_keyLen (s : State) (w : Word) : (s.setStatus w).keyLen = s.keyLen := rfl
@[simp] theorem State.setStatus_modLen (s : State) (w : Word) : (s.setStatus w).modLen = s.modLen := rfl
@[simp] theorem State.setStatus_srcLen (s : State) (w : Word) : (s.setStatus w).srcLen = s.srcLen := rfl
@[simp] theorem State.setStatus_dstLen (s : State) (w : Word) : (s.setStatus w).dstLen = s.dstLen := rfl
@[simp] theorem State.setStatus_code (s : State) (w : Word) : (s.setStatus w).code = s.code := rfl
@[simp] theorem State.setStatus_bincode (s : State) (w : Word) : (s.setStatus w).bincode = s.bincode := rfl
@[simp] theorem State.setStatus_offset (s : State) (w : Word) : (s.setStatus w).offset = s.offset := rfl
@[simp] theorem State.setStatus_tsLo (s : State) (w : Word) : (s.setStatus w).tsLo = s.tsLo := rfl
@[simp] theorem State.setStatus_tsHi (s : State) (w : Word) : (s.setStatus w).tsHi = s.tsHi := rfl
@[simp] theorem State.setStatus_mem (s : State) (w : Word) : (s.setStatus w).mem = s.mem := rfl
@[simp] theorem State.setStatus_epoch (s : State) (w : Word) : (s.setStatus w).epoch = s.epoch := rfl
@[simp] theorem State.setStatus_ports (s : State) (w : Word) : (s.setStatus w).ports = s.ports := rfl
@[simp] theorem State.setStatus_host (s : State) (w : Word) : (s.setStatus w).host = s.host := rfl
@[simp] theorem State.setStatus_cfg (s : State) (w : Word) : (s.setStatus w).cfg = s.cfg := rfl

/-! ### `State.setDst` -/

@[simp] theorem State.setDst_status (s : State) (l : List Byte) : (s.setDst l).status = s.status := rfl
@[simp] theorem State.setDst_ctrLo (s : State) (l : List Byte) : (s.setDst l).ctrLo = s.ctrLo := rfl
@[simp] theorem State.setDst_ctrHi (s : State) (l : List Byte) : (s.setDst l).ctrHi = s.ctrHi := rfl
@[simp] theorem State.setDst_cand (s : State) (l : List Byte) : (s.setDst l).cand = s.cand := rfl
@[simp] theorem State.setDst_rlen (s : State) (l : List Byte) : (s.setDst l).rlen = s.rlen := rfl
@[simp] theorem State.setDst_keyLen (s : State) (l : List Byte) : (s.setDst l).keyLen = s.keyLen := rfl
@[simp] theorem State.setDst_modLen (s : State) (l : List Byte) : (s.setDst l).modLen = s.modLen := rfl
@[simp] theorem State.setDst_srcLen (s : State) (l : List Byte) : (s.setDst l).srcLen = s.srcLen := rfl
@[simp] theorem State.setDst_dstLen (s : State) (l : List Byte) : (s.setDst l).dstLen = BitVec.ofNat 32 l.length := rfl
@[simp] theorem State.setDst_code (s : State) (l : List Byte) : (s.setDst l).code = s.code := rfl
@[simp] theorem State.setDst_bincode (s : State) (l : List Byte) : (s.setDst l).bincode = s.bincode := rfl
@[simp] theorem State.setDst_offset (s : State) (l : List Byte) : (s.setDst l).offset = s.offset := rfl
@[simp] theorem State.setDst_tsLo (s : State) (l : List Byte) : (s.setDst l).tsLo = s.tsLo := rfl
@[simp] theorem State.setDst_tsHi (s : State) (l : List Byte) : (s.setDst l).tsHi = s.tsHi := rfl
@[simp] theorem State.setDst_mem (s : State) (l : List Byte) : (s.setDst l).mem = s.mem.writeBytes Buffer.dst.base l := rfl
@[simp] theorem State.setDst_epoch (s : State) (l : List Byte) : (s.setDst l).epoch = s.epoch + 1 := rfl
@[simp] theorem State.setDst_ports (s : State) (l : List Byte) : (s.setDst l).ports = s.ports := rfl
@[simp] theorem State.setDst_host (s : State) (l : List Byte) : (s.setDst l).host = s.host := rfl
@[simp] theorem State.setDst_cfg (s : State) (l : List Byte) : (s.setDst l).cfg = s.cfg := rfl

/-! ### `State.setMac` -/

@[simp] theorem State.setMac_status (s : State) (d : Digest) : (s.setMac d).status = s.status := rfl
@[simp] theorem State.setMac_ctrLo (s : State) (d : Digest) : (s.setMac d).ctrLo = s.ctrLo := rfl
@[simp] theorem State.setMac_ctrHi (s : State) (d : Digest) : (s.setMac d).ctrHi = s.ctrHi := rfl
@[simp] theorem State.setMac_cand (s : State) (d : Digest) : (s.setMac d).cand = s.cand := rfl
@[simp] theorem State.setMac_rlen (s : State) (d : Digest) : (s.setMac d).rlen = s.rlen := rfl
@[simp] theorem State.setMac_keyLen (s : State) (d : Digest) : (s.setMac d).keyLen = s.keyLen := rfl
@[simp] theorem State.setMac_modLen (s : State) (d : Digest) : (s.setMac d).modLen = s.modLen := rfl
@[simp] theorem State.setMac_srcLen (s : State) (d : Digest) : (s.setMac d).srcLen = s.srcLen := rfl
@[simp] theorem State.setMac_dstLen (s : State) (d : Digest) : (s.setMac d).dstLen = s.dstLen := rfl
@[simp] theorem State.setMac_code (s : State) (d : Digest) : (s.setMac d).code = s.code := rfl
@[simp] theorem State.setMac_bincode (s : State) (d : Digest) : (s.setMac d).bincode = s.bincode := rfl
@[simp] theorem State.setMac_offset (s : State) (d : Digest) : (s.setMac d).offset = s.offset := rfl
@[simp] theorem State.setMac_tsLo (s : State) (d : Digest) : (s.setMac d).tsLo = s.tsLo := rfl
@[simp] theorem State.setMac_tsHi (s : State) (d : Digest) : (s.setMac d).tsHi = s.tsHi := rfl
@[simp] theorem State.setMac_mem (s : State) (d : Digest) : (s.setMac d).mem = s.mem.writeBytes Buffer.mac.base d.toList := rfl
@[simp] theorem State.setMac_epoch (s : State) (d : Digest) : (s.setMac d).epoch = s.epoch := rfl
@[simp] theorem State.setMac_ports (s : State) (d : Digest) : (s.setMac d).ports = s.ports := rfl
@[simp] theorem State.setMac_host (s : State) (d : Digest) : (s.setMac d).host = s.host := rfl
@[simp] theorem State.setMac_cfg (s : State) (d : Digest) : (s.setMac d).cfg = s.cfg := rfl

/-! ### `State.setCode` -/

@[simp] theorem State.setCode_status (s : State) (o b c : Word) : (s.setCode o b c).status = s.status := rfl
@[simp] theorem State.setCode_ctrLo (s : State) (o b c : Word) : (s.setCode o b c).ctrLo = s.ctrLo := rfl
@[simp] theorem State.setCode_ctrHi (s : State) (o b c : Word) : (s.setCode o b c).ctrHi = s.ctrHi := rfl
@[simp] theorem State.setCode_cand (s : State) (o b c : Word) : (s.setCode o b c).cand = s.cand := rfl
@[simp] theorem State.setCode_rlen (s : State) (o b c : Word) : (s.setCode o b c).rlen = s.rlen := rfl
@[simp] theorem State.setCode_keyLen (s : State) (o b c : Word) : (s.setCode o b c).keyLen = s.keyLen := rfl
@[simp] theorem State.setCode_modLen (s : State) (o b c : Word) : (s.setCode o b c).modLen = s.modLen := rfl
@[simp] theorem State.setCode_srcLen (s : State) (o b c : Word) : (s.setCode o b c).srcLen = s.srcLen := rfl
@[simp] theorem State.setCode_dstLen (s : State) (o b c : Word) : (s.setCode o b c).dstLen = s.dstLen := rfl
@[simp] theorem State.setCode_code (s : State) (o b c : Word) : (s.setCode o b c).code = c := rfl
@[simp] theorem State.setCode_bincode (s : State) (o b c : Word) : (s.setCode o b c).bincode = b := rfl
@[simp] theorem State.setCode_offset (s : State) (o b c : Word) : (s.setCode o b c).offset = o := rfl
@[simp] theorem State.setCode_tsLo (s : State) (o b c : Word) : (s.setCode o b c).tsLo = s.tsLo := rfl
@[simp] theorem State.setCode_tsHi (s : State) (o b c : Word) : (s.setCode o b c).tsHi = s.tsHi := rfl
@[simp] theorem State.setCode_mem (s : State) (o b c : Word) : (s.setCode o b c).mem = s.mem := rfl
@[simp] theorem State.setCode_epoch (s : State) (o b c : Word) : (s.setCode o b c).epoch = s.epoch := rfl
@[simp] theorem State.setCode_ports (s : State) (o b c : Word) : (s.setCode o b c).ports = s.ports := rfl
@[simp] theorem State.setCode_host (s : State) (o b c : Word) : (s.setCode o b c).host = s.host := rfl
@[simp] theorem State.setCode_cfg (s : State) (o b c : Word) : (s.setCode o b c).cfg = s.cfg := rfl

/-! ### `State.setTs` -/

@[simp] theorem State.setTs_status (s : State) (t : DWord) : (s.setTs t).status = s.status := rfl
@[simp] theorem State.setTs_ctrLo (s : State) (t : DWord) : (s.setTs t).ctrLo = s.ctrLo := rfl
@[simp] theorem State.setTs_ctrHi (s : State) (t : DWord) : (s.setTs t).ctrHi = s.ctrHi := rfl
@[simp] theorem State.setTs_cand (s : State) (t : DWord) : (s.setTs t).cand = s.cand := rfl
@[simp] theorem State.setTs_rlen (s : State) (t : DWord) : (s.setTs t).rlen = s.rlen := rfl
@[simp] theorem State.setTs_keyLen (s : State) (t : DWord) : (s.setTs t).keyLen = s.keyLen := rfl
@[simp] theorem State.setTs_modLen (s : State) (t : DWord) : (s.setTs t).modLen = s.modLen := rfl
@[simp] theorem State.setTs_srcLen (s : State) (t : DWord) : (s.setTs t).srcLen = s.srcLen := rfl
@[simp] theorem State.setTs_dstLen (s : State) (t : DWord) : (s.setTs t).dstLen = s.dstLen := rfl
@[simp] theorem State.setTs_code (s : State) (t : DWord) : (s.setTs t).code = s.code := rfl
@[simp] theorem State.setTs_bincode (s : State) (t : DWord) : (s.setTs t).bincode = s.bincode := rfl
@[simp] theorem State.setTs_offset (s : State) (t : DWord) : (s.setTs t).offset = s.offset := rfl
@[simp] theorem State.setTs_tsLo (s : State) (t : DWord) : (s.setTs t).tsLo = t.extractLsb' 0 32 := rfl
@[simp] theorem State.setTs_tsHi (s : State) (t : DWord) : (s.setTs t).tsHi = t.extractLsb' 32 32 := rfl
@[simp] theorem State.setTs_mem (s : State) (t : DWord) : (s.setTs t).mem = s.mem := rfl
@[simp] theorem State.setTs_epoch (s : State) (t : DWord) : (s.setTs t).epoch = s.epoch := rfl
@[simp] theorem State.setTs_ports (s : State) (t : DWord) : (s.setTs t).ports = s.ports := rfl
@[simp] theorem State.setTs_host (s : State) (t : DWord) : (s.setTs t).host = s.host := rfl
@[simp] theorem State.setTs_cfg (s : State) (t : DWord) : (s.setTs t).cfg = s.cfg := rfl

/-! ### `State.setCand` -/

@[simp] theorem State.setCand_status (s : State) (w : Word) : (s.setCand w).status = s.status := rfl
@[simp] theorem State.setCand_ctrLo (s : State) (w : Word) : (s.setCand w).ctrLo = s.ctrLo := rfl
@[simp] theorem State.setCand_ctrHi (s : State) (w : Word) : (s.setCand w).ctrHi = s.ctrHi := rfl
@[simp] theorem State.setCand_cand (s : State) (w : Word) : (s.setCand w).cand = w := rfl
@[simp] theorem State.setCand_rlen (s : State) (w : Word) : (s.setCand w).rlen = s.rlen := rfl
@[simp] theorem State.setCand_keyLen (s : State) (w : Word) : (s.setCand w).keyLen = s.keyLen := rfl
@[simp] theorem State.setCand_modLen (s : State) (w : Word) : (s.setCand w).modLen = s.modLen := rfl
@[simp] theorem State.setCand_srcLen (s : State) (w : Word) : (s.setCand w).srcLen = s.srcLen := rfl
@[simp] theorem State.setCand_dstLen (s : State) (w : Word) : (s.setCand w).dstLen = s.dstLen := rfl
@[simp] theorem State.setCand_code (s : State) (w : Word) : (s.setCand w).code = s.code := rfl
@[simp] theorem State.setCand_bincode (s : State) (w : Word) : (s.setCand w).bincode = s.bincode := rfl
@[simp] theorem State.setCand_offset (s : State) (w : Word) : (s.setCand w).offset = s.offset := rfl
@[simp] theorem State.setCand_tsLo (s : State) (w : Word) : (s.setCand w).tsLo = s.tsLo := rfl
@[simp] theorem State.setCand_tsHi (s : State) (w : Word) : (s.setCand w).tsHi = s.tsHi := rfl
@[simp] theorem State.setCand_mem (s : State) (w : Word) : (s.setCand w).mem = s.mem := rfl
@[simp] theorem State.setCand_epoch (s : State) (w : Word) : (s.setCand w).epoch = s.epoch := rfl
@[simp] theorem State.setCand_ports (s : State) (w : Word) : (s.setCand w).ports = s.ports := rfl
@[simp] theorem State.setCand_host (s : State) (w : Word) : (s.setCand w).host = s.host := rfl
@[simp] theorem State.setCand_cfg (s : State) (w : Word) : (s.setCand w).cfg = s.cfg := rfl

/-! ### `State.setPorts` -/

@[simp] theorem State.setPorts_status (s : State) (p : Ports) : (s.setPorts p).status = s.status := rfl
@[simp] theorem State.setPorts_ctrLo (s : State) (p : Ports) : (s.setPorts p).ctrLo = s.ctrLo := rfl
@[simp] theorem State.setPorts_ctrHi (s : State) (p : Ports) : (s.setPorts p).ctrHi = s.ctrHi := rfl
@[simp] theorem State.setPorts_cand (s : State) (p : Ports) : (s.setPorts p).cand = s.cand := rfl
@[simp] theorem State.setPorts_rlen (s : State) (p : Ports) : (s.setPorts p).rlen = s.rlen := rfl
@[simp] theorem State.setPorts_keyLen (s : State) (p : Ports) : (s.setPorts p).keyLen = s.keyLen := rfl
@[simp] theorem State.setPorts_modLen (s : State) (p : Ports) : (s.setPorts p).modLen = s.modLen := rfl
@[simp] theorem State.setPorts_srcLen (s : State) (p : Ports) : (s.setPorts p).srcLen = s.srcLen := rfl
@[simp] theorem State.setPorts_dstLen (s : State) (p : Ports) : (s.setPorts p).dstLen = s.dstLen := rfl
@[simp] theorem State.setPorts_code (s : State) (p : Ports) : (s.setPorts p).code = s.code := rfl
@[simp] theorem State.setPorts_bincode (s : State) (p : Ports) : (s.setPorts p).bincode = s.bincode := rfl
@[simp] theorem State.setPorts_offset (s : State) (p : Ports) : (s.setPorts p).offset = s.offset := rfl
@[simp] theorem State.setPorts_tsLo (s : State) (p : Ports) : (s.setPorts p).tsLo = s.tsLo := rfl
@[simp] theorem State.setPorts_tsHi (s : State) (p : Ports) : (s.setPorts p).tsHi = s.tsHi := rfl
@[simp] theorem State.setPorts_mem (s : State) (p : Ports) : (s.setPorts p).mem = s.mem := rfl
@[simp] theorem State.setPorts_epoch (s : State) (p : Ports) : (s.setPorts p).epoch = s.epoch := rfl
@[simp] theorem State.setPorts_ports (s : State) (p : Ports) : (s.setPorts p).ports = p := rfl
@[simp] theorem State.setPorts_host (s : State) (p : Ports) : (s.setPorts p).host = s.host := rfl
@[simp] theorem State.setPorts_cfg (s : State) (p : Ports) : (s.setPorts p).cfg = s.cfg := rfl

/-! ### `State.setPending` -/

@[simp] theorem State.setPending_status (s : State) (l : List BusEvent) : (s.setPending l).status = s.status := rfl
@[simp] theorem State.setPending_ctrLo (s : State) (l : List BusEvent) : (s.setPending l).ctrLo = s.ctrLo := rfl
@[simp] theorem State.setPending_ctrHi (s : State) (l : List BusEvent) : (s.setPending l).ctrHi = s.ctrHi := rfl
@[simp] theorem State.setPending_cand (s : State) (l : List BusEvent) : (s.setPending l).cand = s.cand := rfl
@[simp] theorem State.setPending_rlen (s : State) (l : List BusEvent) : (s.setPending l).rlen = s.rlen := rfl
@[simp] theorem State.setPending_keyLen (s : State) (l : List BusEvent) : (s.setPending l).keyLen = s.keyLen := rfl
@[simp] theorem State.setPending_modLen (s : State) (l : List BusEvent) : (s.setPending l).modLen = s.modLen := rfl
@[simp] theorem State.setPending_srcLen (s : State) (l : List BusEvent) : (s.setPending l).srcLen = s.srcLen := rfl
@[simp] theorem State.setPending_dstLen (s : State) (l : List BusEvent) : (s.setPending l).dstLen = s.dstLen := rfl
@[simp] theorem State.setPending_code (s : State) (l : List BusEvent) : (s.setPending l).code = s.code := rfl
@[simp] theorem State.setPending_bincode (s : State) (l : List BusEvent) : (s.setPending l).bincode = s.bincode := rfl
@[simp] theorem State.setPending_offset (s : State) (l : List BusEvent) : (s.setPending l).offset = s.offset := rfl
@[simp] theorem State.setPending_tsLo (s : State) (l : List BusEvent) : (s.setPending l).tsLo = s.tsLo := rfl
@[simp] theorem State.setPending_tsHi (s : State) (l : List BusEvent) : (s.setPending l).tsHi = s.tsHi := rfl
@[simp] theorem State.setPending_mem (s : State) (l : List BusEvent) : (s.setPending l).mem = s.mem := rfl
@[simp] theorem State.setPending_epoch (s : State) (l : List BusEvent) : (s.setPending l).epoch = s.epoch := rfl
@[simp] theorem State.setPending_ports (s : State) (l : List BusEvent) : (s.setPending l).ports = s.ports := rfl
@[simp] theorem State.setPending_host (s : State) (l : List BusEvent) : (s.setPending l).host = { s.host with pending := l } := rfl
@[simp] theorem State.setPending_cfg (s : State) (l : List BusEvent) : (s.setPending l).cfg = s.cfg := rfl

/-! ### `State.setReadData` -/

@[simp] theorem State.setReadData_status (s : State) (d : ReadData) : (s.setReadData d).status = s.status := rfl
@[simp] theorem State.setReadData_ctrLo (s : State) (d : ReadData) : (s.setReadData d).ctrLo = s.ctrLo := rfl
@[simp] theorem State.setReadData_ctrHi (s : State) (d : ReadData) : (s.setReadData d).ctrHi = s.ctrHi := rfl
@[simp] theorem State.setReadData_cand (s : State) (d : ReadData) : (s.setReadData d).cand = s.cand := rfl
@[simp] theorem State.setReadData_rlen (s : State) (d : ReadData) : (s.setReadData d).rlen = s.rlen := rfl
@[simp] theorem State.setReadData_keyLen (s : State) (d : ReadData) : (s.setReadData d).keyLen = s.keyLen := rfl
@[simp] theorem State.setReadData_modLen (s : State) (d : ReadData) : (s.setReadData d).modLen = s.modLen := rfl
@[simp] theorem State.setReadData_srcLen (s : State) (d : ReadData) : (s.setReadData d).srcLen = s.srcLen := rfl
@[simp] theorem State.setReadData_dstLen (s : State) (d : ReadData) : (s.setReadData d).dstLen = s.dstLen := rfl
@[simp] theorem State.setReadData_code (s : State) (d : ReadData) : (s.setReadData d).code = s.code := rfl
@[simp] theorem State.setReadData_bincode (s : State) (d : ReadData) : (s.setReadData d).bincode = s.bincode := rfl
@[simp] theorem State.setReadData_offset (s : State) (d : ReadData) : (s.setReadData d).offset = s.offset := rfl
@[simp] theorem State.setReadData_tsLo (s : State) (d : ReadData) : (s.setReadData d).tsLo = s.tsLo := rfl
@[simp] theorem State.setReadData_tsHi (s : State) (d : ReadData) : (s.setReadData d).tsHi = s.tsHi := rfl
@[simp] theorem State.setReadData_mem (s : State) (d : ReadData) : (s.setReadData d).mem = s.mem := rfl
@[simp] theorem State.setReadData_epoch (s : State) (d : ReadData) : (s.setReadData d).epoch = s.epoch := rfl
@[simp] theorem State.setReadData_ports (s : State) (d : ReadData) : (s.setReadData d).ports = s.ports := rfl
@[simp] theorem State.setReadData_host (s : State) (d : ReadData) : (s.setReadData d).host = { s.host with readData := some d } := rfl
@[simp] theorem State.setReadData_cfg (s : State) (d : ReadData) : (s.setReadData d).cfg = s.cfg := rfl

/-! ### `State.setResetAsserted` -/

@[simp] theorem State.setResetAsserted_status (s : State) (b : Bool) : (s.setResetAsserted b).status = s.status := rfl
@[simp] theorem State.setResetAsserted_ctrLo (s : State) (b : Bool) : (s.setResetAsserted b).ctrLo = s.ctrLo := rfl
@[simp] theorem State.setResetAsserted_ctrHi (s : State) (b : Bool) : (s.setResetAsserted b).ctrHi = s.ctrHi := rfl
@[simp] theorem State.setResetAsserted_cand (s : State) (b : Bool) : (s.setResetAsserted b).cand = s.cand := rfl
@[simp] theorem State.setResetAsserted_rlen (s : State) (b : Bool) : (s.setResetAsserted b).rlen = s.rlen := rfl
@[simp] theorem State.setResetAsserted_keyLen (s : State) (b : Bool) : (s.setResetAsserted b).keyLen = s.keyLen := rfl
@[simp] theorem State.setResetAsserted_modLen (s : State) (b : Bool) : (s.setResetAsserted b).modLen = s.modLen := rfl
@[simp] theorem State.setResetAsserted_srcLen (s : State) (b : Bool) : (s.setResetAsserted b).srcLen = s.srcLen := rfl
@[simp] theorem State.setResetAsserted_dstLen (s : State) (b : Bool) : (s.setResetAsserted b).dstLen = s.dstLen := rfl
@[simp] theorem State.setResetAsserted_code (s : State) (b : Bool) : (s.setResetAsserted b).code = s.code := rfl
@[simp] theorem State.setResetAsserted_bincode (s : State) (b : Bool) : (s.setResetAsserted b).bincode = s.bincode := rfl
@[simp] theorem State.setResetAsserted_offset (s : State) (b : Bool) : (s.setResetAsserted b).offset = s.offset := rfl
@[simp] theorem State.setResetAsserted_tsLo (s : State) (b : Bool) : (s.setResetAsserted b).tsLo = s.tsLo := rfl
@[simp] theorem State.setResetAsserted_tsHi (s : State) (b : Bool) : (s.setResetAsserted b).tsHi = s.tsHi := rfl
@[simp] theorem State.setResetAsserted_mem (s : State) (b : Bool) : (s.setResetAsserted b).mem = s.mem := rfl
@[simp] theorem State.setResetAsserted_epoch (s : State) (b : Bool) : (s.setResetAsserted b).epoch = s.epoch := rfl
@[simp] theorem State.setResetAsserted_ports (s : State) (b : Bool) : (s.setResetAsserted b).ports = s.ports := rfl
@[simp] theorem State.setResetAsserted_host (s : State) (b : Bool) : (s.setResetAsserted b).host = { s.host with resetAsserted := b } := rfl
@[simp] theorem State.setResetAsserted_cfg (s : State) (b : Bool) : (s.setResetAsserted b).cfg = s.cfg := rfl

/-! ### `State.setTruncation` -/

@[simp] theorem State.setTruncation_status (s : State) (d : Digest) : (s.setTruncation d).status = s.status := rfl
@[simp] theorem State.setTruncation_ctrLo (s : State) (d : Digest) : (s.setTruncation d).ctrLo = s.ctrLo := rfl
@[simp] theorem State.setTruncation_ctrHi (s : State) (d : Digest) : (s.setTruncation d).ctrHi = s.ctrHi := rfl
@[simp] theorem State.setTruncation_cand (s : State) (d : Digest) : (s.setTruncation d).cand = s.cand := rfl
@[simp] theorem State.setTruncation_rlen (s : State) (d : Digest) : (s.setTruncation d).rlen = s.rlen := rfl
@[simp] theorem State.setTruncation_keyLen (s : State) (d : Digest) : (s.setTruncation d).keyLen = s.keyLen := rfl
@[simp] theorem State.setTruncation_modLen (s : State) (d : Digest) : (s.setTruncation d).modLen = s.modLen := rfl
@[simp] theorem State.setTruncation_srcLen (s : State) (d : Digest) : (s.setTruncation d).srcLen = s.srcLen := rfl
@[simp] theorem State.setTruncation_dstLen (s : State) (d : Digest) : (s.setTruncation d).dstLen = s.dstLen := rfl
@[simp] theorem State.setTruncation_code (s : State) (d : Digest) : (s.setTruncation d).code = truncCode d := rfl
@[simp] theorem State.setTruncation_bincode (s : State) (d : Digest) : (s.setTruncation d).bincode = truncBincode d := rfl
@[simp] theorem State.setTruncation_offset (s : State) (d : Digest) : (s.setTruncation d).offset = (truncOffset d).setWidth 32 := rfl
@[simp] theorem State.setTruncation_tsLo (s : State) (d : Digest) : (s.setTruncation d).tsLo = s.tsLo := rfl
@[simp] theorem State.setTruncation_tsHi (s : State) (d : Digest) : (s.setTruncation d).tsHi = s.tsHi := rfl
@[simp] theorem State.setTruncation_mem (s : State) (d : Digest) : (s.setTruncation d).mem = s.mem := rfl
@[simp] theorem State.setTruncation_epoch (s : State) (d : Digest) : (s.setTruncation d).epoch = s.epoch := rfl
@[simp] theorem State.setTruncation_ports (s : State) (d : Digest) : (s.setTruncation d).ports = s.ports := rfl
@[simp] theorem State.setTruncation_host (s : State) (d : Digest) : (s.setTruncation d).host = s.host := rfl
@[simp] theorem State.setTruncation_cfg (s : State) (d : Digest) : (s.setTruncation d).cfg = s.cfg := rfl

/-! ### `State.setCodeResult` -/

@[simp] theorem State.setCodeResult_status (s : State) (d : Digest) : (s.setCodeResult d).status = s.status := rfl
@[simp] theorem State.setCodeResult_ctrLo (s : State) (d : Digest) : (s.setCodeResult d).ctrLo = s.ctrLo := rfl
@[simp] theorem State.setCodeResult_ctrHi (s : State) (d : Digest) : (s.setCodeResult d).ctrHi = s.ctrHi := rfl
@[simp] theorem State.setCodeResult_cand (s : State) (d : Digest) : (s.setCodeResult d).cand = s.cand := rfl
@[simp] theorem State.setCodeResult_rlen (s : State) (d : Digest) : (s.setCodeResult d).rlen = s.rlen := rfl
@[simp] theorem State.setCodeResult_keyLen (s : State) (d : Digest) : (s.setCodeResult d).keyLen = s.keyLen := rfl
@[simp] theorem State.setCodeResult_modLen (s : State) (d : Digest) : (s.setCodeResult d).modLen = s.modLen := rfl
@[simp] theorem State.setCodeResult_srcLen (s : State) (d : Digest) : (s.setCodeResult d).srcLen = s.srcLen := rfl
@[simp] theorem State.setCodeResult_dstLen (s : State) (d : Digest) : (s.setCodeResult d).dstLen = s.dstLen := rfl
@[simp] theorem State.setCodeResult_code (s : State) (d : Digest) : (s.setCodeResult d).code = truncCode d := rfl
@[simp] theorem State.setCodeResult_bincode (s : State) (d : Digest) : (s.setCodeResult d).bincode = truncBincode d := rfl
@[simp] theorem State.setCodeResult_offset (s : State) (d : Digest) : (s.setCodeResult d).offset = (truncOffset d).setWidth 32 := rfl
@[simp] theorem State.setCodeResult_tsLo (s : State) (d : Digest) : (s.setCodeResult d).tsLo = s.tsLo := rfl
@[simp] theorem State.setCodeResult_tsHi (s : State) (d : Digest) : (s.setCodeResult d).tsHi = s.tsHi := rfl
@[simp] theorem State.setCodeResult_mem (s : State) (d : Digest) : (s.setCodeResult d).mem = s.mem.writeBytes Buffer.mac.base d.toList := rfl
@[simp] theorem State.setCodeResult_epoch (s : State) (d : Digest) : (s.setCodeResult d).epoch = s.epoch := rfl
@[simp] theorem State.setCodeResult_ports (s : State) (d : Digest) : (s.setCodeResult d).ports = s.ports.afterHmac 1 := rfl
@[simp] theorem State.setCodeResult_host (s : State) (d : Digest) : (s.setCodeResult d).host = s.host := rfl
@[simp] theorem State.setCodeResult_cfg (s : State) (d : Digest) : (s.setCodeResult d).cfg = s.cfg := rfl

/-! ### `State.sampleClock` -/

@[simp] theorem State.sampleClock_status (s : State) : s.sampleClock.status = s.status := rfl
@[simp] theorem State.sampleClock_ctrLo (s : State) : s.sampleClock.ctrLo = s.ctrLo := rfl
@[simp] theorem State.sampleClock_ctrHi (s : State) : s.sampleClock.ctrHi = s.ctrHi := rfl
@[simp] theorem State.sampleClock_cand (s : State) : s.sampleClock.cand = s.cand := rfl
@[simp] theorem State.sampleClock_rlen (s : State) : s.sampleClock.rlen = s.rlen := rfl
@[simp] theorem State.sampleClock_keyLen (s : State) : s.sampleClock.keyLen = s.keyLen := rfl
@[simp] theorem State.sampleClock_modLen (s : State) : s.sampleClock.modLen = s.modLen := rfl
@[simp] theorem State.sampleClock_srcLen (s : State) : s.sampleClock.srcLen = s.srcLen := rfl
@[simp] theorem State.sampleClock_dstLen (s : State) : s.sampleClock.dstLen = s.dstLen := rfl
@[simp] theorem State.sampleClock_code (s : State) : s.sampleClock.code = s.code := rfl
@[simp] theorem State.sampleClock_bincode (s : State) : s.sampleClock.bincode = s.bincode := rfl
@[simp] theorem State.sampleClock_offset (s : State) : s.sampleClock.offset = s.offset := rfl
@[simp] theorem State.sampleClock_tsLo (s : State) : s.sampleClock.tsLo = s.tsLo := rfl
@[simp] theorem State.sampleClock_tsHi (s : State) : s.sampleClock.tsHi = s.tsHi := rfl
@[simp] theorem State.sampleClock_mem (s : State) : s.sampleClock.mem = s.mem := rfl
@[simp] theorem State.sampleClock_epoch (s : State) : s.sampleClock.epoch = s.epoch := rfl
@[simp] theorem State.sampleClock_ports (s : State) : s.sampleClock.ports = s.ports.afterClock := rfl
@[simp] theorem State.sampleClock_host (s : State) : s.sampleClock.host = s.host := rfl
@[simp] theorem State.sampleClock_cfg (s : State) : s.sampleClock.cfg = s.cfg := rfl

/-! ### `raiseError` -/

@[simp] theorem raiseError_status (s : State) (e : ErrKind) : (raiseError e s).status = errorStatus e := rfl
@[simp] theorem raiseError_ctrLo (s : State) (e : ErrKind) : (raiseError e s).ctrLo = s.ctrLo := rfl
@[simp] theorem raiseError_ctrHi (s : State) (e : ErrKind) : (raiseError e s).ctrHi = s.ctrHi := rfl
@[simp] theorem raiseError_cand (s : State) (e : ErrKind) : (raiseError e s).cand = s.cand := rfl
@[simp] theorem raiseError_rlen (s : State) (e : ErrKind) : (raiseError e s).rlen = s.rlen := rfl
@[simp] theorem raiseError_keyLen (s : State) (e : ErrKind) : (raiseError e s).keyLen = s.keyLen := rfl
@[simp] theorem raiseError_modLen (s : State) (e : ErrKind) : (raiseError e s).modLen = s.modLen := rfl
@[simp] theorem raiseError_srcLen (s : State) (e : ErrKind) : (raiseError e s).srcLen = s.srcLen := rfl
@[simp] theorem raiseError_dstLen (s : State) (e : ErrKind) : (raiseError e s).dstLen = s.dstLen := rfl
@[simp] theorem raiseError_code (s : State) (e : ErrKind) : (raiseError e s).code = s.code := rfl
@[simp] theorem raiseError_bincode (s : State) (e : ErrKind) : (raiseError e s).bincode = s.bincode := rfl
@[simp] theorem raiseError_offset (s : State) (e : ErrKind) : (raiseError e s).offset = s.offset := rfl
@[simp] theorem raiseError_tsLo (s : State) (e : ErrKind) : (raiseError e s).tsLo = s.tsLo := rfl
@[simp] theorem raiseError_tsHi (s : State) (e : ErrKind) : (raiseError e s).tsHi = s.tsHi := rfl
@[simp] theorem raiseError_mem (s : State) (e : ErrKind) : (raiseError e s).mem = s.mem := rfl
@[simp] theorem raiseError_epoch (s : State) (e : ErrKind) : (raiseError e s).epoch = s.epoch := rfl
@[simp] theorem raiseError_ports (s : State) (e : ErrKind) : (raiseError e s).ports = s.ports := rfl
@[simp] theorem raiseError_host (s : State) (e : ErrKind) : (raiseError e s).host = s.host := rfl
@[simp] theorem raiseError_cfg (s : State) (e : ErrKind) : (raiseError e s).cfg = s.cfg := rfl

/-! ### `succeed` -/

@[simp] theorem succeed_status (s : State) (r : Bool) : (succeed r s).status = successStatus r := rfl
@[simp] theorem succeed_ctrLo (s : State) (r : Bool) : (succeed r s).ctrLo = s.ctrLo := rfl
@[simp] theorem succeed_ctrHi (s : State) (r : Bool) : (succeed r s).ctrHi = s.ctrHi := rfl
@[simp] theorem succeed_cand (s : State) (r : Bool) : (succeed r s).cand = s.cand := rfl
@[simp] theorem succeed_rlen (s : State) (r : Bool) : (succeed r s).rlen = s.rlen := rfl
@[simp] theorem succeed_keyLen (s : State) (r : Bool) : (succeed r s).keyLen = s.keyLen := rfl
@[simp] theorem succeed_modLen (s : State) (r : Bool) : (succeed r s).modLen = s.modLen := rfl
@[simp] theorem succeed_srcLen (s : State) (r : Bool) : (succeed r s).srcLen = s.srcLen := rfl
@[simp] theorem succeed_dstLen (s : State) (r : Bool) : (succeed r s).dstLen = s.dstLen := rfl
@[simp] theorem succeed_code (s : State) (r : Bool) : (succeed r s).code = s.code := rfl
@[simp] theorem succeed_bincode (s : State) (r : Bool) : (succeed r s).bincode = s.bincode := rfl
@[simp] theorem succeed_offset (s : State) (r : Bool) : (succeed r s).offset = s.offset := rfl
@[simp] theorem succeed_tsLo (s : State) (r : Bool) : (succeed r s).tsLo = s.tsLo := rfl
@[simp] theorem succeed_tsHi (s : State) (r : Bool) : (succeed r s).tsHi = s.tsHi := rfl
@[simp] theorem succeed_mem (s : State) (r : Bool) : (succeed r s).mem = s.mem := rfl
@[simp] theorem succeed_epoch (s : State) (r : Bool) : (succeed r s).epoch = s.epoch := rfl
@[simp] theorem succeed_ports (s : State) (r : Bool) : (succeed r s).ports = s.ports := rfl
@[simp] theorem succeed_host (s : State) (r : Bool) : (succeed r s).host = s.host := rfl
@[simp] theorem succeed_cfg (s : State) (r : Bool) : (succeed r s).cfg = s.cfg := rfl

/-! ### The ports -/

@[simp] theorem Ports.afterClock_clockAnswers (p : Ports) : (p.afterClock).clockAnswers = p.clockAnswers.tail := rfl
@[simp] theorem Ports.afterClock_clockReads (p : Ports) : (p.afterClock).clockReads = p.clockReads + 1 := rfl
@[simp] theorem Ports.afterClock_rngAnswers (p : Ports) : (p.afterClock).rngAnswers = p.rngAnswers := rfl
@[simp] theorem Ports.afterClock_rngReads (p : Ports) : (p.afterClock).rngReads = p.rngReads := rfl
@[simp] theorem Ports.afterClock_hmacAnswers (p : Ports) : (p.afterClock).hmacAnswers = p.hmacAnswers := rfl
@[simp] theorem Ports.afterClock_hmacCalls (p : Ports) : (p.afterClock).hmacCalls = p.hmacCalls := rfl

@[simp] theorem Ports.afterRng_clockAnswers (p : Ports) : (p.afterRng).clockAnswers = p.clockAnswers := rfl
@[simp] theorem Ports.afterRng_clockReads (p : Ports) : (p.afterRng).clockReads = p.clockReads := rfl
@[simp] theorem Ports.afterRng_rngAnswers (p : Ports) : (p.afterRng).rngAnswers = p.rngAnswers.tail := rfl
@[simp] theorem Ports.afterRng_rngReads (p : Ports) : (p.afterRng).rngReads = p.rngReads + 1 := rfl
@[simp] theorem Ports.afterRng_hmacAnswers (p : Ports) : (p.afterRng).hmacAnswers = p.hmacAnswers := rfl
@[simp] theorem Ports.afterRng_hmacCalls (p : Ports) : (p.afterRng).hmacCalls = p.hmacCalls := rfl

@[simp] theorem Ports.afterHmac_clockAnswers (p : Ports) (n : Nat) : (p.afterHmac n).clockAnswers = p.clockAnswers := rfl
@[simp] theorem Ports.afterHmac_clockReads (p : Ports) (n : Nat) : (p.afterHmac n).clockReads = p.clockReads := rfl
@[simp] theorem Ports.afterHmac_rngAnswers (p : Ports) (n : Nat) : (p.afterHmac n).rngAnswers = p.rngAnswers := rfl
@[simp] theorem Ports.afterHmac_rngReads (p : Ports) (n : Nat) : (p.afterHmac n).rngReads = p.rngReads := rfl
@[simp] theorem Ports.afterHmac_hmacAnswers (p : Ports) (n : Nat) : (p.afterHmac n).hmacAnswers = p.hmacAnswers := rfl
@[simp] theorem Ports.afterHmac_hmacCalls (p : Ports) (n : Nat) : (p.afterHmac n).hmacCalls = p.hmacCalls + n := rfl

end Sys2Proof.Machine
end

