-- ==== Sys2Proof/Laws/Ops.lean ====
section
/-!
SUPPORT. What each shared operation can answer: the status words, `raiseIf`, the ports, buffer operands, the checks of
the secret and the modifier, and the end of a command.
-/
namespace Sys2Proof.Machine

/-! ### Status words -/

theorem statusWord_done (d m f : Bool) (e : BitVec 4) : (statusWord d m f e).getLsbD 0 = d := by
  revert d m f e; decide

theorem statusWord_matched (d m f : Bool) (e : BitVec 4) : (statusWord d m f e).getLsbD 1 = m := by
  revert d m f e; decide

theorem statusWord_fatal (d m f : Bool) (e : BitVec 4) : (statusWord d m f e).getLsbD 2 = f := by
  revert d m f e; decide

theorem statusWord_err (d m f : Bool) (e : BitVec 4) : (statusWord d m f e).extractLsb' 4 4 = e := by
  revert d m f e; decide

/-- The words of a success. -/
theorem successStatus_eq (r : Bool) : successStatus r = if r then 0x03 else 0x01 := by
  revert r; decide

/-- The word of each error kind. -/
theorem errorStatus_eq (e : ErrKind) :
    errorStatus e = match e with
      | .format => 0x11 | .argument => 0x21 | .overflow => 0x31
      | .capacity => 0x41 | .rngFatal => 0x55 | .illegalCommand => 0x61 := by
  cases e <;> decide

@[simp] theorem succeed_fatal (r : Bool) (s : State) : (succeed r s).fatal = false := statusWord_fatal ..
@[simp] theorem succeed_done (r : Bool) (s : State) : (succeed r s).done = true := statusWord_done ..
@[simp] theorem succeed_matched (r : Bool) (s : State) : (succeed r s).matched = r := statusWord_matched ..
@[simp] theorem succeed_err (r : Bool) (s : State) : (succeed r s).err = 0 := statusWord_err ..
@[simp] theorem raiseError_fatal (e : ErrKind) (s : State) :
    (raiseError e s).fatal = decide (e = .rngFatal) := statusWord_fatal ..
@[simp] theorem raiseError_done (e : ErrKind) (s : State) : (raiseError e s).done = true := statusWord_done ..
@[simp] theorem raiseError_matched (e : ErrKind) (s : State) : (raiseError e s).matched = false :=
  statusWord_matched ..
@[simp] theorem raiseError_err (e : ErrKind) (s : State) : (raiseError e s).err = e.code := statusWord_err ..

/-! ### How a body goes on or ends -/

@[simp] theorem raiseIf_true (e : ErrKind) : raiseIf true e = .error (.err e) := rfl
@[simp] theorem raiseIf_false (e : ErrKind) : raiseIf false e = .ok () := rfl

theorem raiseIf_ok_iff {bad : Bool} {e : ErrKind} {u : Unit} : raiseIf bad e = .ok u ↔ bad = false := by
  cases bad <;> simp

theorem raiseIf_error_iff {bad : Bool} {e : ErrKind} {x : Stop} :
    raiseIf bad e = .error x ↔ bad = true ∧ x = .err e := by
  cases bad <;> simp [eq_comm]

/-- A sequence succeeds exactly when its first part does and then the rest. -/
theorem Cmd.bind_ok_iff {α β : Type} {x : Cmd α} {f : α → Cmd β} {b : β} :
    (x >>= f) = .ok b ↔ ∃ a, x = .ok a ∧ f a = .ok b := by
  cases x <;> simp [bind, Except.bind]

/-- A sequence stops exactly when its first part does or the rest does. -/
theorem Cmd.bind_error_iff {α β : Type} {x : Cmd α} {f : α → Cmd β} {e : Stop} :
    (x >>= f) = .error e ↔ x = .error e ∨ ∃ a, x = .ok a ∧ f a = .error e := by
  cases x <;> simp [bind, Except.bind]

@[simp] theorem Cmd.ok_bind {α β : Type} (a : α) (f : α → Cmd β) : ((.ok a : Cmd α) >>= f) = f a := rfl
@[simp] theorem Cmd.error_bind {α β : Type} (e : Stop) (f : α → Cmd β) : ((.error e : Cmd α) >>= f) = .error e := rfl

theorem Cmd.ok_or_error {α : Type} (x : Cmd α) : (∃ a, x = .ok a) ∨ ∃ e, x = .error e := by
  cases x <;> simp

/-! ### The end of a command -/

theorem runCommand_fatal {s : State} (h : s.fatal = true) (body : Cmd State) : runCommand s body = .next s := by
  simp [runCommand, h]

theorem runCommand_ok {s : State} (h : s.fatal = false) {body : Cmd State} {t : State} (hb : body = .ok t) :
    runCommand s body = .next t := by
  simp [runCommand, h, hb]

theorem runCommand_err {s : State} (h : s.fatal = false) {body : Cmd State} {e : ErrKind}
    (hb : body = .error (.err e)) : runCommand s body = .next (raiseError e s) := by
  simp [runCommand, h, hb]

theorem runCommand_unwritten {s : State} (h : s.fatal = false) {body : Cmd State} {a : Nat}
    (hb : body = .error (.unwritten a)) : runCommand s body = .refused (.unwrittenByte a) := by
  simp [runCommand, h, hb]

/-- Every way a command can come to a next state: it was ignored, its body succeeded, or it raised an error. -/
theorem runCommand_next {s t : State} {body : Cmd State} (h : runCommand s body = .next t) :
    (s.fatal = true ∧ t = s)
    ∨ (s.fatal = false ∧ body = .ok t)
    ∨ (s.fatal = false ∧ ∃ e, body = .error (.err e) ∧ t = raiseError e s) := by
  unfold runCommand at h
  split at h
  · next hf => cases h; exact .inl ⟨hf, rfl⟩
  · next hf =>
    have hf : s.fatal = false := by simpa using hf
    split at h
    · cases h; exact .inr (.inl ⟨hf, rfl⟩)
    · next e => cases h; exact .inr (.inr ⟨hf, e, rfl, rfl⟩)
    · cases h

/-- An outcome of this machine is a next state or a refusal: it has no fault. -/
theorem next_or_refused (o : Host.Outcome State Fault Refusal) : (∃ t, o = .next t) ∨ ∃ r, o = .refused r := by
  cases o with
  | next t => exact .inl ⟨t, rfl⟩
  | fault f => exact nomatch f
  | refused r => exact .inr ⟨r, rfl⟩

theorem runCommand_refused {s : State} {body : Cmd State} {r : Refusal} (h : runCommand s body = .refused r) :
    ∃ a, body = .error (.unwritten a) ∧ r = .unwrittenByte a := by
  unfold runCommand at h
  split at h
  · cases h
  · split at h
    · cases h
    · cases h
    · next a => cases h; exact ⟨a, rfl, rfl⟩

/-! ### The ports -/

@[simp] theorem Ports.hmacSha1_afterClock (p : Ports) (key msg : List Byte) :
    p.afterClock.hmacSha1 key msg = p.hmacSha1 key msg := rfl

theorem Ports.hmacSha1_congr {p q : Ports} (h : p.hmacAnswers = q.hmacAnswers) (key msg : List Byte) :
    p.hmacSha1 key msg = q.hmacSha1 key msg := by
  simp [Ports.hmacSha1, h]

/-- An answer of the random source has exactly the number of bytes asked for. -/
theorem Ports.rngNow_length {p : Ports} {n : Nat} {r : List Byte} (h : p.rngNow n = some r) : r.length = n := by
  unfold Ports.rngNow at h
  split at h
  · cases h
  · cases h; simp
  · split at h
    · cases h; simp
    · cases h

/-! ### Operands -/

theorem lenField_lt (w : Word) : lenField w < 65536 := (w.extractLsb' 0 16).isLt

theorem lenField_eq (w : Word) : lenField w = w.toNat % 65536 := by
  simp [lenField, BitVec.extractLsb'_toNat]

theorem lenField_ofNat {n : Nat} (h : n < 65536) : lenField (BitVec.ofNat 32 n) = n := by
  rw [lenField_eq, BitVec.toNat_ofNat]
  omega

/-- A buffer operand is read exactly when its bytes have been written, and is those bytes. -/
theorem readOperand_ok_iff {s : State} {b : Buffer} {n : Nat} {l : List Byte} :
    readOperand s b n = .ok l ↔ l.length = n ∧ ∀ i, (h : i < l.length) → s.mem.read (b.base + i) = some l[i] := by
  unfold readOperand
  rw [Cmd.bind_ok_iff]
  constructor
  · rintro ⟨v, hv, h⟩
    cases h
    refine ⟨by simp, fun i hi => ?_⟩
    have hi' : i < n := by simpa using hi
    simpa using readBytes_ok_iff.1 hv i hi'
  · rintro ⟨rfl, h⟩
    refine ⟨⟨l.toArray, by simp⟩, readBytes_ok_iff.2 fun i hi => ?_, by simp⟩
    simpa using h i hi

theorem readOperand_error {s : State} {b : Buffer} {n : Nat} {e : Stop} (h : readOperand s b n = .error e) :
    ∃ i < n, e = .unwritten (b.base + i) ∧ s.mem.read (b.base + i) = none := by
  unfold readOperand at h
  rw [Cmd.bind_error_iff] at h
  rcases h with h | ⟨v, -, h⟩
  · exact readBytes_error h
  · cases h

theorem checkSrcCapacity_ok_iff {s : State} {u : Unit} :
    checkSrcCapacity s = .ok u ↔ lenField s.srcLen ≤ s.cfg.srcMax.toNat := by
  simp [checkSrcCapacity, raiseIf_ok_iff]

theorem checkSrcCapacity_error_iff {s : State} {e : Stop} :
    checkSrcCapacity s = .error e ↔ s.cfg.srcMax.toNat < lenField s.srcLen ∧ e = .err .capacity := by
  simp [checkSrcCapacity, raiseIf_error_iff]

theorem checkDstCapacity_ok_iff {s : State} {n : Nat} {u : Unit} :
    checkDstCapacity s n = .ok u ↔ n ≤ s.cfg.dstMax.toNat := by
  simp [checkDstCapacity, raiseIf_ok_iff]

theorem checkDstCapacity_error_iff {s : State} {n : Nat} {e : Stop} :
    checkDstCapacity s n = .error e ↔ s.cfg.dstMax.toNat < n ∧ e = .err .capacity := by
  simp [checkDstCapacity, raiseIf_error_iff]

theorem checkKeyModCapacity_ok_iff {s : State} {u : Unit} :
    checkKeyModCapacity s = .ok u ↔
      (s.keyValid = true → lenField s.keyLen ≤ s.cfg.keyMax.toNat) ∧ lenField s.modLen ≤ s.cfg.modMax.toNat := by
  simp [checkKeyModCapacity, Cmd.bind_ok_iff, raiseIf_ok_iff]

theorem checkKeyModCapacity_error_iff {s : State} {e : Stop} :
    checkKeyModCapacity s = .error e ↔
      ((s.keyValid = true ∧ s.cfg.keyMax.toNat < lenField s.keyLen) ∨ s.cfg.modMax.toNat < lenField s.modLen)
        ∧ e = .err .capacity := by
  simp only [checkKeyModCapacity, Cmd.bind_error_iff, raiseIf_error_iff, raiseIf_ok_iff, Bool.and_eq_true,
    decide_eq_true_eq]
  constructor
  · rintro (⟨h, rfl⟩ | ⟨-, -, h, rfl⟩)
    · exact ⟨.inl h, rfl⟩
    · exact ⟨.inr h, rfl⟩
  · rintro ⟨h, rfl⟩
    by_cases hk : s.keyValid = true ∧ s.cfg.keyMax.toNat < lenField s.keyLen
    · exact .inl ⟨hk, rfl⟩
    · exact .inr ⟨(), by simpa using hk, h.resolve_left hk, rfl⟩

theorem checkSecretPresent_ok_iff {s : State} {u : Unit} : checkSecretPresent s = .ok u ↔ s.keyValid = true := by
  simp [checkSecretPresent, raiseIf_ok_iff]

theorem checkSecretPresent_error_iff {s : State} {e : Stop} :
    checkSecretPresent s = .error e ↔ s.keyValid = false ∧ e = .err .argument := by
  simp [checkSecretPresent, raiseIf_error_iff]

theorem checkMessageLength_ok_iff {s : State} {u : Unit} :
    checkMessageLength s = .ok u ↔ 8 + lenField s.modLen ≤ 65535 := by
  simp [checkMessageLength, raiseIf_ok_iff]

theorem checkMessageLength_error_iff {s : State} {e : Stop} :
    checkMessageLength s = .error e ↔ 65535 < 8 + lenField s.modLen ∧ e = .err .overflow := by
  simp [checkMessageLength, raiseIf_error_iff]

/-- The secret and the modifier are read exactly when both buffers hold their bytes. -/
theorem readSecretAndModifier_ok_iff {s : State} {key modifier : List Byte} :
    readSecretAndModifier s = .ok (key, modifier) ↔
      readOperand s .key (lenField s.keyLen) = .ok key ∧ readOperand s .mod (lenField s.modLen) = .ok modifier := by
  simp only [readSecretAndModifier, Cmd.bind_ok_iff]
  constructor
  · rintro ⟨k, hk, m, hm, h⟩
    cases h
    exact ⟨hk, hm⟩
  · rintro ⟨hk, hm⟩
    exact ⟨key, hk, modifier, hm, rfl⟩

theorem readSecretAndModifier_error {s : State} {e : Stop} (h : readSecretAndModifier s = .error e) :
    ∃ o, e = .unwritten o ∧ s.mem.read o = none
      ∧ ((∃ i < lenField s.keyLen, o = Buffer.key.base + i) ∨ ∃ i < lenField s.modLen, o = Buffer.mod.base + i) := by
  simp only [readSecretAndModifier, Cmd.bind_error_iff] at h
  rcases h with h | ⟨k, -, h | ⟨m, -, h⟩⟩
  · obtain ⟨i, hi, he, hr⟩ := readOperand_error h
    exact ⟨_, he, hr, .inl ⟨i, hi, rfl⟩⟩
  · obtain ⟨i, hi, he, hr⟩ := readOperand_error h
    exact ⟨_, he, hr, .inr ⟨i, hi, rfl⟩⟩
  · cases h

/-- `CheckSecretAndModifier` answers exactly when every check passes and both buffers hold their bytes. -/
theorem checkSecretAndModifier_ok_iff {s : State} {km : List Byte × List Byte} :
    checkSecretAndModifier s = .ok km ↔
      (s.keyValid = true ∧ lenField s.keyLen ≤ s.cfg.keyMax.toNat ∧ lenField s.modLen ≤ s.cfg.modMax.toNat
        ∧ 8 + lenField s.modLen ≤ 65535) ∧ readSecretAndModifier s = .ok km := by
  simp only [checkSecretAndModifier, Cmd.bind_ok_iff, checkKeyModCapacity_ok_iff, checkSecretPresent_ok_iff,
    checkMessageLength_ok_iff]
  constructor
  · rintro ⟨-, ⟨h1, h2⟩, -, h3, -, h4, h5⟩
    exact ⟨⟨h3, h1 h3, h2, h4⟩, h5⟩
  · rintro ⟨⟨h3, h1, h2, h4⟩, h5⟩
    exact ⟨(), ⟨fun _ => h1, h2⟩, (), h3, (), h4, h5⟩

/-- Every way `CheckSecretAndModifier` stops, in the order of its checks. -/
theorem checkSecretAndModifier_error {s : State} {e : Stop} (h : checkSecretAndModifier s = .error e) :
    checkKeyModCapacity s = .error e
    ∨ (checkKeyModCapacity s = .ok () ∧ checkSecretPresent s = .error e)
    ∨ (checkKeyModCapacity s = .ok () ∧ s.keyValid = true ∧ checkMessageLength s = .error e)
    ∨ (checkKeyModCapacity s = .ok () ∧ s.keyValid = true ∧ 8 + lenField s.modLen ≤ 65535
        ∧ readSecretAndModifier s = .error e) := by
  simp only [checkSecretAndModifier, Cmd.bind_error_iff, checkSecretPresent_ok_iff, checkMessageLength_ok_iff] at h
  rcases h with h | ⟨⟨⟩, h0, h | ⟨-, h1, h | ⟨-, h2, h⟩⟩⟩
  · exact .inl h
  · exact .inr (.inl ⟨h0, h⟩)
  · exact .inr (.inr (.inl ⟨h0, h1, h⟩))
  · exact .inr (.inr (.inr ⟨h0, h1, h2, h⟩))

end Sys2Proof.Machine
end

