-- ==== Sys2Proof/Laws/Commands.lean ====
section
/-!
SUPPORT. What each command's body can answer, said once: its result in terms of the named updates, and the errors it
can raise; then every next state of a write to `CMD`.
-/
namespace Sys2Proof.Machine

/-! ### Base32 -/

theorem b32encBody_ok {s t : State} (h : b32encBody s = .ok t) :
    ∃ src, readOperand s .src (lenField s.srcLen) = .ok src
      ∧ lenField s.srcLen ≤ s.cfg.srcMax.toNat ∧ 8 * ((lenField s.srcLen + 4) / 5) ≤ s.cfg.dstMax.toNat
      ∧ t = succeed false (s.setDst (b32Encode src)) := by
  simp only [b32encBody, Cmd.bind_ok_iff, checkSrcCapacity_ok_iff, checkDstCapacity_ok_iff] at h
  obtain ⟨-, h1, -, h2, src, h3, h4⟩ := h
  cases h4
  exact ⟨src, h3, h1, h2, rfl⟩

theorem b32encBody_error {s : State} {e : Stop} (h : b32encBody s = .error e) :
    e = .err .capacity ∨ ∃ i < lenField s.srcLen, e = .unwritten (Buffer.src.base + i)
      ∧ s.mem.read (Buffer.src.base + i) = none ∧ lenField s.srcLen ≤ s.cfg.srcMax.toNat := by
  simp only [b32encBody, Cmd.bind_error_iff, checkSrcCapacity_error_iff, checkSrcCapacity_ok_iff,
    checkDstCapacity_error_iff] at h
  rcases h with ⟨-, h⟩ | ⟨-, hc, ⟨-, h⟩ | ⟨-, -, h | ⟨_, -, h⟩⟩⟩
  · exact .inl h
  · exact .inl h
  · obtain ⟨i, hi, he, hr⟩ := readOperand_error h
    exact .inr ⟨i, hi, he, hr, hc⟩
  · cases h

/-- Stripping pads answers a length not above the text's, and stops only at an unwritten byte. -/
theorem b32Strip_le {m : Memory} {a n k : Nat} (h : b32Strip m a n = .ok k) : k ≤ n := by
  induction n with
  | zero => cases h; exact Nat.le_refl 0
  | succ n ih =>
    simp only [b32Strip, Cmd.bind_ok_iff] at h
    obtain ⟨c, -, h⟩ := h
    split at h
    · exact Nat.le_succ_of_le (ih h)
    · cases h; exact Nat.le_refl _

theorem b32Strip_error {m : Memory} {a n : Nat} {e : Stop} (h : b32Strip m a n = .error e) :
    ∃ i < n, e = .unwritten (a + i) ∧ m.read (a + i) = none := by
  induction n with
  | zero => cases h
  | succ n ih =>
    simp only [b32Strip, Cmd.bind_error_iff] at h
    rcases h with h | ⟨c, -, h⟩
    · exact ⟨n, by omega, readByte_error h⟩
    · split at h
      · obtain ⟨i, hi, h⟩ := ih h
        exact ⟨i, by omega, h⟩
      · cases h

theorem b32CharValue_error {c : Byte} {e : Stop} (h : b32CharValue c = .error e) : e = .err .format := by
  unfold b32CharValue at h
  split at h
  · cases h
  · cases h; rfl

/-- The number of bytes the decoder's loop emits: `⌊(NBITS + 5k) / 8⌋` (40_base32.md R131). -/
theorem b32DecodeFrom_length {m : Memory} {k a : Nat} {acc : BitVec 12} {nbits : Nat} {out : List Byte}
    (h : b32DecodeFrom m k a acc nbits = .ok out) (hn : nbits < 8) : out.length = (nbits + 5 * k) / 8 := by
  induction k generalizing a acc nbits out with
  | zero => cases h; simp; omega
  | succ k ih =>
    simp only [b32DecodeFrom, Cmd.bind_ok_iff] at h
    obtain ⟨c, -, v, -, h⟩ := h
    split at h
    · rw [ih h (by omega)]
      omega
    · simp only [Cmd.bind_ok_iff] at h
      obtain ⟨rest, h, he⟩ := h
      cases he
      rw [List.length_cons, ih h (by omega)]
      omega

/-- The decoder's loop stops at an unwritten byte or with `FormatError`. -/
theorem b32DecodeFrom_error {m : Memory} {k a : Nat} {acc : BitVec 12} {nbits : Nat} {e : Stop}
    (h : b32DecodeFrom m k a acc nbits = .error e) :
    e = .err .format ∨ ∃ i < k, e = .unwritten (a + i) ∧ m.read (a + i) = none := by
  induction k generalizing a acc nbits with
  | zero => cases h
  | succ k ih =>
    simp only [b32DecodeFrom, Cmd.bind_error_iff] at h
    have shift : ∀ acc' nb, b32DecodeFrom m k (a + 1) acc' nb = .error e →
        e = .err .format ∨ ∃ i < k + 1, e = .unwritten (a + i) ∧ m.read (a + i) = none := fun acc' nb h =>
      (ih h).imp_right fun ⟨i, hi, h⟩ =>
        ⟨i + 1, by omega, by simpa only [Nat.add_assoc, Nat.add_comm 1] using h⟩
    rcases h with h | ⟨c, -, h | ⟨v, -, h⟩⟩
    · exact .inr ⟨0, by omega, readByte_error h⟩
    · exact .inl (b32CharValue_error h)
    · split at h
      · exact shift _ _ h
      · rcases Cmd.bind_error_iff.1 h with h | ⟨rest, -, h⟩
        · exact shift _ _ h
        · cases h

theorem b32decBody_ok {s t : State} (h : b32decBody s = .ok t) :
    ∃ m out, b32Strip s.mem Buffer.src.base (lenField s.srcLen) = .ok m
      ∧ b32DecodeFrom s.mem m Buffer.src.base 0 0 = .ok out
      ∧ lenField s.srcLen ≤ s.cfg.srcMax.toNat ∧ 5 * m / 8 ≤ s.cfg.dstMax.toNat ∧ out.length = 5 * m / 8
      ∧ t = succeed false (s.setDst out) := by
  simp only [b32decBody, Cmd.bind_ok_iff, checkSrcCapacity_ok_iff, checkDstCapacity_ok_iff] at h
  obtain ⟨-, h1, m, h2, -, h3, out, h4, h5⟩ := h
  cases h5
  exact ⟨m, out, h2, h4, h1, h3, by simpa using b32DecodeFrom_length h4 (by omega), rfl⟩

theorem b32decBody_error {s : State} {e : Stop} (h : b32decBody s = .error e) :
    e = .err .capacity ∨ e = .err .format
    ∨ ∃ i < lenField s.srcLen, e = .unwritten (Buffer.src.base + i) ∧ s.mem.read (Buffer.src.base + i) = none
        ∧ lenField s.srcLen ≤ s.cfg.srcMax.toNat := by
  simp only [b32decBody, Cmd.bind_error_iff, checkSrcCapacity_error_iff, checkSrcCapacity_ok_iff,
    checkDstCapacity_error_iff] at h
  rcases h with ⟨-, h⟩ | ⟨-, hc, h | ⟨m, hm, ⟨-, h⟩ | ⟨-, -, h | ⟨_, -, h⟩⟩⟩⟩
  · exact .inl h
  · obtain ⟨i, hi, he, hr⟩ := b32Strip_error h
    exact .inr (.inr ⟨i, hi, he, hr, hc⟩)
  · exact .inl h
  · rcases b32DecodeFrom_error h with h | ⟨i, hi, he, hr⟩
    · exact .inr (.inl h)
    · exact .inr (.inr ⟨i, Nat.lt_of_lt_of_le hi (b32Strip_le hm), he, hr, hc⟩)
  · cases h

/-! ### Codes -/

theorem genkeyBody_ok {s t : State} (h : genkeyBody s = .ok t) :
    lenField s.rlen ≤ s.cfg.dstMax.toNat
    ∧ ((s.ports.rngNow (lenField s.rlen) = none ∧ t = raiseError .rngFatal (s.setPorts s.ports.afterRng))
      ∨ ∃ r, s.ports.rngNow (lenField s.rlen) = some r ∧ r.length = lenField s.rlen
          ∧ t = succeed false ((s.setPorts s.ports.afterRng).setDst r)) := by
  simp only [genkeyBody, Cmd.bind_ok_iff, checkDstCapacity_ok_iff] at h
  obtain ⟨-, h1, h2⟩ := h
  cases hr : s.ports.rngNow (lenField s.rlen) with
  | none => rw [hr] at h2; cases h2; exact ⟨h1, .inl ⟨rfl, rfl⟩⟩
  | some r => rw [hr] at h2; cases h2; exact ⟨h1, .inr ⟨r, rfl, Ports.rngNow_length hr, rfl⟩⟩

theorem genkeyBody_error {s : State} {e : Stop} (h : genkeyBody s = .error e) :
    s.cfg.dstMax.toNat < lenField s.rlen ∧ e = .err .capacity := by
  simp only [genkeyBody, Cmd.bind_error_iff, checkDstCapacity_error_iff] at h
  rcases h with h | ⟨_, -, h⟩
  · exact h
  · cases h

theorem truncBody_ok {s t : State} (h : truncBody s = .ok t) :
    ∃ mac, readBytes s.mem Buffer.mac.base 20 = .ok mac ∧ t = succeed false (s.setTruncation mac) := by
  simp only [truncBody, Cmd.bind_ok_iff] at h
  obtain ⟨mac, h1, h2⟩ := h
  cases h2
  exact ⟨mac, h1, rfl⟩

theorem truncBody_error {s : State} {e : Stop} (h : truncBody s = .error e) :
    ∃ i < 20, e = .unwritten (Buffer.mac.base + i) ∧ s.mem.read (Buffer.mac.base + i) = none := by
  simp only [truncBody, Cmd.bind_error_iff] at h
  rcases h with h | ⟨_, -, h⟩
  · exact readBytes_error h
  · cases h

/-- How a check of the secret and the modifier can stop: not with `FormatError`, `RngFatal` or `IllegalCommand`. -/
theorem checkSecretAndModifier_stops {s : State} {e : Stop} (h : checkSecretAndModifier s = .error e) :
    e = .err .capacity ∨ (e = .err .argument ∧ s.keyValid = false)
    ∨ (e = .err .overflow ∧ 65535 < 8 + lenField s.modLen ∧ lenField s.modLen ≤ s.cfg.modMax.toNat)
    ∨ ∃ o, e = .unwritten o ∧ s.mem.read o = none
        ∧ ((∃ i < lenField s.keyLen, o = Buffer.key.base + i) ∨ ∃ i < lenField s.modLen, o = Buffer.mod.base + i)
        ∧ lenField s.keyLen ≤ s.cfg.keyMax.toNat ∧ lenField s.modLen ≤ s.cfg.modMax.toNat := by
  rcases checkSecretAndModifier_error h with h | ⟨-, h⟩ | ⟨h0, -, h⟩ | ⟨h0, hv, -, h⟩
  · exact .inl (checkKeyModCapacity_error_iff.1 h).2
  · have h := checkSecretPresent_error_iff.1 h
    exact .inr (.inl ⟨h.2, h.1⟩)
  · have h := checkMessageLength_error_iff.1 h
    exact .inr (.inr (.inl ⟨h.2, h.1, (checkKeyModCapacity_ok_iff.1 h0).2⟩))
  · obtain ⟨o, he, hr, ho⟩ := readSecretAndModifier_error h
    have h0 := checkKeyModCapacity_ok_iff.1 h0
    exact .inr (.inr (.inr ⟨o, he, hr, ho, h0.1 hv, h0.2⟩))

theorem computeBody_ok {s t : State} (h : computeBody s = .ok t) :
    ∃ key modifier, checkSecretAndModifier s = .ok (key, modifier)
      ∧ t = succeed false (s.setCodeResult (codeDigest s.ports key s.ctr modifier)) := by
  simp only [computeBody, Cmd.bind_ok_iff] at h
  obtain ⟨⟨key, modifier⟩, h1, h2⟩ := h
  cases h2
  exact ⟨key, modifier, h1, rfl⟩

theorem computeBody_error {s : State} {e : Stop} (h : computeBody s = .error e) :
    checkSecretAndModifier s = .error e := by
  simp only [computeBody, Cmd.bind_error_iff] at h
  rcases h with h | ⟨_, -, h⟩
  · exact h
  · cases h

/-! ### Time step and window -/

theorem totpBody_ok {s t : State} (h : totpBody s = .ok t) :
    ∃ key modifier, checkSecretAndModifier s = .ok (key, modifier)
      ∧ t = succeed false ((s.sampleClock.setTs s.timeStepNow).setCodeResult
          (codeDigest s.ports key s.timeStepNow modifier)) := by
  simp only [totpBody, Cmd.bind_ok_iff] at h
  obtain ⟨⟨key, modifier⟩, h1, h2⟩ := h
  cases h2
  exact ⟨key, modifier, h1, rfl⟩

theorem totpBody_error {s : State} {e : Stop} (h : totpBody s = .error e) : checkSecretAndModifier s = .error e := by
  simp only [totpBody, Cmd.bind_error_iff] at h
  rcases h with h | ⟨_, -, h⟩
  · exact h
  · cases h

theorem validateBody_ok {s t : State} (h : validateBody s = .ok t) :
    ∃ key modifier, checkSecretAndModifier s = .ok (key, modifier) ∧ t = validateCommit s key modifier s.cand := by
  simp only [validateBody, Cmd.bind_ok_iff] at h
  obtain ⟨⟨key, modifier⟩, h1, h2⟩ := h
  cases h2
  exact ⟨key, modifier, h1, rfl⟩

theorem validateBody_error {s : State} {e : Stop} (h : validateBody s = .error e) :
    checkSecretAndModifier s = .error e := by
  simp only [validateBody, Cmd.bind_error_iff] at h
  rcases h with h | ⟨_, -, h⟩
  · exact h
  · cases h

/-- The digit parser stops at an unwritten byte or with `FormatError`. -/
theorem parseDigits_error {m : Memory} {candMax k a v : Nat} {e : Stop}
    (h : parseDigits m candMax k a v = .error e) :
    e = .err .format ∨ ∃ i < k, e = .unwritten (a + i) ∧ m.read (a + i) = none := by
  induction k generalizing a v with
  | zero => cases h
  | succ k ih =>
    simp only [parseDigits, Cmd.bind_error_iff, raiseIf_error_iff] at h
    rcases h with h | ⟨c, -, ⟨-, h⟩ | ⟨-, -, ⟨-, h⟩ | ⟨_, -, h⟩⟩⟩
    · exact .inr ⟨0, by omega, readByte_error h⟩
    · exact .inl h
    · exact .inl h
    · exact (ih h).imp_right fun ⟨i, hi, h⟩ =>
        ⟨i + 1, by omega, by simpa only [Nat.add_assoc, Nat.add_comm 1] using h⟩

/-- A parsed value never exceeds `CAND_MAX`. -/
theorem parseDigits_le {m : Memory} {candMax k a v r : Nat} (h : parseDigits m candMax k a v = .ok r)
    (hv : v ≤ candMax) : r ≤ candMax := by
  induction k generalizing a v with
  | zero => cases h; exact hv
  | succ k ih =>
    simp only [parseDigits, Cmd.bind_ok_iff, raiseIf_ok_iff, decide_eq_false_iff_not] at h
    obtain ⟨c, -, -, -, -, h1, h⟩ := h
    exact ih h (by omega)

theorem parseCandidate_error {s : State} {e : Stop} (h : parseCandidate s = .error e) :
    e = .err .format ∨ ∃ i < lenField s.srcLen, e = .unwritten (Buffer.src.base + i)
      ∧ s.mem.read (Buffer.src.base + i) = none := by
  simp only [parseCandidate, Cmd.bind_error_iff, raiseIf_error_iff] at h
  rcases h with ⟨-, h⟩ | ⟨-, -, h | ⟨_, -, h⟩⟩
  · exact .inl h
  · exact parseDigits_error h
  · cases h

theorem validatesBody_ok {s t : State} (h : validatesBody s = .ok t) :
    ∃ cand key modifier, parseCandidate s = .ok cand ∧ readSecretAndModifier s = .ok (key, modifier)
      ∧ s.keyValid = true ∧ t = validateCommit (s.setCand cand) key modifier cand := by
  simp only [validatesBody, Cmd.bind_ok_iff, checkSecretPresent_ok_iff] at h
  obtain ⟨-, -, -, -, -, h1, cand, h2, -, -, ⟨key, modifier⟩, h3, h4⟩ := h
  cases h4
  exact ⟨cand, key, modifier, h2, h3, h1, rfl⟩

theorem validatesBody_error {s : State} {e : Stop} (h : validatesBody s = .error e) :
    e = .err .capacity ∨ e = .err .argument ∨ e = .err .format
    ∨ (e = .err .overflow ∧ 65535 < 8 + lenField s.modLen ∧ lenField s.modLen ≤ s.cfg.modMax.toNat)
    ∨ ∃ o, e = .unwritten o ∧ s.mem.read o = none
        ∧ ((∃ i < lenField s.srcLen, o = Buffer.src.base + i) ∨ (∃ i < lenField s.keyLen, o = Buffer.key.base + i)
          ∨ ∃ i < lenField s.modLen, o = Buffer.mod.base + i)
        ∧ lenField s.srcLen ≤ s.cfg.srcMax.toNat ∧ lenField s.keyLen ≤ s.cfg.keyMax.toNat
        ∧ lenField s.modLen ≤ s.cfg.modMax.toNat := by
  simp only [validatesBody, Cmd.bind_error_iff, checkSrcCapacity_error_iff, checkSrcCapacity_ok_iff,
    checkKeyModCapacity_error_iff, checkSecretPresent_error_iff, checkSecretPresent_ok_iff,
    checkMessageLength_error_iff, checkKeyModCapacity_ok_iff] at h
  rcases h with ⟨-, h⟩ | ⟨-, hs, ⟨-, h⟩ | ⟨-, h0, ⟨-, h⟩ | ⟨-, hv, h | ⟨_, -, ⟨h1, h⟩ | ⟨-, -, h | ⟨_, -, h⟩⟩⟩⟩⟩⟩
  · exact .inl h
  · exact .inl h
  · exact .inr (.inl h)
  · rcases parseCandidate_error h with h | ⟨i, hi, h, hr⟩
    · exact .inr (.inr (.inl h))
    · exact .inr (.inr (.inr (.inr ⟨_, h, hr, .inl ⟨i, hi, rfl⟩, hs, h0.1 hv, h0.2⟩)))
  · exact .inr (.inr (.inr (.inl ⟨h, h1, h0.2⟩)))
  · obtain ⟨o, he, hr, ho⟩ := readSecretAndModifier_error h
    exact .inr (.inr (.inr (.inr ⟨o, he, hr, .inr ho, hs, h0.1 hv, h0.2⟩)))
  · cases h

/-- The commit of VALIDATE and VALIDATES in terms of the named updates. -/
theorem validateCommit_eq (s : State) (key modifier : List Byte) (cand : Word) :
    validateCommit s key modifier cand =
      succeed (windowCheck s.ports key modifier s.timeStepNow cand).1
        ((s.setPorts (s.ports.afterClock.afterHmac (windowCheck s.ports key modifier s.timeStepNow cand).2)).setTs
          s.timeStepNow) := rfl

/-- From 1 call of the HMAC port to one per counter left. -/
theorem windowFrom_calls (p : Ports) (key modifier : List Byte) (t : DWord) (cand : Word) (k w : Nat) :
    (windowFrom p key modifier t cand k w).2 ≤ k ∧ (0 < k → 1 ≤ (windowFrom p key modifier t cand k w).2) := by
  induction k generalizing w with
  | zero => simp [windowFrom]
  | succ k ih =>
    unfold windowFrom
    split
    · simp
    · have := (ih (w + 1)).1
      exact ⟨by simpa using this, by simp⟩

/-- The window matches exactly when one of its counters' codes is the candidate (R192: whatever the order). -/
theorem windowFrom_match (p : Ports) (key modifier : List Byte) (t : DWord) (cand : Word) (k w : Nat) :
    (windowFrom p key modifier t cand k w).1 = true ↔
      ∃ j, w ≤ j ∧ j < w + k ∧ truncCode (codeDigest p key (windowCounter t j) modifier) = cand := by
  induction k generalizing w with
  | zero =>
    simp only [windowFrom, Bool.false_eq_true, false_iff, not_exists, not_and]
    omega
  | succ k ih =>
    unfold windowFrom
    split
    · next h => exact ⟨fun _ => ⟨w, by omega, by omega, h⟩, fun _ => rfl⟩
    · next h =>
      simp only
      rw [ih]
      constructor
      · rintro ⟨j, h1, h2, h3⟩
        exact ⟨j, by omega, by omega, h3⟩
      · rintro ⟨j, h1, h2, h3⟩
        have : j ≠ w := fun hj => h (hj ▸ h3)
        exact ⟨j, by omega, by omega, h3⟩

/-! ### Every next state of a command -/

/-- What a command that is not ignored can do, in terms of the named updates: one error entry, or its commit. -/
inductive Effect (s : State) : Instr → State → Prop where
  | error {i : Instr} {e : ErrKind} (h : e ∈ raisedErrors i) (hne : e ≠ .rngFatal) : Effect s i (raiseError e s)
  | b32enc {src : List Byte} (h : readOperand s .src (lenField s.srcLen) = .ok src)
      (hd : 8 * ((lenField s.srcLen + 4) / 5) ≤ s.cfg.dstMax.toNat) :
      Effect s .b32enc (succeed false (s.setDst (b32Encode src)))
  | b32dec {out : List Byte} (hd : out.length ≤ s.cfg.dstMax.toNat) :
      Effect s .b32dec (succeed false (s.setDst out))
  | rngFatal (hr : s.ports.rngNow (lenField s.rlen) = none) :
      Effect s .genkey (raiseError .rngFatal (s.setPorts s.ports.afterRng))
  | genkey {r : List Byte} (hr : s.ports.rngNow (lenField s.rlen) = some r) (hd : r.length ≤ s.cfg.dstMax.toNat) :
      Effect s .genkey (succeed false ((s.setPorts s.ports.afterRng).setDst r))
  | trunc {mac : Digest} : Effect s .trunc (succeed false (s.setTruncation mac))
  | compute {mac : Digest} : Effect s .compute (succeed false (s.setCodeResult mac))
  | tstep : Effect s .tstep (succeed false (s.sampleClock.setTs s.timeStepNow))
  | totp {mac : Digest} :
      Effect s .totp (succeed false ((s.sampleClock.setTs s.timeStepNow).setCodeResult mac))
  | validate {key modifier : List Byte} : Effect s .validate (validateCommit s key modifier s.cand)
  | validates {key modifier : List Byte} {cand : Word} :
      Effect s .validates (validateCommit (s.setCand cand) key modifier cand)

/-- The one inversion of `exec`: the lock ignored the command, or it had one of its effects. -/
theorem exec_next {i : Instr} {s t : State} (h : exec i s = .next t) :
    (s.fatal = true ∧ t = s) ∨ (s.fatal = false ∧ Effect s i t) := by
  have key : ∀ body : Cmd State, runCommand s body = .next t →
      (∀ u, body = .ok u → Effect s i u) →
      (∀ e, body = .error (.err e) → e ∈ raisedErrors i ∧ e ≠ .rngFatal) →
      (s.fatal = true ∧ t = s) ∨ (s.fatal = false ∧ Effect s i t) := fun body hb hok herr => by
    rcases runCommand_next hb with h | ⟨hf, h⟩ | ⟨hf, e, he, rfl⟩
    · exact .inl h
    · exact .inr ⟨hf, hok t h⟩
    · exact .inr ⟨hf, .error (herr e he).1 (herr e he).2⟩
  have secret : ∀ e, checkSecretAndModifier s = .error (.err e) →
      e ∈ [ErrKind.argument, .overflow, .capacity] ∧ e ≠ .rngFatal := fun e he => by
    rcases checkSecretAndModifier_stops he with h | ⟨h, -⟩ | ⟨h, -⟩ | ⟨o, h, -⟩ <;> cases h <;> decide
  cases i with
  | b32enc =>
    refine key (b32encBody s) h (fun u hu => ?_) (fun e he => ?_)
    · obtain ⟨src, h1, -, h2, rfl⟩ := b32encBody_ok hu
      exact .b32enc h1 h2
    · rcases b32encBody_error he with h | ⟨i, -, h, -⟩ <;> cases h; decide
  | b32dec =>
    refine key (b32decBody s) h (fun u hu => ?_) (fun e he => ?_)
    · obtain ⟨m, out, -, -, -, h1, h2, rfl⟩ := b32decBody_ok hu
      exact .b32dec (h2 ▸ h1)
    · rcases b32decBody_error he with h | h | ⟨i, -, h, -⟩ <;> cases h <;> decide
  | genkey =>
    refine key (genkeyBody s) h (fun u hu => ?_) (fun e he => ?_)
    · obtain ⟨h1, ⟨h2, rfl⟩ | ⟨r, h2, h3, rfl⟩⟩ := genkeyBody_ok hu
      · exact .rngFatal h2
      · exact .genkey h2 (h3 ▸ h1)
    · cases (genkeyBody_error he).2; decide
  | trunc =>
    refine key (truncBody s) h (fun u hu => ?_) (fun e he => ?_)
    · obtain ⟨mac, -, rfl⟩ := truncBody_ok hu
      exact .trunc
    · obtain ⟨i, -, h, -⟩ := truncBody_error he
      cases h
  | compute =>
    refine key (computeBody s) h (fun u hu => ?_) (fun e he => secret e (computeBody_error he))
    obtain ⟨k, m, -, rfl⟩ := computeBody_ok hu
    exact .compute
  | tstep =>
    refine key (tstepBody s) h (fun u hu => ?_) (fun e he => by cases he)
    cases hu
    exact .tstep
  | totp =>
    refine key (totpBody s) h (fun u hu => ?_) (fun e he => secret e (totpBody_error he))
    obtain ⟨k, m, -, rfl⟩ := totpBody_ok hu
    exact .totp
  | validate =>
    refine key (validateBody s) h (fun u hu => ?_) (fun e he => secret e (validateBody_error he))
    obtain ⟨k, m, -, rfl⟩ := validateBody_ok hu
    exact .validate
  | validates =>
    refine key (validatesBody s) h (fun u hu => ?_) (fun e he => ?_)
    · obtain ⟨c, k, m, -, -, -, rfl⟩ := validatesBody_ok hu
      exact .validates
    · rcases validatesBody_error he with h | h | h | ⟨h, -⟩ | ⟨o, h, -⟩ <;> cases h <;> decide

/-- A command under the fatal lock is ignored (60_exceptions.md R218). -/
theorem exec_fatal {s : State} (h : s.fatal = true) (i : Instr) : exec i s = .next s := by
  cases i with
  | b32enc => exact runCommand_fatal h (b32encBody s)
  | b32dec => exact runCommand_fatal h (b32decBody s)
  | genkey => exact runCommand_fatal h (genkeyBody s)
  | trunc => exact runCommand_fatal h (truncBody s)
  | compute => exact runCommand_fatal h (computeBody s)
  | tstep => exact runCommand_fatal h (tstepBody s)
  | totp => exact runCommand_fatal h (totpBody s)
  | validate => exact runCommand_fatal h (validateBody s)
  | validates => exact runCommand_fatal h (validatesBody s)

/-- Every next state of a write to `CMD`: ignored under the lock, an illegal word, or a command's effect. -/
theorem writeCmd_next {w : Word} {s t : State} (h : writeCmd w s = .next t) :
    (s.fatal = true ∧ t = s)
    ∨ (s.fatal = false ∧ (∃ e, decode w = .error e) ∧ t = raiseError .illegalCommand s)
    ∨ (s.fatal = false ∧ ∃ i, decode w = .ok i ∧ Effect s i t) := by
  unfold writeCmd at h
  split at h
  · next i hi =>
    rcases exec_next h with h | ⟨hf, h⟩
    · exact .inl h
    · exact .inr (.inr ⟨hf, i, hi, h⟩)
  · next e he =>
    rcases runCommand_next (body := .error (.err .illegalCommand)) h with h | ⟨-, h⟩ | ⟨hf, e', he', rfl⟩
    · exact .inl h
    · cases h
    · cases he'
      exact .inr (.inl ⟨hf, ⟨e, he⟩, rfl⟩)

end Sys2Proof.Machine
end

