-- ==== Sys2Proof/Laws/Base32.lean ====
section
/-!
SUPPORT. The Base32 unit against the closed forms of Sys2Proof/Spec.lean: the length and the characters of an encoding,
the stripped length, and the bytes the decoder's loop emits.
-/
namespace Sys2Proof.Machine

open Sys2Proof.Spec

/-! ### Encoding -/

@[simp] theorem b32Block_length (l : List Byte) : (b32Block l).length = 8 := by simp [b32Block]

/-- The length of an encoding (40_base32.md R122). -/
theorem b32Encode_length (l : List Byte) : (b32Encode l).length = encodedLength l.length := by
  induction l using b32Encode.induct with
  | case1 => rfl
  | case2 a => simp [b32Encode, encodedLength]
  | case3 a b => simp [b32Encode, encodedLength]
  | case4 a b c => simp [b32Encode, encodedLength]
  | case5 a b c d => simp [b32Encode, encodedLength]
  | case6 a b c d e rest ih =>
    simp only [b32Encode, List.length_append, b32Block_length, ih, List.length_cons, encodedLength]
    omega

theorem b32Alpha_eq (v : BitVec 5) : b32Alpha v = alphabet.getD v.toNat 0 := by
  revert v; decide

/-- `BLK` as a number (R122, 20_memory.md R63). -/
theorem b32Pack_toNat (l : List Byte) : (b32Pack l).toNat = blockValue l 0 := by
  simp only [b32Pack, blockValue, BitVec.toNat_append]
  generalize l.getD 0 0 = a
  have h1 := (l.getD 1 0).isLt
  have h2 := (l.getD 2 0).isLt
  have h3 := (l.getD 3 0).isLt
  have h4 := (l.getD 4 0).isLt
  simp only [Nat.mul_zero, Nat.zero_add]
  rw [← Nat.shiftLeft_add_eq_or_of_lt h1, ← Nat.shiftLeft_add_eq_or_of_lt h2, ← Nat.shiftLeft_add_eq_or_of_lt h3,
    ← Nat.shiftLeft_add_eq_or_of_lt h4]
  simp only [Nat.shiftLeft_eq]
  omega

/-- A group of a block as a number. -/
theorem b32Group_toNat (l : List Byte) (i : Nat) :
    (b32Group (b32Pack l) i).toNat = blockValue l 0 / 2 ^ (35 - 5 * i) % 32 := by
  rw [b32Group, BitVec.extractLsb'_toNat, b32Pack_toNat, Nat.shiftRight_eq_div_pow]

/-- `NCHAR[k] = ⌈8k / 5⌉` (R123). -/
theorem b32Nchar_eq {k : Nat} (h : k ≤ 5) : b32Nchar k = (8 * k + 4) / 5 := by
  match k, h with
  | 0, _ => rfl
  | 1, _ => rfl
  | 2, _ => rfl
  | 3, _ => rfl
  | 4, _ => rfl
  | 5, _ => rfl

/-- The characters of one block. -/
theorem b32Block_getElem? (l : List Byte) (hl : l.length ≤ 5) {i : Nat} (hi : i < 8) :
    (b32Block l)[i]? = some (encodedChar l i) := by
  have h0 : i / 8 = 0 := by omega
  have h1 : i % 8 = i := by omega
  have h2 : min 5 (l.length - 5 * 0) = l.length := by omega
  rw [b32Block, List.getElem?_map, List.getElem?_range hi, Option.map_some, encodedChar, h0, h1, h2,
    b32Nchar_eq hl, b32Alpha_eq, b32Group_toNat]

/-- The characters of a full first block do not depend on what follows it. -/
theorem encodedChar_first (a b c d e : Byte) (rest : List Byte) {i : Nat} (hi : i < 8) :
    encodedChar (a :: b :: c :: d :: e :: rest) i = encodedChar [a, b, c, d, e] i := by
  have h0 : i / 8 = 0 := by omega
  have h2 : min 5 ((a :: b :: c :: d :: e :: rest).length - 5 * 0) = 5 := by simp only [List.length_cons]; omega
  have h3 : min 5 ([a, b, c, d, e].length - 5 * 0) = 5 := by simp
  have h4 : blockValue (a :: b :: c :: d :: e :: rest) 0 = blockValue [a, b, c, d, e] 0 := by simp [blockValue]
  simp only [encodedChar, h0, h2, h3, h4]

/-- The characters after a full first block are those of the rest. -/
theorem encodedChar_rest (a b c d e : Byte) (rest : List Byte) {i : Nat} (hi : 8 ≤ i) :
    encodedChar (a :: b :: c :: d :: e :: rest) i = encodedChar rest (i - 8) := by
  have h0 : i / 8 = (i - 8) / 8 + 1 := by omega
  have h1 : i % 8 = (i - 8) % 8 := by omega
  have h2 : (a :: b :: c :: d :: e :: rest).length - 5 * ((i - 8) / 8 + 1) = rest.length - 5 * ((i - 8) / 8) := by
    simp only [List.length_cons]; omega
  have h4 : ∀ j, blockValue (a :: b :: c :: d :: e :: rest) (j + 1) = blockValue rest j := fun j => by
    have hd : ∀ t, (a :: b :: c :: d :: e :: rest).getD (5 * (j + 1) + t) 0 = rest.getD (5 * j + t) 0 := fun t => by
      have : 5 * (j + 1) + t = 5 * j + t + 1 + 1 + 1 + 1 + 1 := by omega
      simp only [this, List.getD_cons_succ]
    have h0 := hd 0
    simp only [Nat.add_zero] at h0
    simp only [blockValue, hd, h0]
  simp only [encodedChar, h0, h1, h2, h4]

/-- Every character of an encoding (R122 to R124). -/
theorem b32Encode_getElem? (l : List Byte) {i : Nat} (hi : i < encodedLength l.length) :
    (b32Encode l)[i]? = some (encodedChar l i) := by
  induction l using b32Encode.induct generalizing i with
  | case1 => exact absurd hi (Nat.not_lt_zero i)
  | case2 a => exact b32Block_getElem? _ (by simp) (by simpa [encodedLength] using hi)
  | case3 a b => exact b32Block_getElem? _ (by simp) (by simpa [encodedLength] using hi)
  | case4 a b c => exact b32Block_getElem? _ (by simp) (by simpa [encodedLength] using hi)
  | case5 a b c d => exact b32Block_getElem? _ (by simp) (by simpa [encodedLength] using hi)
  | case6 a b c d e rest ih =>
    rw [b32Encode]
    by_cases h : i < 8
    · rw [List.getElem?_append_left (by simpa using h), b32Block_getElem? _ (by simp) h,
        encodedChar_first a b c d e rest h]
    · have hr : i - 8 < encodedLength rest.length := by
        simp only [encodedLength, List.length_cons] at hi ⊢
        omega
      rw [List.getElem?_append_right (by simpa using h), b32Block_length, ih hr,
        encodedChar_rest a b c d e rest (by omega)]

/-! ### Decoding -/

/-- `VAL` is the place in the alphabet (R121). -/
theorem b32Val_eq (c : Byte) : (b32Val c).map BitVec.toNat = symbolValue c := by
  revert c; decide +kernel

theorem symbolValue_lt {c : Byte} {v : Nat} (h : symbolValue c = some v) : v < 32 := by
  rw [← b32Val_eq] at h
  cases hv : b32Val c with
  | none => simp [hv] at h
  | some x => simp [hv] at h; omega

theorem strippedLength_append_pad (l : List Byte) : strippedLength (l ++ [0x3D]) = strippedLength l := by
  simp [strippedLength]

theorem strippedLength_append_of_ne (l : List Byte) {c : Byte} (h : c ≠ 0x3D) :
    strippedLength (l ++ [c]) = l.length + 1 := by
  have hc : (c == 0x3D#8) = false := by simpa using h
  simp [strippedLength, hc]

theorem strippedLength_le (l : List Byte) : strippedLength l ≤ l.length := by
  have := (List.dropWhile_sublist (fun c : Byte => c == 0x3D) (l := l.reverse)).length_le
  simpa [strippedLength] using this

/-- Stripping pads from a written text (R130). -/
theorem b32Strip_eq {m : Memory} {a : Nat} (l : List Byte)
    (h : ∀ i, (hi : i < l.length) → m.read (a + i) = some l[i]) :
    b32Strip m a l.length = .ok (strippedLength l) := by
  obtain ⟨r, rfl⟩ : ∃ r : List Byte, l = r.reverse := ⟨l.reverse, by simp⟩
  induction r with
  | nil => rfl
  | cons c r ih =>
    rw [List.reverse_cons] at h ⊢
    generalize r.reverse = l at h ih ⊢
    have hc : readByte m (a + l.length) = .ok c := readByte_ok_iff.2 (by
      rw [h l.length (by simp)]
      simp)
    have hl : b32Strip m a l.length = .ok (strippedLength l) := ih fun i hi => by
      rw [h i (by simp; omega), List.getElem_append_left hi]
    rw [List.length_append, List.length_singleton, b32Strip, hc, Cmd.ok_bind]
    by_cases hp : c = b32Pad
    · rw [if_pos hp, hl, hp, strippedLength_append_pad]
    · rw [if_neg hp, strippedLength_append_of_ne l hp]

theorem b32CharValue_ok_iff {c : Byte} {v : BitVec 5} : b32CharValue c = .ok v ↔ symbolValue c = some v.toNat := by
  rw [← b32Val_eq]
  unfold b32CharValue
  cases b32Val c with
  | none => simp
  | some x => simp [BitVec.toNat_inj]

theorem b32CharValue_error_iff {c : Byte} {e : Stop} :
    b32CharValue c = .error e ↔ symbolValue c = none ∧ e = .err .format := by
  rw [← b32Val_eq]
  unfold b32CharValue
  cases b32Val c <;> simp [eq_comm]

theorem b32ShiftIn_toNat {acc : BitVec 12} (v : BitVec 5) (h : acc.toNat < 2 ^ 7) :
    (b32ShiftIn acc v).toNat = 32 * acc.toNat + v.toNat := by
  have hv := v.isLt
  have h7 : (acc.extractLsb' 0 7).toNat = acc.toNat := by
    rw [BitVec.extractLsb'_toNat, Nat.shiftRight_zero, Nat.mod_eq_of_lt h]
  unfold b32ShiftIn
  rw [BitVec.toNat_append, h7, ← Nat.shiftLeft_add_eq_or_of_lt hv, Nat.shiftLeft_eq]
  omega

theorem b32Keep_toNat (acc : BitVec 12) {n : Nat} (h : n < 12) : (b32Keep acc n).toNat = acc.toNat % 2 ^ n := by
  have hp : 2 ^ n < 2 ^ 12 := Nat.pow_lt_pow_right (by decide) h
  have hpos : 0 < 2 ^ n := Nat.two_pow_pos n
  have hm : (1#12 <<< n - 1#12).toNat = 2 ^ n - 1 := by
    rw [BitVec.toNat_sub, BitVec.toNat_shiftLeft, Nat.shiftLeft_eq]
    simp only [BitVec.toNat_ofNat, Nat.reduceMod, Nat.one_mul, Nat.reducePow] at hp ⊢
    omega
  rw [b32Keep, BitVec.toNat_and, hm, Nat.and_two_pow_sub_one_eq_mod]

/-- The value of a text read after a value already held. -/
def textValueFrom (x : Nat) (text : List Byte) : Nat :=
  text.foldl (fun v c => 32 * v + (symbolValue c).getD 0) x

theorem textValueFrom_eq (x : Nat) (text : List Byte) :
    textValueFrom x text = x * 2 ^ (5 * text.length) + textValue text := by
  induction text generalizing x with
  | nil => simp [textValueFrom, textValue]
  | cons c text ih =>
    have h1 := ih (32 * x + (symbolValue c).getD 0)
    have h2 := ih (32 * 0 + (symbolValue c).getD 0)
    simp only [textValueFrom, textValue, List.foldl_cons, List.length_cons, Nat.mul_add, Nat.pow_add] at h1 h2 ⊢
    rw [h1, h2]
    generalize 2 ^ (5 * text.length) = p
    generalize (symbolValue c).getD 0 = v
    simp only [Nat.mul_zero, Nat.zero_add, Nat.add_mul, Nat.mul_one, Nat.reducePow]
    rw [Nat.mul_comm p 32, ← Nat.mul_assoc, Nat.mul_comm x 32]
    omega

theorem textValue_lt (text : List Byte) : textValue text < 2 ^ (5 * text.length) := by
  induction text with
  | nil => simp [textValue]
  | cons c text ih =>
    have h := textValueFrom_eq (32 * 0 + (symbolValue c).getD 0) text
    have hv : (symbolValue c).getD 0 < 32 := by
      cases hs : symbolValue c with
      | none => simp
      | some v => exact symbolValue_lt hs
    simp only [textValueFrom] at h
    rw [textValue, List.foldl_cons, h, List.length_cons, Nat.mul_add, Nat.pow_add]
    generalize 2 ^ (5 * text.length) = p at ih ⊢
    generalize (symbolValue c).getD 0 = v at hv ⊢
    have : v * p ≤ 31 * p := Nat.mul_le_mul_right p (by omega)
    simp only [Nat.mul_zero, Nat.zero_add, Nat.mul_one, Nat.reducePow]
    omega

/-- What the decoder's loop emits, from any content of the bit buffer: byte `o` is a field of the number made of the
bits held and the characters still to come (R131, R132). -/
theorem b32DecodeFrom_eq {m : Memory} (text : List Byte) {a : Nat} {acc : BitVec 12} {nbits : Nat}
    (h : ∀ i, (hi : i < text.length) → m.read (a + i) = some text[i])
    (hv : ∀ c ∈ text, (symbolValue c).isSome = true) (hn : nbits < 8) (hacc : acc.toNat < 2 ^ nbits) :
    ∃ out, b32DecodeFrom m text.length a acc nbits = .ok out
      ∧ ∀ o, o < (nbits + 5 * text.length) / 8 →
        out[o]? = some (BitVec.ofNat 8
          (textValueFrom acc.toNat text / 2 ^ (nbits + 5 * text.length - 8 * (o + 1)))) := by
  induction text generalizing a acc nbits with
  | nil =>
    refine ⟨[], rfl, fun o ho => ?_⟩
    simp only [List.length_nil] at ho
    omega
  | cons c text ih =>
    have hc : readByte m a = .ok c := readByte_ok_iff.2 (h 0 (by simp))
    obtain ⟨x, hx⟩ := Option.isSome_iff_exists.1 (hv c (by simp))
    have hxlt := symbolValue_lt hx
    have hval : b32CharValue c = .ok (BitVec.ofNat 5 x) := b32CharValue_ok_iff.2 (by
      rw [hx, BitVec.toNat_ofNat, Nat.mod_eq_of_lt hxlt])
    have hacc7 : acc.toNat < 2 ^ 7 := Nat.lt_of_lt_of_le hacc (Nat.pow_le_pow_right (by decide) (by omega))
    have hin : (b32ShiftIn acc (BitVec.ofNat 5 x)).toNat = 32 * acc.toNat + x := by
      rw [b32ShiftIn_toNat _ hacc7, BitVec.toNat_ofNat, Nat.mod_eq_of_lt hxlt]
    have hin_lt : 32 * acc.toNat + x < 2 ^ (nbits + 5) := by
      rw [Nat.pow_add]
      omega
    have hrest : ∀ i, (hi : i < text.length) → m.read (a + 1 + i) = some text[i] := fun i hi => by
      have := h (i + 1) (by simpa using hi)
      rw [List.getElem_cons_succ] at this
      rwa [Nat.add_assoc, Nat.add_comm 1 i]
    have hvrest : ∀ c ∈ text, (symbolValue c).isSome = true := fun c hc => hv c (List.mem_cons_of_mem _ hc)
    have hfold : textValueFrom acc.toNat (c :: text) = textValueFrom (32 * acc.toNat + x) text := by
      simp [textValueFrom, hx]
    simp only [List.length_cons, b32DecodeFrom, hc, hval, Cmd.ok_bind, hfold]
    by_cases hlt : nbits + 5 < 8
    · rw [if_pos hlt]
      obtain ⟨out, ho, hbytes⟩ := ih hrest hvrest hlt (acc := b32ShiftIn acc (BitVec.ofNat 5 x)) (by rwa [hin])
      refine ⟨out, ho, fun o hoo => ?_⟩
      have h1 : nbits + 5 + 5 * text.length = nbits + 5 * (text.length + 1) := by omega
      have := hbytes o (by omega)
      rwa [hin, h1] at this
    · rw [if_neg hlt]
      have hk := b32Keep_toNat (b32ShiftIn acc (BitVec.ofNat 5 x)) (n := nbits - 3) (by omega)
      rw [hin] at hk
      obtain ⟨out, ho, hbytes⟩ := ih hrest hvrest (nbits := nbits - 3) (by omega)
        (acc := b32Keep (b32ShiftIn acc (BitVec.ofNat 5 x)) (nbits - 3)) (by
          rw [hk]; exact Nat.mod_lt _ (Nat.two_pow_pos _))
      rw [ho, Cmd.ok_bind]
      refine ⟨_, rfl, fun o hoo => ?_⟩
      rw [hk] at hbytes
      generalize hy : 32 * acc.toNat + x = y at *
      cases o with
      | zero =>
        rw [List.getElem?_cons_zero]
        congr 1
        apply BitVec.eq_of_toNat_eq
        have h1 : nbits + 5 * (text.length + 1) - 8 * (0 + 1) = 5 * text.length + (nbits - 3) := by omega
        have hb : y / 2 ^ (nbits - 3) < 256 := by
          rw [Nat.div_lt_iff_lt_mul (Nat.two_pow_pos _)]
          have : (256 : Nat) = 2 ^ 8 := rfl
          rw [this, ← Nat.pow_add]
          have : 8 + (nbits - 3) = nbits + 5 := by omega
          rwa [this]
        rw [BitVec.toNat_setWidth, BitVec.toNat_ushiftRight, hin, BitVec.toNat_ofNat, h1, textValueFrom_eq,
          Nat.pow_add, ← Nat.div_div_eq_div_mul, Nat.add_comm, Nat.add_mul_div_right _ _ (Nat.two_pow_pos _),
          Nat.div_eq_of_lt (textValue_lt text), Nat.zero_add, Nat.shiftRight_eq_div_pow]
      | succ o =>
        rw [List.getElem?_cons_succ, hbytes o (by omega)]
        congr 1
        apply BitVec.eq_of_toNat_eq
        have h1 : nbits - 3 + 5 * text.length - 8 * (o + 1) = nbits + 5 * (text.length + 1) - 8 * (o + 1 + 1) := by
          omega
        rw [h1, BitVec.toNat_ofNat, BitVec.toNat_ofNat, textValueFrom_eq, textValueFrom_eq]
        generalize hK : nbits + 5 * (text.length + 1) - 8 * (o + 1 + 1) = K
        generalize textValue text = V
        have hsplit : y = 2 ^ (nbits - 3) * (y / 2 ^ (nbits - 3)) + y % 2 ^ (nbits - 3) := (Nat.div_add_mod _ _).symm
        generalize y / 2 ^ (nbits - 3) = q at *
        generalize y % 2 ^ (nbits - 3) = r at *
        have hexp : 2 ^ (nbits - 3) * 2 ^ (5 * text.length) = 2 ^ K * (2 ^ 8 * 2 ^ (nbits - 3 + 5 * text.length - 8 - K)) := by
          rw [← Nat.pow_add, ← Nat.pow_add, ← Nat.pow_add]
          congr 1
          omega
        have : y * 2 ^ (5 * text.length) + V
            = r * 2 ^ (5 * text.length) + V
              + 2 ^ K * (2 ^ 8 * (2 ^ (nbits - 3 + 5 * text.length - 8 - K) * q)) := by
          rw [hsplit, Nat.add_mul, Nat.mul_right_comm, hexp]
          simp only [Nat.mul_assoc]
          omega
        rw [this, Nat.add_mul_div_left _ _ (Nat.two_pow_pos K), Nat.add_mul_mod_self_left]

end Sys2Proof.Machine
end

