-- ==== Sys2Proof/Laws/HostPort.lean ====
section
/-!
SUPPORT. The address map and what each bus event can do, said once, down to every next state of a step.
-/
namespace Sys2Proof.Machine

/-! ### The address map -/

@[simp] theorem regAt_regOffset (r : Reg) : regAt (regOffset r) = some r := by cases r <;> rfl

theorem regOffset_lt (r : Reg) : regOffset r < 0x40 := by cases r <;> decide

theorem regAt_some {o : Nat} {r : Reg} (h : regAt o = some r) : o = regOffset r := by
  unfold regAt at h
  split at h <;> cases h <;> rfl

theorem locate_base_add (p : Params) (o : Nat) : locate p (p.base + o) = locateOffset p o := by
  have h : ¬ p.base + o < p.base := by omega
  rw [locate, if_neg h, Nat.add_sub_cancel_left]

theorem locateOffset_reg (p : Params) (r : Reg) : locateOffset p (regOffset r) = .reg r := by
  simp [locateOffset, regOffset_lt]

/-- No capacity reaches the end of a buffer's 64 KiB window. -/
theorem Buffer.capacity_lt (p : Params) (b : Buffer) : b.capacity p < 0x10000 := by
  cases b <;> simp only [Buffer.capacity, Config.macLen] <;> omega

theorem locateOffset_byte {p : Params} {b : Buffer} {i : Nat} (h : i < b.capacity p) :
    locateOffset p (b.base + i) = .byte b i := by
  have hc := Nat.lt_trans h (Buffer.capacity_lt p b)
  have hloc : bufferLocation p b i = .byte b i := by rw [bufferLocation, if_pos h]
  have hbase : ∀ o, b.base = o → locateOffset p (o + i) = .byte b i := fun o ho => by
    unfold locateOffset
    cases b
    case mac =>
      obtain rfl : o = 0x40 := ho.symm
      have h20 : i < 20 := h
      rw [if_neg (by omega), if_pos (by omega), Nat.add_sub_cancel_left, hloc]
    case key =>
      obtain rfl : o = 0x10000 := ho.symm
      rw [if_neg (by omega), if_neg (by omega), if_pos (by omega), Nat.add_sub_cancel_left, hloc]
    case mod =>
      obtain rfl : o = 0x20000 := ho.symm
      rw [if_neg (by omega), if_neg (by omega), if_neg (by omega), if_pos (by omega), Nat.add_sub_cancel_left, hloc]
    case src =>
      obtain rfl : o = 0x30000 := ho.symm
      rw [if_neg (by omega), if_neg (by omega), if_neg (by omega), if_neg (by omega), if_pos (by omega),
        Nat.add_sub_cancel_left, hloc]
    case dst =>
      obtain rfl : o = 0x40000 := ho.symm
      rw [if_neg (by omega), if_neg (by omega), if_neg (by omega), if_neg (by omega), if_neg (by omega),
        if_pos (by omega), Nat.add_sub_cancel_left, hloc]
  exact hbase _ rfl

/-- A buffer byte stands at its own offset only, below its capacity. -/
theorem locateOffset_eq_byte {p : Params} {o : Nat} {b : Buffer} {i : Nat} (h : locateOffset p o = .byte b i) :
    i < b.capacity p ∧ o = b.base + i := by
  simp only [locateOffset, bufferLocation] at h
  split at h
  · split at h <;> cases h
  all_goals
    try split at h
    all_goals try split at h
    all_goals try split at h
    all_goals try split at h
    all_goals try split at h
    all_goals try split at h
    all_goals cases h
    all_goals exact ⟨by assumption, by simp only [Buffer.base]; omega⟩

/-- A register stands at its own offset only. -/
theorem locateOffset_eq_reg {p : Params} {o : Nat} {r : Reg} (h : locateOffset p o = .reg r) : o = regOffset r := by
  simp only [locateOffset, bufferLocation] at h
  split at h
  · split at h
    · next hr => cases h; exact regAt_some hr
    · cases h
  all_goals
    repeat' split at h
    all_goals cases h

theorem locate_eq {p : Params} {a : Nat} {l : Location} (h : locate p a = l) (hl : l ≠ .unmapped) :
    ∃ o, a = p.base + o ∧ locateOffset p o = l := by
  unfold locate at h
  split at h
  · exact absurd h.symm hl
  · exact ⟨a - p.base, by omega, h⟩

/-! ### Host accesses -/

/-- Every next state of a host read: the value read is handed to the host and nothing else changes. -/
theorem hostRead_next {s t : State} {w : Width} {a : Nat} (h : hostRead s w a = .next t) :
    ∃ d, t = s.setReadData d := by
  unfold hostRead at h
  split at h
  · cases h
  · cases h
  · split at h <;> cases h
    exact ⟨_, rfl⟩
  · split at h <;> cases h
    exact ⟨_, rfl⟩

/-- Every next state of a host write: a register other than `CMD` took the value, a command ran, or a byte was
stored. -/
theorem hostWrite_next {s t : State} {w : Width} {a : Nat} {d : DWord} (h : hostWrite s w a d = .next t) :
    (∃ r, r ≠ .cmd ∧ t = hostWriteReg s (d.setWidth 32) r)
    ∨ writeCmd (d.setWidth 32) s = .next t
    ∨ (∃ b i, locate s.cfg a = .byte b i ∧ t = hostWriteByte s (d.setWidth 8) b i) := by
  unfold hostWrite at h
  split at h
  · cases h
  · cases h
  · next r _ =>
    split at h
    · split at h
      · exact .inr (.inl h)
      · next hr => cases h; exact .inl ⟨r, hr, rfl⟩
    · cases h
  · next b i hl =>
    split at h
    · cases h; exact .inr (.inr ⟨b, i, hl, rfl⟩)
    · cases h

/-- Every next state of a bus event. -/
theorem performEvent_next {s t : State} {e : BusEvent} (h : performEvent s e = .next t) :
    (∃ b, e = .resetInput b ∧ t = resetInput s b)
    ∨ (s.host.resetAsserted = false ∧ ∃ w a, e = .read w a ∧ hostRead s w a = .next t)
    ∨ (s.host.resetAsserted = false ∧ ∃ w a d, e = .write w a d ∧ hostWrite s w a d = .next t) := by
  cases e with
  | resetInput b => cases h; exact .inl ⟨b, rfl, rfl⟩
  | read w a =>
    simp only [performEvent] at h
    split at h
    · cases h
    · next hr => exact .inr (.inl ⟨by simpa using hr, w, a, rfl, h⟩)
  | write w a d =>
    simp only [performEvent] at h
    split at h
    · cases h
    · next hr => exact .inr (.inr ⟨by simpa using hr, w, a, d, rfl, h⟩)

/-- Every next state of a step: nothing was to come, or the next bus event took place. -/
theorem step_next {s t : State} (h : step s = .next t) :
    (s.host.pending = [] ∧ t = s)
    ∨ ∃ e rest, s.host.pending = e :: rest ∧ performEvent (s.setPending rest) e = .next t := by
  unfold step performNext at h
  split at h
  · next hp => cases h; exact .inl ⟨hp, rfl⟩
  · next e rest hp => exact .inr ⟨e, rest, hp, h⟩

/-- A step with an event to come is that event. -/
theorem step_of_pending {s : State} {e : BusEvent} {rest : List BusEvent} (h : s.host.pending = e :: rest) :
    step s = performEvent (s.setPending rest) e := by
  simp [step, performNext, h]

/-! ### The reset input -/

theorem resetInput_true (s : State) : resetInput s true = s.setResetAsserted true := rfl

theorem resetInput_release {s : State} (h : s.host.resetAsserted = true) : resetInput s false = s.toReset := by
  simp [resetInput, h]

theorem resetInput_released {s : State} (h : s.host.resetAsserted = false) : resetInput s false = s := by
  simp [resetInput, h]

end Sys2Proof.Machine
end

