-- ==== Sys2Proof/Laws/Invariant.lean ====
section
/-!
SUPPORT. The invariant under each named update: what an update must be given for `Inv` to be kept.
-/
namespace Sys2Proof.Machine

/-! ### Ranges of what the commands write -/

theorem legalStatuses_succeed (r : Bool) : successStatus r ∈ legalStatuses := by cases r <;> decide

theorem legalStatuses_raise (e : ErrKind) : errorStatus e ∈ legalStatuses := by cases e <;> decide

theorem truncBincode_le (mac : Digest) : (truncBincode mac).toNat ≤ 0x7FFFFFFF := by
  have key : ∀ a b c d : Byte, (((a &&& 0x7F#8).setWidth 32 <<< 24) ||| (b.setWidth 32 <<< 16)
      ||| (c.setWidth 32 <<< 8) ||| d.setWidth 32 : Word).getLsbD 31 = false := by
    intro a b c d
    simp
  have h := key (mac[(truncOffset mac).toNat]'(by have := truncOffset_lt mac; omega))
    (mac[(truncOffset mac).toNat + 1]'(by have := truncOffset_lt mac; omega))
    (mac[(truncOffset mac).toNat + 2]'(by have := truncOffset_lt mac; omega))
    (mac[(truncOffset mac).toNat + 3]'(by have := truncOffset_lt mac; omega))
  have h' : (truncBincode mac).getLsbD 31 = false := h
  have hm : (truncBincode mac).msb = false := by rw [BitVec.msb_eq_getLsbD_last]; exact h'
  have := BitVec.msb_eq_false_iff_two_mul_lt.1 hm
  omega

theorem truncCode_toNat (mac : Digest) : (truncCode mac).toNat = (truncBincode mac).toNat % 1000000 := by
  simp [truncCode, BitVec.toNat_umod, Config.codeMod]

theorem timeStep_toNat (x : DWord) : (timeStep x).toNat = x.toNat / 30 := by
  simp [timeStep, BitVec.toNat_udiv, Config.stepSeconds]

theorem timeStep_le (x : DWord) : (timeStep x).toNat ≤ 614891469123651720 := by
  rw [timeStep_toNat]
  have := x.isLt
  omega

/-- The two halves of a time step put together are the time step. -/
theorem State.ts_setTs (s : State) (t : DWord) : (s.setTs t).ts = t := by
  simp only [State.ts, State.setTs_tsHi, State.setTs_tsLo]
  apply BitVec.eq_of_getLsbD_eq
  intro i hi
  simp only [BitVec.getLsbD_append, BitVec.getLsbD_extractLsb']
  by_cases h : i < 32
  · simp [h]
  · simp [h]
    have : 32 + (i - 32) = i := by omega
    rw [this]
    simp
    omega

/-! ### The invariant under each update -/

theorem isBufferOffset_of_lt {p : Params} {b : Buffer} {i : Nat} (h : i < b.capacity p) :
    isBufferOffset p (b.base + i) = true := by
  simp only [isBufferOffset, locateOffset_byte h]

theorem Inv.setStatus {s : State} (h : Inv s) {w : Word} (hw : w ∈ legalStatuses) : Inv (s.setStatus w) :=
  { h with status := hw }

theorem Inv.succeed {s : State} (h : Inv s) (r : Bool) : Inv (succeed r s) := h.setStatus (legalStatuses_succeed r)

theorem Inv.raiseError {s : State} (h : Inv s) (e : ErrKind) : Inv (raiseError e s) :=
  h.setStatus (legalStatuses_raise e)

theorem Inv.setPorts {s : State} (h : Inv s) (p : Ports) : Inv (s.setPorts p) := { h with }

theorem Inv.setCand {s : State} (h : Inv s) (w : Word) : Inv (s.setCand w) := { h with }

theorem Inv.setPending {s : State} (h : Inv s) (l : List BusEvent) : Inv (s.setPending l) := { h with }

theorem Inv.setReadData {s : State} (h : Inv s) (d : ReadData) : Inv (s.setReadData d) := { h with }

theorem Inv.setResetAsserted {s : State} (h : Inv s) (b : Bool) : Inv (s.setResetAsserted b) := { h with }

theorem Inv.setTs {s : State} (h : Inv s) {t : DWord} (ht : t.toNat ≤ 614891469123651720) : Inv (s.setTs t) :=
  { h with ts := by rw [State.ts_setTs]; exact ht }

theorem Inv.setTruncation {s : State} (h : Inv s) (d : Digest) : Inv (s.setTruncation d) :=
  { h with
    offset := by
      have := truncOffset_lt d
      simp only [State.setTruncation_offset, BitVec.toNat_setWidth]
      omega
    bincode := truncBincode_le d
    code := truncCode_toNat d }

/-- Storing a byte sequence that fits a buffer keeps the form of memory. -/
theorem Inv.mem_writeBytes {s : State} (h : Inv s) {b : Buffer} {l : List Byte} (hl : l.length ≤ b.capacity s.cfg) :
    (s.mem.writeBytes b.base l).wf
      ∧ ∀ c ∈ s.mem.writeBytes b.base l, isBufferOffset s.cfg c.1 = true := by
  refine ⟨Memory.wf_writeBytes h.memWf _ _, fun c hc => ?_⟩
  rcases Memory.mem_writeBytes hc with ⟨h1, h2⟩ | hc
  · have hi : c.1 - b.base < b.capacity s.cfg := by omega
    have heq : c.1 = b.base + (c.1 - b.base) := by omega
    rw [heq]
    exact isBufferOffset_of_lt hi
  · exact h.memMapped c hc

theorem Inv.setMac {s : State} (h : Inv s) (d : Digest) : Inv (s.setMac d) := by
  have hm := h.mem_writeBytes (b := .mac) (l := d.toList) (by simp [Buffer.capacity])
  refine { h with memWf := hm.1, memMapped := hm.2, dstWritten := fun i hi => ?_ }
  have hout : ¬ (Buffer.mac.base ≤ Buffer.dst.base + i ∧ Buffer.dst.base + i < Buffer.mac.base + d.toList.length) := by
    simp only [Buffer.base, Vector.length_toList]; omega
  rw [State.setMac_mem, Memory.read_writeBytes_outside _ _ hout]
  exact h.dstWritten i hi

theorem Inv.setCodeResult {s : State} (h : Inv s) (d : Digest) : Inv (s.setCodeResult d) :=
  ((h.setPorts _).setMac d).setTruncation d

theorem Inv.setDst {s : State} (h : Inv s) {l : List Byte} (hl : l.length ≤ s.cfg.dstMax.toNat) :
    Inv (s.setDst l) := by
  have hm := h.mem_writeBytes (b := .dst) (l := l) hl
  have hlen : (BitVec.ofNat 32 l.length).toNat = l.length := by
    have := s.cfg.dstMax.isLt
    rw [BitVec.toNat_ofNat]
    omega
  refine { h with memWf := hm.1, memMapped := hm.2, dstLen := ?_, dstWritten := fun i hi => ?_ }
  · rw [State.setDst_dstLen, State.setDst_cfg, hlen]; exact hl
  · rw [State.setDst_dstLen, hlen] at hi
    rw [State.setDst_mem, Memory.read_writeBytes_at _ _ _ hi]
    rfl

theorem and_lenMask_le (v : Word) : (v &&& lenMask).toNat ≤ Config.lenMax := by
  rw [BitVec.toNat_and]
  exact Nat.le_trans Nat.and_le_right (by decide)

/-- A register write of the host keeps the zero bits of every register. -/
theorem Inv.hostWriteReg {s : State} (h : Inv s) (v : Word) (r : Reg) : Inv (hostWriteReg s v r) := by
  cases r with
  | rlen => exact { h with rlen := and_lenMask_le v }
  | modLen => exact { h with modLen := and_lenMask_le v }
  | srcLen => exact { h with srcLen := and_lenMask_le v }
  | keyLen =>
    refine { h with keyLen := ?_ }
    show v &&& keyLenMask &&& 0x7FFF0000 = 0
    rw [BitVec.and_assoc]
    simp
  | _ => exact { h with }

/-- A byte the host stores keeps the form of memory and the result in `DST`. -/
theorem Inv.hostWriteByte {s : State} (h : Inv s) (v : Byte) {b : Buffer} {i : Nat} (hi : i < b.capacity s.cfg) :
    Inv (hostWriteByte s v b i) := by
  have key : b ≠ .dst → Inv { s with mem := s.mem.write (b.base + i) v } := fun hb => by
    refine { h with
      memWf := Memory.wf_write h.memWf _ _
      memMapped := fun c hc => ?_
      dstWritten := fun j hj => ?_ }
    · rcases Memory.mem_write hc with rfl | hc
      · exact isBufferOffset_of_lt hi
      · exact h.memMapped c hc
    · show ((s.mem.write (b.base + i) v).read (Buffer.dst.base + j)).isSome = true
      rw [Memory.read_write]
      split
      · rfl
      · exact h.dstWritten j hj
  cases b with
  | dst => exact h
  | key => exact key (by simp)
  | mod => exact key (by simp)
  | src => exact key (by simp)
  | mac => exact key (by simp)

end Sys2Proof.Machine
end

