-- ==== Sys2Proof/Laws/OtpCode.lean ====
section
/-!
SUPPORT. The code engine and the window unit against the closed forms of Sys2Proof/Spec.lean: the truncation, the
counter's bytes, the window's counters, and the digit parser.
-/
namespace Sys2Proof.Machine

open Sys2Proof.Spec

/-! ### Truncation -/

theorem Digest.getD_eq (mac : Digest) {i : Nat} (h : i < 20) : mac.toList.getD i 0 = mac[i] := by
  rw [List.getD_eq_getElem?_getD, List.getElem?_eq_getElem (by simpa using h), Option.getD_some,
    Vector.getElem_toList]

/-- The offset as a number (41_otp_code.md R151 step 4). -/
theorem truncOffset_toNat (mac : Digest) : (truncOffset mac).toNat = offsetOf mac := by
  rw [truncOffset, offsetOf, Digest.getD_eq mac (by decide), BitVec.toNat_and,
    show (0x0F#8).toNat = 2 ^ 4 - 1 from rfl, Nat.and_two_pow_sub_one_eq_mod]

theorem offsetOf_lt (mac : Digest) : offsetOf mac < 16 := Nat.mod_lt _ (by decide)

/-- Four bytes joined big-endian with the top bit cleared, as a number (R151 step 5). -/
theorem bigEndian_toNat (a b c d : Byte) :
    (((a &&& 0x7F#8).setWidth 32 <<< 24) ||| (b.setWidth 32 <<< 16) ||| (c.setWidth 32 <<< 8)
      ||| d.setWidth 32 : Word).toNat
      = (a.toNat * 2 ^ 24 + b.toNat * 2 ^ 16 + c.toNat * 2 ^ 8 + d.toNat) % 2 ^ 31 := by
  have ha : (a &&& 0x7F#8).toNat = a.toNat % 128 := by
    rw [BitVec.toNat_and, show (0x7F#8).toNat = 2 ^ 7 - 1 from rfl, Nat.and_two_pow_sub_one_eq_mod]
  have hw : ∀ x : Byte, (x.setWidth 32).toNat = x.toNat := fun x => by
    rw [BitVec.toNat_setWidth]; omega
  have hb := b.isLt
  have hc := c.isLt
  have hd := d.isLt
  have join : ∀ (x y k : Nat), y < 2 ^ k → x * 2 ^ k ||| y = x * 2 ^ k + y := fun x y k h => by
    rw [Nat.mul_comm]; exact (Nat.two_pow_add_eq_or_of_lt h _).symm
  simp only [BitVec.toNat_or, BitVec.toNat_shiftLeft, hw, ha, Nat.shiftLeft_eq]
  rw [Nat.mod_eq_of_lt (a := a.toNat % 128 * 2 ^ 24) (by omega), Nat.mod_eq_of_lt (a := b.toNat * 2 ^ 16) (by omega),
    Nat.mod_eq_of_lt (a := c.toNat * 2 ^ 8) (by omega), join _ _ 24 (by omega),
    show a.toNat % 128 * 2 ^ 24 + b.toNat * 2 ^ 16 = (a.toNat % 128 * 2 ^ 8 + b.toNat) * 2 ^ 16 from by omega,
    join _ _ 16 (by omega)]
  obtain ⟨x, hx⟩ : ∃ x, x = a.toNat % 128 * 2 ^ 8 + b.toNat := ⟨_, rfl⟩
  rw [← hx]
  rw [show x * 2 ^ 16 + c.toNat * 2 ^ 8 = (x * 2 ^ 8 + c.toNat) * 2 ^ 8 from by omega, join _ _ 8 (by omega)]
  omega

theorem truncBincode_toNat (mac : Digest) : (truncBincode mac).toNat = binaryCodeOf mac := by
  have ho := offsetOf_lt mac
  have he := truncOffset_toNat mac
  unfold truncBincode binaryCodeOf
  rw [Digest.getD_eq mac (i := offsetOf mac) (by omega), Digest.getD_eq mac (i := offsetOf mac + 1) (by omega),
    Digest.getD_eq mac (i := offsetOf mac + 2) (by omega), Digest.getD_eq mac (i := offsetOf mac + 3) (by omega)]
  simp only [he]
  exact bigEndian_toNat _ _ _ _

theorem binaryCodeOf_lt (mac : Digest) : binaryCodeOf mac < 2 ^ 31 := Nat.mod_lt _ (by decide)

theorem codeOf_lt (mac : Digest) : codeOf mac < 1000000 := Nat.mod_lt _ (by decide)

theorem truncCode_toNat_eq (mac : Digest) : (truncCode mac).toNat = codeOf mac := by
  rw [truncCode, BitVec.toNat_umod, truncBincode_toNat]
  rfl

/-- The three results as the registers hold them (R150). -/
theorem truncation_eq (mac : Digest) :
    (truncOffset mac).setWidth 32 = BitVec.ofNat 32 (offsetOf mac)
    ∧ truncBincode mac = BitVec.ofNat 32 (binaryCodeOf mac) ∧ truncCode mac = BitVec.ofNat 32 (codeOf mac) := by
  have ho := offsetOf_lt mac
  have hb := binaryCodeOf_lt mac
  have hc := codeOf_lt mac
  refine ⟨?_, ?_, ?_⟩ <;> apply BitVec.eq_of_toNat_eq
  · rw [BitVec.toNat_setWidth, truncOffset_toNat, BitVec.toNat_ofNat]
  · rw [truncBincode_toNat, BitVec.toNat_ofNat, Nat.mod_eq_of_lt (by omega)]
  · rw [truncCode_toNat_eq, BitVec.toNat_ofNat, Nat.mod_eq_of_lt (by omega)]

/-! ### Counters -/

/-- `be64` (20_memory.md R64). -/
theorem be64_eq (v : DWord) : be64 v = counterBytes v.toNat := by
  have key : ∀ k, v.extractLsb' (8 * k) 8 = BitVec.ofNat 8 (v.toNat / 256 ^ k) := fun k => by
    apply BitVec.eq_of_toNat_eq
    rw [BitVec.extractLsb'_toNat, BitVec.toNat_ofNat, Nat.shiftRight_eq_div_pow, Nat.pow_mul]
  have h := fun k => (key k).symm
  simp only [counterBytes, List.range, List.range.loop, List.map_cons, List.map_nil, be64, h]

theorem codeDigest_eq (p : Ports) (key : List Byte) (c : DWord) (modifier : List Byte) :
    codeDigest p key c modifier = digestFor p key c.toNat modifier := by
  rw [codeDigest, hmacMessage, be64_eq, digestFor]

/-- The window's counters (42_totp_window.md R191). -/
theorem windowCounter_toNat (t : DWord) (w : Nat) :
    (windowCounter t w).toNat = windowStep t.toNat w := by
  have ht := t.isLt
  simp only [windowCounter, windowStep, BitVec.toNat_add, BitVec.toNat_sub, BitVec.toNat_ofNat, Config.window]
  omega

theorem timeStepNow_toNat (s : State) : s.timeStepNow.toNat = stepNow s := by
  simp [State.timeStepNow, timeStep, BitVec.toNat_udiv, Config.stepSeconds, stepNow]

/-- The code of a window's counter is the candidate (R193). -/
theorem windowCode_eq_iff (p : Ports) (key modifier : List Byte) (t : DWord) (cand : Word) (w : Nat) :
    truncCode (codeDigest p key (windowCounter t w) modifier) = cand
      ↔ codeFor p key (windowStep t.toNat w) modifier = cand.toNat := by
  rw [← BitVec.toNat_inj, truncCode_toNat_eq, codeDigest_eq, windowCounter_toNat t w]
  rfl

/-- The window's answer (R190, R192). -/
theorem windowCheck_match (p : Ports) (key modifier : List Byte) (t : DWord) (cand : Word) :
    (windowCheck p key modifier t cand).1 = true ↔ Matches p key modifier t.toNat cand.toNat := by
  show (windowFrom p key modifier t cand 5 0).1 = true ↔ _
  rw [windowFrom_match]
  constructor
  · rintro ⟨j, -, hj, h⟩
    exact ⟨j, by omega, (windowCode_eq_iff p key modifier t cand j).1 h⟩
  · rintro ⟨j, hj, h⟩
    exact ⟨j, by omega, by omega, (windowCode_eq_iff p key modifier t cand j).2 h⟩

/-- The window's calls of the HMAC port (R192). -/
theorem windowCheck_calls (p : Ports) (key modifier : List Byte) (t : DWord) (cand : Word) :
    (windowCheck p key modifier t cand).2 = tries p key modifier t.toNat cand.toNat := by
  show (windowFrom p key modifier t cand 5 0).2 = _
  simp only [windowFrom, tries, windowCode_eq_iff p key modifier t cand 0,
    windowCode_eq_iff p key modifier t cand (0 + 1),
    windowCode_eq_iff p key modifier t cand (0 + 1 + 1),
    windowCode_eq_iff p key modifier t cand (0 + 1 + 1 + 1),
    windowCode_eq_iff p key modifier t cand (0 + 1 + 1 + 1 + 1)]
  repeat' split
  all_goals rfl

/-! ### Digit strings -/

/-- The decimal value of digits read after a value already held. -/
def decimalFrom (v : Nat) (text : List Byte) : Nat := text.foldl (fun v c => 10 * v + (c.toNat - 0x30)) v

theorem decimalFrom_ge (v : Nat) (text : List Byte) : v ≤ decimalFrom v text := by
  induction text generalizing v with
  | nil => exact Nat.le_refl v
  | cons c text ih =>
    have := ih (10 * v + (c.toNat - 0x30))
    simp only [decimalFrom, List.foldl_cons] at this ⊢
    omega

/-- What the digit parser answers on a written text (R196). -/
theorem parseDigits_eq {m : Memory} {candMax : Nat} (text : List Byte) {a v : Nat}
    (h : ∀ i, (hi : i < text.length) → m.read (a + i) = some text[i]) (hv : v ≤ candMax) :
    parseDigits m candMax text.length a v =
      if text.all isDigit = true ∧ decimalFrom v text ≤ candMax then .ok (decimalFrom v text)
      else .error (.err .format) := by
  induction text generalizing a v with
  | nil => simp [parseDigits, decimalFrom, hv]
  | cons c text ih =>
    have hc : readByte m a = .ok c := readByte_ok_iff.2 (h 0 (by simp))
    have hrest : ∀ i, (hi : i < text.length) → m.read (a + 1 + i) = some text[i] := fun i hi => by
      have := h (i + 1) (by simpa using hi)
      rw [List.getElem_cons_succ] at this
      rwa [Nat.add_assoc, Nat.add_comm 1 i]
    have hge := decimalFrom_ge (10 * v + (c.toNat - 0x30)) text
    have hcons : decimalFrom v (c :: text) = decimalFrom (10 * v + (c.toNat - 0x30)) text := rfl
    simp only [List.length_cons, parseDigits, hc, Cmd.ok_bind, List.all_cons, hcons]
    by_cases hd : isDigit c = true
    · have hd' : (decide (c.toNat < 0x30) || decide (0x39 < c.toNat)) = false := by
        simp only [isDigit, Bool.and_eq_true, decide_eq_true_eq] at hd
        simp only [Bool.or_eq_false_iff, decide_eq_false_iff_not]
        omega
      rw [hd', raiseIf_false, Cmd.ok_bind]
      by_cases hm : candMax < 10 * v + (c.toNat - 0x30)
      · have : ¬ ((isDigit c && text.all isDigit) = true ∧ decimalFrom (10 * v + (c.toNat - 0x30)) text ≤ candMax) := by
          omega
        rw [if_neg this, decide_eq_true hm, raiseIf_true, Cmd.error_bind]
      · rw [decide_eq_false hm, raiseIf_false, Cmd.ok_bind, ih hrest (by omega), hd, Bool.true_and]
    · have hd' : (decide (c.toNat < 0x30) || decide (0x39 < c.toNat)) = true := by
        simp only [isDigit, Bool.and_eq_true, decide_eq_true_eq] at hd
        simp only [Bool.or_eq_true, decide_eq_true_eq]
        omega
      have : ¬ ((isDigit c && text.all isDigit) = true ∧ decimalFrom (10 * v + (c.toNat - 0x30)) text ≤ candMax) := by
        simp [hd]
      rw [hd', raiseIf_true, Cmd.error_bind, if_neg this]

/-- What `ParseCandidate` answers on a written text (R195, R196). -/
theorem parseCandidate_eq {s : State} {text : List Byte} (hn : lenField s.srcLen = text.length)
    (h : ∀ i, (hi : i < text.length) → s.mem.read (Buffer.src.base + i) = some text[i]) :
    parseCandidate s =
      if validCandidate s.cfg.candMax.toNat text = true then .ok (BitVec.ofNat 32 (decimalValue text))
      else .error (.err .format) := by
  rw [parseCandidate, hn, parseDigits_eq text h (Nat.zero_le _), validCandidate]
  cases text with
  | nil => rfl
  | cons c text =>
    have h0 : decide ((c :: text).length = 0) = false := by simp
    have hd : decimalFrom 0 (c :: text) = decimalValue (c :: text) := rfl
    rw [h0, raiseIf_false, Cmd.ok_bind, hd]
    simp only [List.isEmpty_cons, Bool.not_false, Bool.true_and, Bool.and_eq_true, decide_eq_true_eq]
    split <;> rfl

end Sys2Proof.Machine
end

