-- ==== Sys2Proof/Laws/PerInstr.lean ====
section
/-!
SUPPORT. The family `Encoding`: what the command word of each instruction is (30_encoding.md R90, R92), one lemma per
constructor.
-/
namespace Sys2Proof.Laws.Encoding

/-- The word of a command has a zero field `ZERO`, and no other command shares it. -/
def Statement (i : Instr) : Prop := zeroField (encode i) = 0 ∧ ∀ j, encode j = encode i → j = i

theorem b32enc : Statement .b32enc := ⟨by decide, fun j h => by cases j <;> first | rfl | exact absurd h (by decide)⟩
theorem b32dec : Statement .b32dec := ⟨by decide, fun j h => by cases j <;> first | rfl | exact absurd h (by decide)⟩
theorem genkey : Statement .genkey := ⟨by decide, fun j h => by cases j <;> first | rfl | exact absurd h (by decide)⟩
theorem trunc : Statement .trunc := ⟨by decide, fun j h => by cases j <;> first | rfl | exact absurd h (by decide)⟩
theorem compute : Statement .compute := ⟨by decide, fun j h => by cases j <;> first | rfl | exact absurd h (by decide)⟩
theorem tstep : Statement .tstep := ⟨by decide, fun j h => by cases j <;> first | rfl | exact absurd h (by decide)⟩
theorem totp : Statement .totp := ⟨by decide, fun j h => by cases j <;> first | rfl | exact absurd h (by decide)⟩
theorem validate : Statement .validate := ⟨by decide, fun j h => by cases j <;> first | rfl | exact absurd h (by decide)⟩
theorem validates : Statement .validates := ⟨by decide, fun j h => by cases j <;> first | rfl | exact absurd h (by decide)⟩

end Sys2Proof.Laws.Encoding
end

