-- ==== Sys2Proof/WellFormed.lean ====
section
/-!
DEFINITION. Well-formedness. A command carries no operand, so every `Instr` is well formed (30_encoding.md R90); what
can be ill formed is a parameter record (00_scope.md R6: `999999 <= CAND_MAX`; the other bounds are types). A script
line's own check stands beside its syntax in Machine/Script.lean.
-/
namespace Sys2Proof

/-- Every command of R92 is well formed: the word has no field that could hold an illegal operand (R90, R91). -/
def Instr.wellFormed (_ : Instr) : Bool := true

/-- R6: `999999 <= CAND_MAX <= 2^32 - 1`; the upper bound and the capacities' bounds are in the types. -/
def Params.wellFormed (p : Params) : Bool := decide (999999 ≤ p.candMax.toNat)

end Sys2Proof
end

