-- ==== Sys2Proof/Tests/Slice0.lean ====
section
/-!
SUPPORT. The model's own tests, each named after what it shows. Expected results are those of spec/95_test_vectors.md
(the vector's id stands in the comment) or worked out by hand from the rule named; digests are that file's assumed
answers of the HMAC port. The theorems `witness_…` show that the hypotheses of the statement named can be met.
-/
namespace Sys2Proof.Tests

open Sys2Proof.Machine Sys2Proof.Spec

set_option Elab.async false

/-! ### Helpers -/

/-- ASCII 12345678901234567890, the secret of the vectors. -/
def secret : List Byte :=
  [0x31, 0x32, 0x33, 0x34, 0x35, 0x36, 0x37, 0x38, 0x39, 0x30, 0x31, 0x32, 0x33, 0x34, 0x35, 0x36, 0x37, 0x38, 0x39, 0x30]

def load (b : Buffer) (l : List Byte) (s : State) : State := { s with mem := s.mem.writeBytes b.base l }

def keyed (s : State) : State := { load .key secret s with keyLen := 0x80000014 }

def source (l : List Byte) (s : State) : State := { load .src l s with srcLen := BitVec.ofNat 32 l.length }

def clock (t : DWord) (s : State) : State := { s with ports := { s.ports with clockAnswers := [t] } }

/-- Assumed answers of the HMAC port for the secret: a message and its digest. -/
def answers (l : List (List Byte × Digest)) (s : State) : State :=
  { s with ports := { s.ports with hmacAnswers := l.map fun h => ⟨secret, h.1, h.2⟩ } }

def random (a : RngAnswer) (s : State) : State := { s with ports := { s.ports with rngAnswers := [a] } }

/-- One step that writes the command's word to `CMD`. -/
def after (w : Nat) (s : State) : Option State := nextState? (step (s.withFetchWord 32 w))

/-- What `DST` holds up to `DST_LEN`. -/
def dst (s : State) : List (Option Byte) := (List.range (lenField s.dstLen)).map fun i => s.mem.read (Buffer.dst.base + i)

def zeros : Digest := Vector.replicate 20 0

theorem next_any {o : Host.Outcome State Fault Refusal} {p : State → Bool} (h : (nextState? o).any p = true) :
    ∃ t, o = .next t ∧ p t = true := by
  cases o with
  | next t => exact ⟨t, rfl, h⟩
  | fault f => exact nomatch f
  | refused r => cases h

theorem illegal_of_error {w : Word} {e : DecodeError} (h : decode w = .error e) : ∀ i, decode w ≠ .ok i :=
  fun i hi => by rw [h] at hi; cases hi

/-! ### Decoding: the words of 30_encoding.md R92 bit by bit, and their neighbours (Q1 to Q6) -/

theorem test_decode_b32enc : decode 0b00000000000000000000000000000001 = .ok .b32enc := rfl
theorem test_decode_b32dec : decode 0b00000000000000000000000000000010 = .ok .b32dec := rfl
theorem test_decode_genkey : decode 0b00000000000000000000000000010000 = .ok .genkey := rfl
theorem test_decode_trunc : decode 0b00000000000000000000000000010001 = .ok .trunc := rfl
theorem test_decode_compute : decode 0b00000000000000000000000000010010 = .ok .compute := rfl
theorem test_decode_tstep : decode 0b00000000000000000000000000010011 = .ok .tstep := rfl
theorem test_decode_totp : decode 0b00000000000000000000000000010100 = .ok .totp := rfl
theorem test_decode_validate : decode 0b00000000000000000000000000010101 = .ok .validate := rfl
theorem test_decode_validates : decode 0b00000000000000000000000000010110 = .ok .validates := rfl
theorem test_decode_gap : decode 0x00000003 = .error .unknownOpcode ∧ decode 0x0000000F = .error .unknownOpcode := ⟨rfl, rfl⟩
theorem test_decode_zero_field : decode 0x00000101 = .error .zeroFieldNotZero ∧ decode 0xFFFFFFFF = .error .zeroFieldNotZero :=
  ⟨rfl, rfl⟩
theorem test_table_word : decodeTableWord 32 0x14 = some .totp ∧ decodeTableWord 32 0x17 = none := by decide
/-- The placed word is what the next step runs (60_exceptions.md R216, Q1). -/
theorem test_fetch_word : (after 0x00 State.reset).map State.status = some 0x61 := by decide +kernel

/-! ### Well-formedness: an ill-formed term for each check -/

theorem test_params_cand_max_too_small : Params.wellFormed { Params.defaults with candMax := 999998 } = false := by decide
theorem test_params_cand_max_least : Params.wellFormed { Params.defaults with candMax := 999999 } = true := by decide
theorem test_line_above_capacity :
    Line.wellFormed Params.defaults (.wrb .mac 20 0) = false ∧ Line.wellFormed Params.defaults (.rdb .key 65535) = false := by
  decide
theorem test_line_below_capacity :
    Line.wellFormed Params.defaults (.wrb .mac 19 0) = true ∧ Line.wellFormed Params.defaults (.rdb .key 65534) = true := by
  decide

/-! ### One step of each instruction -/

/-- X4. -/
theorem test_b32enc_three_bytes : ((after 0x01 (source [0x66, 0x6F, 0x6F] State.reset)).map fun t => (t.status, dst t)) =
    some (0x01, [some 0x4D, some 0x5A, some 0x58, some 0x57, some 0x36, some 0x3D, some 0x3D, some 0x3D]) := by decide +kernel
/-- E11. -/
theorem test_b32enc_too_long : ((after 0x01 { State.reset with srcLen := 40956 }).map fun t => (t.status, t.dstLen)) =
    some (0x41, 0) := by decide +kernel
/-- B23. -/
theorem test_b32dec_lower_case :
    ((after 0x02 (source [0x6D, 0x7A, 0x78, 0x77, 0x36, 0x79, 0x74, 0x62, 0x6F, 0x69, 0x3D] State.reset)).map
      fun t => (t.status, dst t)) = some (0x01, [some 0x66, some 0x6F, some 0x6F, some 0x62, some 0x61, some 0x72]) := by
  decide +kernel
/-- F1. -/
theorem test_b32dec_inner_pad : (after 0x02 (source [0x4D, 0x59, 0x3D, 0x41] State.reset)).map State.status = some 0x11 := by
  decide +kernel
/-- G1. -/
theorem test_genkey_default_length :
    ((after 0x10 (random (.bytes [0x3A, 0x91, 0x0C, 0x77, 0xE2, 0x58, 0xB4, 0x0F, 0x6D, 0xC1]) State.reset)).map
      fun t => (t.status, dst t)) = some (0x01, [some 0x3A, some 0x91, some 0x0C, some 0x77, some 0xE2, some 0x58, some 0xB4,
        some 0x0F, some 0x6D, some 0xC1]) := by decide +kernel
/-- G4. -/
theorem test_genkey_unavailable : ((after 0x10 (random .unavailable State.reset)).map fun t => (t.status, t.dstLen)) =
    some (0x55, 0) := by decide +kernel
/-- T1. -/
theorem test_trunc_inside :
    ((after 0x11 (load .mac (#v[0x1F, 0x86, 0x98, 0x69, 0x0E, 0x02, 0xCA, 0x16, 0x61, 0x85, 0x50, 0xEF, 0x7F, 0x19, 0xDA, 0x8E, 0x94, 0x5B, 0x55, 0x5A] : Digest).toList State.reset)).map fun t => (t.offset, t.bincode, t.code)) =
      some (10, 0x50EF7F19, 872921) := by decide +kernel
/-- T5. -/
theorem test_trunc_top_bit :
    ((after 0x11 (load .mac (#v[0x80, 0x81, 0x82, 0x83, 0x84, 0x85, 0x86, 0x87, 0x88, 0x89, 0x8A, 0x8B, 0x8C, 0x8D, 0x8E, 0x8F, 0x90, 0x91, 0x92, 0x93] : Digest).toList State.reset)).map fun t => (t.offset, t.bincode, t.code)) =
      some (3, 0x03848586, 16582) := by decide +kernel
/-- H14: the counter big-endian, the modifier after it. -/
theorem test_compute_modifier :
    ((after 0x12 (answers [([0x00, 0x00, 0x00, 0x00, 0x00, 0x00, 0x00, 0x01, 0x61, 0x6C, 0x69, 0x63, 0x65], #v[0x6C, 0xEE, 0x1A, 0x05, 0x04, 0x05, 0x55, 0x3D, 0x25, 0x9A, 0x21, 0x78, 0x6D, 0x9A, 0xC5, 0xF4, 0xEF, 0xF2, 0x3F, 0x0F])]
      { load .mod [0x61, 0x6C, 0x69, 0x63, 0x65] (keyed State.reset) with ctrLo := 1, modLen := 5 })).map
      fun t => (t.status, t.offset, t.bincode, t.code)) = some (0x01, 15, 0x74EFF23F, 882175) := by decide +kernel
/-- H21. -/
theorem test_compute_no_secret : ((after 0x12 { State.reset with keyLen := 0x14, code := 755224 }).map
    fun t => (t.status, t.code)) = some (0x21, 755224) := by decide +kernel
/-- S14. -/
theorem test_tstep_largest : ((after 0x13 (clock 0xFFFFFFFFFFFFFFFF State.reset)).map fun t => (t.status, t.tsHi, t.tsLo)) =
    some (0x01, 0x08888888, 0x88888888) := by decide +kernel
/-- O1. -/
theorem test_totp :
    ((after 0x14 (answers [([0x00, 0x00, 0x00, 0x00, 0x00, 0x00, 0x00, 0x01], #v[0x75, 0xA4, 0x8A, 0x19, 0xD4, 0xCB, 0xE1, 0x00, 0x64, 0x4E, 0x8A, 0xC1, 0x39, 0x7E, 0xEA, 0x74, 0x7A, 0x2D, 0x33, 0xAB])] (clock 59 (keyed State.reset)))).map
      fun t => (t.status, t.ts, t.code, t.ctrLo)) = some (0x01, 1, 287082, 0) := by decide +kernel
/-- O7. -/
theorem test_totp_no_secret : ((after 0x14 (clock 59 State.reset)).map fun t => (t.status, t.tsLo, t.ports.clockReads)) =
    some (0x21, 0, 0) := by decide +kernel

/-- The assumed answers of H11, H10 and H0: the counters 2^64 - 2, 2^64 - 1 and 0. -/
def wrapping (s : State) : State :=
  answers [([0xFF, 0xFF, 0xFF, 0xFF, 0xFF, 0xFF, 0xFF, 0xFE], #v[0x35, 0x11, 0x45, 0xCC, 0xDC, 0x07, 0x4C, 0xAA, 0x7F, 0xEE, 0xC5, 0xD7, 0x3E, 0x91, 0xE7, 0xFB, 0xAD, 0xFB, 0x32, 0xB3]),
    ([0xFF, 0xFF, 0xFF, 0xFF, 0xFF, 0xFF, 0xFF, 0xFF], #v[0xF6, 0x16, 0xFD, 0x66, 0xB7, 0xF0, 0x62, 0x90, 0x68, 0x6B, 0x63, 0x20, 0xCE, 0xB3, 0x4D, 0x65, 0xB1, 0xFE, 0x93, 0xEA]),
    ([0x00, 0x00, 0x00, 0x00, 0x00, 0x00, 0x00, 0x00], #v[0xCC, 0x93, 0xCF, 0x18, 0x50, 0x8D, 0x94, 0x93, 0x4C, 0x64, 0xB6, 0x5D, 0x8B, 0xA7, 0x66, 0x7F, 0xB7, 0xCD, 0xE4, 0xB0])] (clock 0 (keyed s))

/-- W10. -/
theorem test_validate_wraps : ((after 0x15 (wrapping { State.reset with cand := 755224 })).map
    fun t => (t.status, t.ports.hmacCalls, t.code)) = some (0x03, 3, 0) := by decide +kernel
/-- W15. -/
theorem test_validate_no_secret : ((after 0x15 { State.reset with cand := 81804 }).map
    fun t => (t.status, t.ports.hmacCalls)) = some (0x21, 0) := by decide +kernel
/-- The window of W10 with the candidate as a digit string (R195). -/
theorem test_validates_wraps : ((after 0x16 (wrapping (source [0x37, 0x35, 0x35, 0x32, 0x32, 0x34] State.reset))).map
    fun t => (t.status, t.cand)) = some (0x03, 755224) := by decide +kernel
/-- Y8. -/
theorem test_validates_too_large :
    ((after 0x16 (keyed (source [0x32, 0x31, 0x34, 0x37, 0x34, 0x38, 0x33, 0x36, 0x34, 0x38] State.reset))).map
      fun t => (t.status, t.cand, t.ports.clockReads)) = some (0x11, 0, 0) := by decide +kernel

/-! ### Host accesses and reset -/

/-- G8. -/
theorem test_rlen_zero_bits : (nextState? (hostWrite State.reset .w32 0x14 0x00010005)).map State.rlen = some 5 := by
  decide +kernel
/-- Q8. -/
theorem test_read_cmd : (nextState? (hostRead (keyed State.reset) .w32 0x00)).map (fun t => t.host.readData) =
    some (some (.word 0)) := by decide +kernel
/-- A byte written to `MAC` is read back; `DST` ignores writes (20_memory.md R69, R75). -/
theorem test_write_bytes : ((nextState? (hostWrite State.reset .w8 0x53 0xA5)).map fun t => t.mem) = some [(0x53, 0xA5)]
    ∧ ((nextState? (hostWrite State.reset .w8 0x40000 0xA5)).map fun t => t.mem) = some [] := by decide +kernel
/-- R71: offset 0x54, the first above `MAC`, and the last offset of the `KEY` window are refused. -/
theorem test_unmapped_refused :
    hostRead State.reset .w8 0x54 = .refused (.unmapped 0x54)
    ∧ hostWrite State.reset .w8 0x1FFFF 1 = .refused (.unmapped 0x1FFFF) := ⟨rfl, rfl⟩
/-- R250: reset clears the lock. -/
theorem test_reset_clears_lock :
    (nextState? (performEvent { State.reset with status := 0x55, host := ⟨true, [], none⟩ } (.resetInput false))).map
      (fun t => (t.status, t.host.resetAsserted)) = some (0, false) := by decide +kernel
/-- R96: `SETCTR` and `LDSRC` as bus events. -/
theorem test_script :
    (Pseudo.lines State.reset (.setctr 0x0000000100000002)).map (Line.event Params.defaults)
      = [.write .w32 0x08 2, .write .w32 0x0C 1]
    ∧ (Pseudo.lines State.reset (.ldsrc [0x66])).map (Line.event Params.defaults)
      = [.write .w8 0x30000 0x66, .write .w32 0x20 1] := by decide +kernel

/-! ### Witnesses: states -/

/-- The lock is set. -/
def locked : State := { State.reset with status := 0x55 }

/-- Every command has its operands: all nine succeed (the source is both Base32 text and a digit string). -/
def full : State :=
  answers [([0xFF, 0xFF, 0xFF, 0xFF, 0xFF, 0xFF, 0xFF, 0xFF], zeros), ([0, 0, 0, 0, 0, 0, 0, 0], zeros),
    ([0, 0, 0, 0, 0, 0, 0, 1], zeros), ([0, 0, 0, 0, 0, 0, 0, 2], zeros), ([0, 0, 0, 0, 0, 0, 0, 3], zeros)]
    (random (.bytes [1, 2, 3]) (clock 59 (load .mac zeros.toList (source [0x34, 0x32] (keyed { State.reset with cand := 7 })))))

/-- Capacities at the bounds of the operands: three bytes of source, eight of destination, twenty of secret. -/
def tight : State :=
  { keyed (source [0x66, 0x6F, 0x6F] State.reset) with
    cfg := { Params.defaults with srcMax := 3, dstMax := 8, keyMax := 20 } }

/-- The code of step 37037036 (H12) is the candidate. -/
def stepped (t : DWord) : State :=
  { answers [([0x00, 0x00, 0x00, 0x00, 0x02, 0x35, 0x23, 0xEC], #v[0x27, 0x8C, 0x02, 0xE5, 0x36, 0x10, 0xF8, 0x4C, 0x40, 0xBD, 0x91, 0x35, 0xAC, 0xD4, 0x10, 0x10, 0x12, 0x41, 0x0A, 0x14])] (clock t (keyed State.reset)) with cand := 81804 }

def withEvents (l : List BusEvent) (s : State) : State := { s with host := { s.host with pending := l } }

/-! ### Witnesses: commands and steps -/

/-- Q1, Q3, Q4. -/
theorem witness_IllegalCommand : (keyed State.reset).fatal = false
    ∧ ∀ w ∈ [0x00, 0x17, 0x101],
      BitVec.ofNat 32 w ∉ [(0x01 : Word), 0x02, 0x10, 0x11, 0x12, 0x13, 0x14, 0x15, 0x16] := by decide +kernel

/-- Two illegal words and a legal one. -/
theorem witness_IllegalWords : (∃ e, decode 0x100 = .error e) ∧ (∃ e, decode 0x17 = .error e)
    ∧ decode 0x16 = .ok .validates := ⟨⟨_, rfl⟩, ⟨_, rfl⟩, rfl⟩

theorem witness_StepRunsCommand :
    (withEvents [.write .w32 0 1] State.reset).host.resetAsserted = false
    ∧ (withEvents [.write .w32 0 1] State.reset).host.pending = .write .w32 Params.defaults.base 1 :: []
    ∧ decode ((1 : DWord).setWidth 32) = .ok .b32enc ∧ ∀ i, decode ((0x17 : DWord).setWidth 32) ≠ .ok i :=
  ⟨rfl, rfl, rfl, illegal_of_error rfl⟩

theorem witness_StepTakesNextEvent :
    (withEvents [.read .w32 4] State.reset).host.pending = .read .w32 4 :: [] ∧ State.reset.host.pending = []
    ∧ State.reset.host.resetAsserted = false := ⟨rfl, rfl, rfl⟩

/-- The invariant holds of a state with every kind of operand in it, and its next step is a command. -/
theorem witness_InvStep : Inv (withEvents [.write .w32 0 1] full) ∧ ∃ t, step (withEvents [.write .w32 0 1] full) = .next t :=
  ⟨{ memWf := by decide +kernel, memMapped := by decide +kernel, status := by decide, rlen := by decide, keyLen := by decide,
      modLen := by decide, srcLen := by decide, dstLen := by decide, dstWritten := by decide, offset := by decide,
      bincode := by decide, code := by decide, ts := by decide +kernel },
    (next_any (p := fun _ => true) (by decide +kernel)).imp fun _ h => h.1⟩

theorem witness_ParametersFixed : ∃ t, step (withEvents [.write .w32 0 0x13] full) = .next t :=
  (next_any (p := fun _ => true) (by decide +kernel)).imp fun _ h => h.1

theorem witness_FatalLock :
    ((random .unavailable State.reset).fatal = false
      ∧ lenField (random .unavailable State.reset).rlen ≤ (random .unavailable State.reset).cfg.dstMax.toNat
      ∧ (random .unavailable State.reset).ports.rngNow (lenField (random .unavailable State.reset).rlen) = none)
    ∧ locked.fatal = true ∧ Reg.rlen ≠ .cmd ∧ 65534 < Buffer.key.capacity locked.cfg ∧ 19 < Buffer.mac.capacity locked.cfg
    ∧ ∃ t, step (withEvents [.write .w32 0 1] locked) = .next t :=
  ⟨by decide +kernel, by decide +kernel, by decide, by decide, by decide,
    (next_any (p := fun _ => true) (by decide +kernel)).imp fun _ h => h.1⟩

theorem witness_ErrorEntry : State.reset.fatal = false ∧ (∃ t, writeCmd 0x12 State.reset = .next t ∧ decide (t.err = 2) = true)
    ∧ (∃ t, writeCmd 0x17 State.reset = .next t ∧ decide (t.err = 6) = true)
    ∧ ∃ t, writeCmd 0x01 { State.reset with srcLen := 40956 } = .next t ∧ decide (t.err = 4) = true :=
  ⟨by decide +kernel, next_any (by decide +kernel), next_any (by decide +kernel), next_any (by decide +kernel)⟩

/-- A command that matches, and one that sets the lock. -/
theorem witness_StatusAfterCommand :
    (wrapping { State.reset with cand := 755224 }).fatal = false
    ∧ (∃ t, writeCmd 0x15 (wrapping { State.reset with cand := 755224 }) = .next t ∧ t.matched = true)
    ∧ ∃ t, writeCmd 0x10 (random .unavailable State.reset) = .next t ∧ t.fatal = true :=
  ⟨by decide +kernel, next_any (by decide +kernel), next_any (by decide +kernel)⟩

/-- Every command succeeds in `full`: the premise of every statement about a command's next state. -/
theorem witness_commands_succeed (i : Instr) : full.fatal = false ∧ ∃ t, exec i full = .next t ∧ decide (t.err = 0) = true :=
  ⟨by decide +kernel, next_any (by cases i <;> decide +kernel)⟩

theorem witness_ErrorsByCommand : full.fatal = false ∧ ∃ t, exec .genkey full = .next t :=
  ⟨(witness_commands_succeed .genkey).1, (witness_commands_succeed .genkey).2.imp fun _ h => h.1⟩

theorem witness_PortCalls : full.fatal = false ∧ ∃ t, exec .validate full = .next t ∧ decide (t.ports.hmacCalls = 5) = true :=
  ⟨by decide +kernel, next_any (by decide +kernel)⟩

theorem witness_CommandsKeepOperands : (∃ t, writeCmd 0x16 full = .next t) ∧ decode 0x15 ≠ .ok .validates :=
  ⟨(next_any (p := fun _ => true) (by decide +kernel)).imp fun _ h => h.1, nofun⟩

/-- Both cases: a command that ends, and TRUNC with nothing in `MAC`, which names a byte of it. -/
theorem witness_CommandStops :
    (∃ t, writeCmd 0x01 State.reset = .next t)
    ∧ (decode 0x11 = .ok .trunc ∧ State.reset.fatal = false ∧ (Buffer.mac, 20) ∈ operandBuffers State.reset .trunc
      ∧ 20 ≤ Buffer.mac.capacity State.reset.cfg ∧ State.reset.mem.read (Buffer.mac.base + 0) = none)
    ∧ writeCmd 0x11 State.reset = .refused (.unwrittenByte (Buffer.mac.base + 0)) :=
  ⟨(next_any (p := fun _ => true) (by decide +kernel)).imp fun _ h => h.1,
    ⟨rfl, rfl, List.mem_singleton.2 rfl, by decide, rfl⟩,
    show runCommand State.reset (truncBody State.reset) = _ from runCommand_unwritten (by decide +kernel) rfl⟩

theorem witness_WrittenOperandsSuffice :
    (∀ i < 20, (full.mem.read (Buffer.mac.base + i)).isSome = true)
    ∧ (∀ i < lenField full.keyLen, (full.mem.read (Buffer.key.base + i)).isSome = true)
    ∧ (∀ i < lenField full.modLen, (full.mem.read (Buffer.mod.base + i)).isSome = true)
    ∧ ∀ i < lenField full.srcLen, (full.mem.read (Buffer.src.base + i)).isSome = true := by decide +kernel

/-- COMPUTE, TOTP and VALIDATE: a secret with one byte short, and the longest modifier with its first byte missing;
B32ENC: a source nothing has written. The cases of B32DEC and VALIDATES are in the next four witnesses. -/
theorem witness_UnwrittenOperandRefused :
    (∀ s ∈ [{ keyed State.reset with keyLen := 0x80000015 }, { keyed State.reset with modLen := 65527 }],
      s.fatal = false ∧ ¬ KeyModTooLong s ∧ s.keyValid = true ∧ lenField s.modLen ≤ 65527
      ∧ (20 < lenField s.keyLen ∧ s.mem.read (Buffer.key.base + 20) = none
        ∨ 0 < lenField s.modLen ∧ s.mem.read (Buffer.mod.base + 0) = none))
    ∧ ∀ s ∈ [{ State.reset with srcLen := 40955 }], s.fatal = false ∧ lenField s.srcLen ≤ s.cfg.srcMax.toNat
      ∧ encodedLength (lenField s.srcLen) ≤ s.cfg.dstMax.toNat ∧ 40954 < lenField s.srcLen
      ∧ s.mem.read (Buffer.src.base + 40954) = none := by decide +kernel

/-- Stripping of pads: the character before the pads is missing; of pads alone, the first is. -/
theorem witness_UnwrittenOperandRefused_stripping :
    ∀ si ∈ [(({ State.reset with mem := [(0x30002, 0x3D)], srcLen := 3 } : State), 1),
        ({ State.reset with mem := [(0x30001, 0x3D), (0x30002, 0x3D)], srcLen := 3 }, 0)],
      si.1.fatal = false ∧ lenField si.1.srcLen ≤ si.1.cfg.srcMax.toNat ∧ si.2 < lenField si.1.srcLen
      ∧ si.1.mem.read (Buffer.src.base + si.2) = none
      ∧ ∀ j < lenField si.1.srcLen, si.2 < j → si.1.mem.read (Buffer.src.base + j) = some 0x3D := by decide +kernel

/-- Decoding: the first character is missing; the last but one is. -/
theorem witness_UnwrittenOperandRefused_decoding :
    ∀ sb ∈ [(({ State.reset with mem := [(0x30002, 0x41), (0x30003, 0x3D)], srcLen := 4 } : State), ([] : List Byte)),
        ({ State.reset with mem := [(0x30000, 0x4D), (0x30002, 0x41), (0x30003, 0x3D)], srcLen := 4 }, [0x4D])],
      sb.1.fatal = false ∧ lenField sb.1.srcLen ≤ sb.1.cfg.srcMax.toNat ∧ 2 < lenField sb.1.srcLen
      ∧ sb.1.mem.read (Buffer.src.base + 2) = some 0x41 ∧ (0x41 : Byte) ≠ 0x3D
      ∧ (∀ j < lenField sb.1.srcLen, 2 < j → sb.1.mem.read (Buffer.src.base + j) = some 0x3D)
      ∧ 5 * (2 + 1) / 8 ≤ sb.1.cfg.dstMax.toNat ∧ sb.2.length < 2 ∧ Holds sb.1 .src sb.2
      ∧ (∀ x ∈ sb.2, (symbolValue x).isSome = true)
      ∧ sb.1.mem.read (Buffer.src.base + sb.2.length) = none := by decide +kernel

/-- Parsing: nothing of the candidate string is written; it goes on after the written digits. -/
theorem witness_UnwrittenOperandRefused_parsing :
    ∀ sb ∈ [(({ keyed State.reset with srcLen := 1 } : State), ([] : List Byte)),
        ({ keyed (source [0x34, 0x32] State.reset) with srcLen := 3 }, [0x34, 0x32])],
      sb.1.fatal = false ∧ lenField sb.1.srcLen ≤ sb.1.cfg.srcMax.toNat ∧ ¬ KeyModTooLong sb.1 ∧ sb.1.keyValid = true
      ∧ sb.2.length < lenField sb.1.srcLen ∧ Holds sb.1 .src sb.2 ∧ sb.2.all isDigit = true
      ∧ decimalValue sb.2 ≤ sb.1.cfg.candMax.toNat
      ∧ sb.1.mem.read (Buffer.src.base + sb.2.length) = none := by decide +kernel

/-- VALIDATES past its parsing: a secret with one byte short, and the longest modifier with its first byte missing. -/
theorem witness_UnwrittenOperandRefused_validates :
    ∀ s ∈ [{ keyed (source [0x34, 0x32] State.reset) with keyLen := 0x80000015 },
        { keyed (source [0x34, 0x32] State.reset) with modLen := 65527 }],
      s.fatal = false ∧ lenField s.srcLen = [0x34#8, 0x32#8].length ∧ Holds s .src [0x34, 0x32]
      ∧ [0x34#8, 0x32#8].length ≤ s.cfg.srcMax.toNat ∧ validCandidate s.cfg.candMax.toNat [0x34, 0x32] = true
      ∧ ¬ KeyModTooLong s ∧ s.keyValid = true ∧ lenField s.modLen ≤ 65527
      ∧ (20 < lenField s.keyLen ∧ s.mem.read (Buffer.key.base + 20) = none
        ∨ 0 < lenField s.modLen ∧ s.mem.read (Buffer.mod.base + 0) = none) := by decide +kernel

/-! ### Witnesses: Base32 -/

theorem witness_B32encResult :
    (tight.fatal = false ∧ lenField tight.srcLen = [0x66#8, 0x6F#8, 0x6F#8].length ∧ Holds tight .src [0x66, 0x6F, 0x6F]
      ∧ 3 ≤ tight.cfg.srcMax.toNat ∧ encodedLength 3 ≤ tight.cfg.dstMax.toNat)
    ∧ tight.cfg.srcMax.toNat < lenField { tight with srcLen := 4 }.srcLen
    ∧ Params.defaults.dstMax.toNat < encodedLength (lenField { State.reset with srcLen := 40956 }.srcLen) := by decide +kernel

/-- MY====== into one byte of destination, the same into none, a source above its capacity, and M1=. -/
theorem witness_B32decResult :
    (∀ text ∈ [[0x4D#8, 0x59#8, 0x3D#8, 0x3D#8, 0x3D#8, 0x3D#8, 0x3D#8, 0x3D#8]],
      lenField (source text State.reset).srcLen = text.length ∧ Holds (source text State.reset) .src text
      ∧ text.length ≤ 8 ∧ 5 * strippedLength text / 8 ≤ 1 ∧ decodable text = true ∧ 0 < 5 * strippedLength text / 8)
    ∧ tight.cfg.srcMax.toNat < lenField { tight with srcLen := 4 }.srcLen
    ∧ ∀ text ∈ [[0x4D#8, 0x31#8, 0x3D#8]],
      lenField (source text State.reset).srcLen = text.length ∧ Holds (source text State.reset) .src text
      ∧ text.length ≤ 65535 ∧ 5 * strippedLength text / 8 ≤ 65535 ∧ decodable text = false := by decide +kernel

/-- The eight characters of foo fit both capacities exactly; the second state holds them as its source. -/
theorem witness_Base32RoundTrip :
    ∀ s ∈ [{ source [0x66, 0x6F, 0x6F] State.reset with cfg := { Params.defaults with srcMax := 8, dstMax := 8 } }],
      s.fatal = false ∧ lenField s.srcLen = [0x66#8, 0x6F#8, 0x6F#8].length ∧ Holds s .src [0x66, 0x6F, 0x6F]
      ∧ 3 ≤ s.cfg.srcMax.toNat ∧ encodedLength 3 ≤ min s.cfg.dstMax.toNat s.cfg.srcMax.toNat
      ∧ ∀ u ∈ [({ source [0x4D, 0x5A, 0x58, 0x57, 0x36, 0x3D, 0x3D, 0x3D] State.reset with cfg := s.cfg } : State)],
        u.fatal = false ∧ u.cfg = s.cfg ∧ (nextState? (exec .b32enc s)).any (fun t : State =>
          decide (lenField u.srcLen = lenField t.dstLen) && (List.range (lenField t.dstLen)).all fun i =>
            decide (u.mem.read (Buffer.src.base + i) = t.mem.read (Buffer.dst.base + i))) = true := by decide +kernel

/-- Two states that differ outside the source. -/
theorem witness_Base32DependsOnSource :
    full.fatal = false ∧ (source [0x34, 0x32] State.reset).fatal = false ∧ (source [0x34, 0x32] State.reset).cfg = full.cfg
    ∧ lenField (source [0x34, 0x32] State.reset).srcLen = lenField full.srcLen
    ∧ (∀ i < lenField full.srcLen, (source [0x34, 0x32] State.reset).mem.read (Buffer.src.base + i)
        = full.mem.read (Buffer.src.base + i))
    ∧ (nextState? (exec .b32dec full)).isSome = true ∧ source [0x34, 0x32] State.reset ≠ full := by decide +kernel

theorem witness_FrameDstCommands : (∃ t, exec .b32enc full = .next t) ∧ (∃ t, exec .b32dec full = .next t)
    ∧ ∃ t, exec .genkey full = .next t :=
  ⟨(witness_commands_succeed .b32enc).2.imp fun _ h => h.1, (witness_commands_succeed .b32dec).2.imp fun _ h => h.1,
    (witness_commands_succeed .genkey).2.imp fun _ h => h.1⟩

/-! ### Witnesses: codes and random bytes -/

/-- A digest in `MAC`; the lock; the last byte of `MAC` missing. -/
theorem witness_TruncResult :
    (full.fatal = false ∧ Holds full .mac zeros.toList) ∧ locked.fatal = true
    ∧ (load .mac (List.replicate 19 0) State.reset).fatal = false
    ∧ (load .mac (List.replicate 19 0) State.reset).mem.read (Buffer.mac.base + 19) = none := by decide +kernel

theorem witness_TruncateRanges :
    (0xF0 : Byte).toNat % 16 = zeros[19].toNat % 16 ∧ (truncOffset zeros).toNat < 20
    ∧ (0x80 : Byte).toNat % 128 = zeros[0].toNat % 128 := by decide +kernel

theorem witness_FrameTrunc : ∃ t, exec .trunc full = .next t := (witness_commands_succeed .trunc).2.imp fun _ h => h.1

/-- The premises of the result statements of COMPUTE, TOTP and VALIDATE, the secret filling its buffer. -/
theorem witness_SecretReady : tight.fatal = false ∧ SecretReady tight secret [] := by decide +kernel

/-- H26 and H25; H27; the shortest modifier that overflows. -/
theorem witness_SecretErrors :
    KeyModTooLong { tight with keyLen := 0x80000015 } ∧ KeyModTooLong { tight with modLen := 1, cfg := { tight.cfg with modMax := 0 } }
    ∧ (¬ KeyModTooLong { tight with keyLen := 0x00000015 } ∧ { tight with keyLen := 0x00000015 }.keyValid = false)
    ∧ ¬ KeyModTooLong { tight with modLen := 65528 } ∧ { tight with modLen := 65528 }.keyValid = true
    ∧ 65527 < lenField { tight with modLen := 65528 }.modLen := by decide +kernel

theorem witness_OverflowExactly :
    (∀ s ∈ [keyed (source [0x30] { State.reset with modLen := 65528 })], s.fatal = false ∧ ¬ KeyModTooLong s
      ∧ s.keyValid = true ∧ 65535 < 8 + lenField s.modLen ∧ lenField s.srcLen = [0x30#8].length ∧ Holds s .src [0x30]
      ∧ [0x30#8].length ≤ s.cfg.srcMax.toNat ∧ validCandidate s.cfg.candMax.toNat [0x30] = true)
    ∧ ∃ t, writeCmd 0x12 (keyed { State.reset with modLen := 65528 }) = .next t ∧ decide (t.err = 3) = true :=
  ⟨by decide +kernel, next_any (by decide +kernel)⟩

/-- Two states with the operands of COMPUTE in common, the other registers and buffers not. -/
theorem witness_ComputeDeterministic :
    ∀ s ∈ [{ keyed State.reset with cand := 7, dstLen := 1, ports := full.ports }], s.fatal = false ∧ full.fatal = false
      ∧ s.cfg = full.cfg ∧ s.keyLen = full.keyLen ∧ s.modLen = full.modLen ∧ s.ctr = full.ctr
      ∧ s.ports.hmacAnswers = full.ports.hmacAnswers
      ∧ (∀ i < lenField full.keyLen, s.mem.read (Buffer.key.base + i) = full.mem.read (Buffer.key.base + i))
      ∧ (∀ i < lenField full.modLen, s.mem.read (Buffer.mod.base + i) = full.mem.read (Buffer.mod.base + i))
      ∧ (nextState? (exec .compute full)).isSome = true := by decide +kernel

theorem witness_FrameCodeCommands : (∃ t, exec .compute full = .next t) ∧ ∃ t, exec .totp full = .next t :=
  ⟨(witness_commands_succeed .compute).2.imp fun _ h => h.1, (witness_commands_succeed .totp).2.imp fun _ h => h.1⟩

/-- G1, G4, G7. -/
theorem witness_GenkeyResult :
    (∀ s ∈ [random (.bytes [1, 2, 3, 4, 5, 6, 7, 8, 9, 10]) { State.reset with cfg := { Params.defaults with dstMax := 10 } }],
      s.fatal = false ∧ lenField s.rlen ≤ s.cfg.dstMax.toNat
      ∧ s.ports.rngNow (lenField s.rlen) = some [1, 2, 3, 4, 5, 6, 7, 8, 9, 10])
    ∧ (random .unavailable State.reset).ports.rngNow 10 = none
    ∧ ∀ s ∈ [{ State.reset with rlen := 1025, cfg := { Params.defaults with dstMax := 1024 } }],
      s.fatal = false ∧ s.cfg.dstMax.toNat < lenField s.rlen := by decide +kernel

/-! ### Witnesses: time step and window -/

theorem witness_TstepResult : (clock 59 State.reset).fatal = false := by decide +kernel

/-- S1 and S2: the ends of the first window; S5: the next but one. -/
theorem witness_TimeStepLaws : 30 * 0 ≤ (0 : DWord).toNat ∧ (0 : DWord).toNat ≤ 30 * 0 + 29 ∧ 30 * 0 ≤ (29 : DWord).toNat
    ∧ (29 : DWord).toNat ≤ 30 * 0 + 29 ∧ (29 : DWord).toNat ≤ (60 : DWord).toNat := by decide

/-- W10: a match; W8: none. -/
theorem witness_ValidateResult :
    (wrapping { State.reset with cand := 755224 }).fatal = false
    ∧ SecretReady (wrapping { State.reset with cand := 755224 }) secret []
    ∧ Matches (wrapping State.reset).ports secret [] (stepNow (wrapping State.reset)) 755224
    ∧ ¬ Matches (wrapping State.reset).ports secret [] (stepNow (wrapping State.reset)) 1000000 :=
  ⟨by decide +kernel, by decide +kernel, ⟨2, by decide, by decide +kernel⟩, fun ⟨_, _, h⟩ =>
    absurd h (Nat.ne_of_lt (codeOf_lt _))⟩

/-- W1 and W5: the step two ahead of the clock and the step two behind it. -/
theorem witness_WindowAccepts :
    ∀ s ∈ [stepped 1111111049, stepped 1111111169], s.fatal = false ∧ SecretReady s secret []
      ∧ stepNow s ≤ 37037036 + 2 ∧ 37037036 ≤ stepNow s + 2 ∧ s.cand.toNat = codeFor s.ports secret 37037036 [] := by decide +kernel

/-- The first and the last second of the span of 42_totp_window.md R191. -/
theorem witness_AcceptanceSpan :
    ∀ s ∈ [stepped 1111111020, stepped 1111111169], s.fatal = false ∧ SecretReady s secret []
      ∧ 30 * (37037036 - 2) ≤ s.ports.clockNow.toNat ∧ s.ports.clockNow.toNat ≤ 30 * (37037036 + 2) + 29
      ∧ s.cand.toNat = codeFor s.ports secret 37037036 [] := by decide +kernel

/-- W8 and W9. -/
theorem witness_LargeCandidate : ∀ s ∈ [{ tight with cand := 1000000 }, { tight with cand := 0x80000000 }],
    s.fatal = false ∧ SecretReady s secret [] ∧ 1000000 ≤ s.cand.toNat := by decide +kernel

/-- A digit string that matches (the window of W10) and Y6, which does not; Y20's source above its capacity; Y19; Y18; Y22. -/
theorem witness_ValidatesResult :
    (∀ s ∈ [wrapping (source [0x37, 0x35, 0x35, 0x32, 0x32, 0x34] State.reset)], s.fatal = false ∧ SecretReady s secret []
      ∧ lenField s.srcLen = 6 ∧ Holds s .src [0x37, 0x35, 0x35, 0x32, 0x32, 0x34] ∧ 6 ≤ s.cfg.srcMax.toNat
      ∧ validCandidate s.cfg.candMax.toNat [0x37, 0x35, 0x35, 0x32, 0x32, 0x34] = true
      ∧ decimalValue [0x37, 0x35, 0x35, 0x32, 0x32, 0x34] = 755224
      ∧ decimalValue [0x31, 0x30, 0x30, 0x30, 0x30, 0x30, 0x30] = 1000000)
    ∧ (∀ s ∈ [{ tight with srcLen := 4 }], s.fatal = false ∧ s.cfg.srcMax.toNat < lenField s.srcLen)
    ∧ (∀ s ∈ [{ tight with keyLen := 0 }], s.fatal = false ∧ lenField s.srcLen ≤ s.cfg.srcMax.toNat ∧ ¬ KeyModTooLong s
      ∧ s.keyValid = false)
    ∧ (∀ s ∈ [keyed (source [0x38, 0x3A] State.reset)], s.fatal = false ∧ lenField s.srcLen = 2 ∧ Holds s .src [0x38, 0x3A]
      ∧ 2 ≤ s.cfg.srcMax.toNat ∧ ¬ KeyModTooLong s ∧ s.keyValid = true
      ∧ validCandidate s.cfg.candMax.toNat [0x38, 0x3A] = false)
    ∧ ∀ s ∈ [keyed (source [0x30] { State.reset with modLen := 65535 })], s.fatal = false ∧ lenField s.srcLen = 1
      ∧ Holds s .src [0x30] ∧ 1 ≤ s.cfg.srcMax.toNat ∧ ¬ KeyModTooLong s ∧ s.keyValid = true
      ∧ validCandidate s.cfg.candMax.toNat [0x30] = true ∧ 65527 < lenField s.modLen := by decide +kernel

theorem witness_FrameWindowCommands : (∃ t, exec .tstep full = .next t) ∧ (∃ t, exec .validate full = .next t)
    ∧ ∃ t, exec .validates full = .next t :=
  ⟨(witness_commands_succeed .tstep).2.imp fun _ h => h.1, (witness_commands_succeed .validate).2.imp fun _ h => h.1,
    (witness_commands_succeed .validates).2.imp fun _ h => h.1⟩

/-! ### Witnesses: host accesses and reset -/

theorem witness_AddressMap :
    0 < Buffer.key.capacity Params.defaults ∧ 65534 < Buffer.key.capacity Params.defaults
    ∧ locate Params.defaults 0x3C = .reg .reserved ∧ locate Params.defaults 0x53 = .byte .mac 19
    ∧ locate { Params.defaults with base := 0x1000 } 0x1000 = .reg .cmd := by decide

theorem witness_BadAccessStops :
    Width.w64 ≠ .w32 ∧ (0x3F < 0x40 ∧ 0x3F % 4 ≠ 0) ∧ (19 < Buffer.mac.capacity Params.defaults ∧ Width.w32 ≠ .w8)
    ∧ (0x54 ≤ 0x54 ∧ 0xFFFF < 0x10000 ∧ 0x50000 ≤ 0x50000)
    ∧ (Buffer.key.capacity Params.defaults ≤ 65535 ∧ 65535 < 0x10000 ∧ Buffer.key ≠ .mac)
    ∧ 0xFFF < { State.reset with cfg := { Params.defaults with base := 0x1000 } }.cfg.base := by decide

theorem witness_RegisterWrite : Reg.cand ≠ .cmd ∧ Reg.rlen ≠ .cmd ∧ Reg.keyLen ≠ .cmd ∧ Reg.reserved ≠ .cmd
    ∧ Reg.cand ∈ [Reg.ctrLo, .ctrHi, .cand] ∧ Reg.rlen ∈ [Reg.rlen, .modLen, .srcLen]
    ∧ Reg.reserved ∈ [Reg.status, .dstLen, .code, .bincode, .offset, .tsLo, .tsHi, .reserved] ∧ Reg.cand ≠ Reg.rlen := by
  decide

theorem witness_ByteWrite : 65534 < Buffer.src.capacity State.reset.cfg ∧ 0 < Buffer.dst.capacity State.reset.cfg
    ∧ Buffer.src ≠ .dst := by decide

theorem witness_ReadsChangeNothing : ∃ t, hostRead State.reset .w32 0x3C = .next t := ⟨_, rfl⟩

/-- The last byte of `DST` below `DST_LEN`, and the last byte of `MAC`. -/
theorem witness_ByteRead :
    ∀ s ∈ [{ load .dst [0x66, 0x6F] full with dstLen := 2 }],
      1 < Buffer.dst.capacity s.cfg ∧ s.mem.read (Buffer.dst.base + 1) = some 0x6F ∧ 1 < lenField s.dstLen
      ∧ 19 < Buffer.mac.capacity s.cfg ∧ s.mem.read (Buffer.mac.base + 19) = some 0 := by decide +kernel

theorem witness_ResetInput :
    ∀ s ∈ [{ locked with host := ⟨true, [.resetInput false], none⟩ }],
      s.host.resetAsserted = true ∧ s.host.pending = .resetInput false :: []
      ∧ (withEvents [.resetInput true] s).host.pending = .resetInput true :: [] := by decide +kernel

/-- A `DST` of ten bytes and one of nine. -/
theorem witness_StraightAfterReset :
    ∀ c ∈ [({ Params.defaults with dstMax := 10 }, true), ({ Params.defaults with dstMax := 9 }, false)],
      { clock 59 State.reset with cfg := c.1 }
        = { State.reset with ports := (clock 59 State.reset).ports, cfg := c.1 }
      ∧ decide (10 ≤ c.1.dstMax.toNat) = c.2 ∧ decide (c.1.dstMax.toNat < 10) = !c.2 := by decide +kernel

end Sys2Proof.Tests
end

section
/-!
SUPPORT and the proof of O10: what is fixed for a run (00_scope.md R7, R14; 60_exceptions.md R233) is kept by each thing
a bus event can do, so by every step.
-/
namespace Sys2Proof.Machine

/-- The two states have the same parameter record and the same assumed points of `HMAC_SHA1`. -/
def SameParameters (s t : State) : Prop := t.cfg = s.cfg ∧ t.ports.hmacAnswers = s.ports.hmacAnswers

theorem SameParameters.refl (s : State) : SameParameters s s := ⟨rfl, rfl⟩

/-- No named update writes `cfg`, and the ports' draws (`afterClock`, `afterRng`, `afterHmac`) keep `hmacAnswers`. -/
theorem Effect.sameParameters {s t : State} {i : Instr} (h : Effect s i t) : SameParameters s t := by
  cases h <;> exact ⟨rfl, rfl⟩

theorem writeCmd_sameParameters {w : Word} {s t : State} (h : writeCmd w s = .next t) : SameParameters s t := by
  obtain ⟨-, rfl⟩ | ⟨-, -, rfl⟩ | ⟨-, i, -, he⟩ := writeCmd_next h
  · exact .refl t
  · exact ⟨rfl, rfl⟩
  · exact he.sameParameters

theorem hostWriteReg_sameParameters (s : State) (v : Word) (r : Reg) : SameParameters s (hostWriteReg s v r) := by
  cases r <;> exact ⟨rfl, rfl⟩

theorem hostWriteByte_sameParameters (s : State) (v : Byte) (b : Buffer) (i : Nat) :
    SameParameters s (hostWriteByte s v b i) := by
  cases b <;> exact ⟨rfl, rfl⟩

theorem hostRead_sameParameters {s t : State} {w : Width} {a : Nat} (h : hostRead s w a = .next t) :
    SameParameters s t := by
  obtain ⟨d, rfl⟩ := hostRead_next h
  exact ⟨rfl, rfl⟩

theorem hostWrite_sameParameters {s t : State} {w : Width} {a : Nat} {d : DWord} (h : hostWrite s w a d = .next t) :
    SameParameters s t := by
  obtain ⟨r, -, rfl⟩ | hcmd | ⟨b, i, -, rfl⟩ := hostWrite_next h
  · exact hostWriteReg_sameParameters s _ r
  · exact writeCmd_sameParameters hcmd
  · exact hostWriteByte_sameParameters s _ b i

/-- The release of reset too: `State.toReset` carries `cfg` and `ports` over (70_reset_and_hazards.md R250). -/
theorem resetInput_sameParameters (s : State) (b : Bool) : SameParameters s (resetInput s b) := by
  unfold resetInput
  split
  · exact ⟨rfl, rfl⟩
  · split
    · exact ⟨rfl, rfl⟩
    · exact .refl s

theorem performEvent_sameParameters {s t : State} {e : BusEvent} (h : performEvent s e = .next t) :
    SameParameters s t := by
  obtain ⟨b, -, rfl⟩ | ⟨-, w, a, -, hr⟩ | ⟨-, w, a, d, -, hw⟩ := performEvent_next h
  · exact resetInput_sameParameters s b
  · exact hostRead_sameParameters hr
  · exact hostWrite_sameParameters hw

/-- Settles O10: a step is idle or performs the next bus event, and taking the event off the list touches the host side
only. -/
theorem parametersFixed : Obligations.ParametersFixed := by
  intro s t h
  obtain ⟨-, rfl⟩ | ⟨e, rest, -, he⟩ := step_next h
  · exact SameParameters.refl t
  · obtain ⟨hcfg, hhmac⟩ := performEvent_sameParameters he
    exact ⟨hcfg, hhmac⟩

end Sys2Proof.Machine
end

section
/-!
SUPPORT and the proofs of O50, O8 and O9: the invariant holds of the reset values, whatever surrounds the block, each
effect of a command and each other thing a bus event can do keeps it, and so every step does.
-/
namespace Sys2Proof.Machine

/-- Settles O50: each register is a field of `State.reset`, and its memory lists nothing. -/
theorem resetValues : Obligations.ResetValues :=
  ⟨rfl, rfl, rfl, rfl, rfl, rfl, rfl, rfl, rfl, rfl, rfl, rfl, rfl, rfl, Memory.read_nil⟩

/-- Settles O8: memory is empty, and every register is 0 but `RLEN`. -/
theorem invReset : Obligations.InvReset where
  memWf := State.reset_mem_wf
  memMapped := fun _ hc => absurd hc List.not_mem_nil
  status := by decide
  rlen := by decide
  keyLen := by decide
  modLen := by decide
  srcLen := by decide
  dstLen := by decide
  dstWritten := fun i hi => absurd hi (Nat.not_lt_zero i)
  offset := by decide
  bincode := by decide
  code := by decide
  ts := by decide

/-- The release of reset keeps `cfg`, and no parameter bounds an empty memory or a `DST_LEN` of 0 (10_state.md R47,
R48). -/
theorem Inv.toReset (s : State) : Inv s.toReset :=
  { invReset with
    memMapped := fun _ hc => absurd hc List.not_mem_nil
    dstLen := Nat.zero_le _ }

theorem Inv.resetInput {s : State} (h : Inv s) (b : Bool) : Inv (resetInput s b) := by
  unfold Machine.resetInput
  split
  · exact h.setResetAsserted true
  · split
    · exact .toReset s
    · exact h

/-- The time step of a clock answer has the range that `Inv` asks of `TS` (42_totp_window.md R181). -/
theorem Inv.setTimeStep {s : State} (h : Inv s) (x : DWord) : Inv (s.setTs (timeStep x)) := h.setTs (timeStep_le x)

theorem Inv.validateCommit {s : State} (h : Inv s) (key modifier : List Byte) (cand : Word) :
    Inv (validateCommit s key modifier cand) := by
  rw [validateCommit_eq]
  exact ((h.setPorts _).setTimeStep _).succeed _

theorem Effect.inv {s t : State} {i : Instr} (hs : Inv s) (h : Effect s i t) : Inv t := by
  cases h with
  | error _ _ => exact hs.raiseError _
  | b32enc hsrc hd =>
    refine (hs.setDst ?_).succeed false
    rw [b32Encode_length, (readOperand_ok_iff.1 hsrc).1]
    exact hd
  | b32dec hd => exact (hs.setDst hd).succeed false
  | rngFatal _ => exact (hs.setPorts _).raiseError .rngFatal
  | genkey _ hd => exact ((hs.setPorts s.ports.afterRng).setDst hd).succeed false
  | trunc => exact (hs.setTruncation _).succeed false
  | compute => exact (hs.setCodeResult _).succeed false
  | tstep => exact ((hs.setPorts _).setTimeStep _).succeed false
  | totp => exact (((hs.setPorts _).setTimeStep _).setCodeResult _).succeed false
  | validate => exact hs.validateCommit _ _ _
  | validates => exact (hs.setCand _).validateCommit _ _ _

theorem Inv.writeCmd {w : Word} {s t : State} (hs : Inv s) (h : writeCmd w s = .next t) : Inv t := by
  obtain ⟨-, rfl⟩ | ⟨-, -, rfl⟩ | ⟨-, i, -, he⟩ := writeCmd_next h
  · exact hs
  · exact hs.raiseError .illegalCommand
  · exact he.inv hs

/-- What the address map calls a buffer byte is below the buffer's capacity. -/
theorem locate_byte_lt {p : Params} {a : Nat} {b : Buffer} {i : Nat} (h : locate p a = .byte b i) :
    i < b.capacity p := by
  obtain ⟨o, -, ho⟩ := locate_eq h nofun
  exact (locateOffset_eq_byte ho).1

theorem Inv.hostWrite {s t : State} {w : Width} {a : Nat} {d : DWord} (hs : Inv s)
    (h : hostWrite s w a d = .next t) : Inv t := by
  obtain ⟨r, -, rfl⟩ | hcmd | ⟨b, i, hloc, rfl⟩ := hostWrite_next h
  · exact hs.hostWriteReg _ r
  · exact hs.writeCmd hcmd
  · exact hs.hostWriteByte _ (locate_byte_lt hloc)

theorem Inv.hostRead {s t : State} {w : Width} {a : Nat} (hs : Inv s) (h : hostRead s w a = .next t) : Inv t := by
  obtain ⟨d, rfl⟩ := hostRead_next h
  exact hs.setReadData d

theorem Inv.performEvent {s t : State} {e : BusEvent} (hs : Inv s) (h : performEvent s e = .next t) : Inv t := by
  obtain ⟨b, -, rfl⟩ | ⟨-, w, a, -, hr⟩ | ⟨-, w, a, d, -, hw⟩ := performEvent_next h
  · exact hs.resetInput b
  · exact hs.hostRead hr
  · exact hs.hostWrite hw

/-- Settles O9: a step is idle or performs the next bus event, which keeps the invariant whatever the event is. -/
theorem invStep : Obligations.InvStep := by
  intro s t hs h
  obtain ⟨-, rfl⟩ | ⟨e, rest, -, he⟩ := step_next h
  · exact hs
  · exact (hs.setPending rest).performEvent he

end Sys2Proof.Machine
end

section
/-!
SUPPORT and the proof of O13: a command that is not ignored ends in `succeed` or in `raiseError`, and what each of the
two can leave in `STATUS` (10_state.md R33, R34; 60_exceptions.md R210).
-/
namespace Sys2Proof.Machine

/-- The end of each effect: a success, with `MATCH` only after the window unit, or an error, fatal only when the random
source is unavailable. -/
theorem Effect.ends {s t : State} {i : Instr} (h : Effect s i t) :
    (∃ r u, t = succeed r u ∧ (r = true → i = .validate ∨ i = .validates))
    ∨ ∃ e u, t = raiseError e u ∧ (e = .rngFatal → i = .genkey ∧ s.ports.rngNow (lenField s.rlen) = none) := by
  cases h with
  | error _ hne => exact .inr ⟨_, _, rfl, fun he => absurd he hne⟩
  | rngFatal hr => exact .inr ⟨_, _, rfl, fun _ => ⟨rfl, hr⟩⟩
  | validate => exact .inl ⟨_, _, validateCommit_eq .., fun _ => .inl rfl⟩
  | validates => exact .inl ⟨_, _, validateCommit_eq .., fun _ => .inr rfl⟩
  | b32enc | b32dec | genkey | trunc | compute | tstep | totp => exact .inl ⟨false, _, rfl, nofun⟩

/-- The end of a write to `CMD`: an illegal word ends like a command that raises `IllegalCommand`. -/
theorem writeCmd_ends {w : Word} {s t : State} (hf : s.fatal = false) (h : writeCmd w s = .next t) :
    (∃ r u, t = succeed r u ∧ (r = true → decode w = .ok .validate ∨ decode w = .ok .validates))
    ∨ ∃ e u, t = raiseError e u
        ∧ (e = .rngFatal → decode w = .ok .genkey ∧ s.ports.rngNow (lenField s.rlen) = none) := by
  obtain ⟨hlock, -⟩ | ⟨-, -, rfl⟩ | ⟨-, i, hi, he⟩ := writeCmd_next h
  · rw [hf] at hlock
    cases hlock
  · exact .inr ⟨.illegalCommand, s, rfl, nofun⟩
  · simpa only [hi, Except.ok.injEq] using he.ends

/-- Settles O13: `writeCmd_ends` leaves a success word or an error word, whose four fields are known. -/
theorem statusAfterCommand : Obligations.StatusAfterCommand := by
  intro w s t hf h
  obtain ⟨r, u, rfl, hmatch⟩ | ⟨e, u, rfl, hfatal⟩ := writeCmd_ends hf h
  · refine ⟨legalStatuses_succeed r, succeed_done r u, fun hm => ?_, fun hx => ?_⟩
    · rw [succeed_matched] at hm
      exact ⟨succeed_err r u, hmatch hm⟩
    · rw [succeed_fatal] at hx
      cases hx
  · refine ⟨legalStatuses_raise e, raiseError_done e u, fun hm => ?_, fun hx => ?_⟩
    · rw [raiseError_matched] at hm
      cases hm
    · rw [raiseError_fatal, decide_eq_true_eq] at hx
      obtain ⟨hdec, hrng⟩ := hfatal hx
      subst hx
      exact ⟨raiseError_err .rngFatal u, hdec, hrng⟩

end Sys2Proof.Machine
end

section
/-!
SUPPORT and the proof of O15: the registers and the host side that no command writes, and the two places of memory that
a command can store to, `DST` and `MAC`, both outside the offsets of `KEY`, `MOD` and `SRC` (20_memory.md R61, R70).
-/
namespace Sys2Proof.Machine

/-- The operand registers but `CAND`, the host side and the parameters agree in the two states. -/
def SameOperands (s t : State) : Prop :=
  t.ctrLo = s.ctrLo ∧ t.ctrHi = s.ctrHi ∧ t.rlen = s.rlen ∧ t.keyLen = s.keyLen ∧ t.modLen = s.modLen
    ∧ t.srcLen = s.srcLen ∧ t.host = s.host ∧ t.cfg = s.cfg

/-- No named update that a command makes writes these fields. -/
theorem Effect.sameOperands {s t : State} {i : Instr} (h : Effect s i t) : SameOperands s t := by
  cases h <;> simp [SameOperands, validateCommit_eq]

theorem Effect.cand {s t : State} {i : Instr} (h : Effect s i t) (hi : i ≠ .validates) : t.cand = s.cand := by
  cases h with
  | validates => exact absurd rfl hi
  | _ => simp [validateCommit_eq]

/-- What a command can do to memory: nothing, an output in `DST`, or a digest in `MAC` (20_memory.md R61, R65, R73). -/
theorem Effect.mem {s t : State} {i : Instr} (h : Effect s i t) :
    t.mem = s.mem ∨ (∃ l, t.mem = s.mem.writeBytes Buffer.dst.base l)
    ∨ ∃ d : Digest, t.mem = s.mem.writeBytes Buffer.mac.base d.toList := by
  cases h with
  | b32enc | b32dec | genkey => exact .inr (.inl ⟨_, rfl⟩)
  | compute | totp => exact .inr (.inr ⟨_, rfl⟩)
  | error | rngFatal | trunc | tstep | validate | validates => exact .inl rfl

/-- `DST` begins above the operand buffers and `MAC` ends below them. -/
theorem Effect.read_operandBuffers {s t : State} {i : Instr} (h : Effect s i t) {a : Nat} (hlo : 0x10000 ≤ a)
    (hhi : a < 0x40000) : t.mem.read a = s.mem.read a := by
  obtain hm | ⟨l, hm⟩ | ⟨d, hm⟩ := h.mem
  · rw [hm]
  · rw [hm, Memory.read_writeBytes_outside]
    simp only [Buffer.base]
    omega
  · rw [hm, Memory.read_writeBytes_outside]
    simp only [Buffer.base, Vector.length_toList]
    omega

/-- Settles O15: the lock and an illegal word change `STATUS` at most, and a command has one of its effects. -/
theorem commandsKeepOperands : Obligations.CommandsKeepOperands := by
  intro w s t h
  suffices hs : SameOperands s t ∧ (decode w ≠ .ok .validates → t.cand = s.cand)
      ∧ ∀ a, 0x10000 ≤ a → a < 0x40000 → t.mem.read a = s.mem.read a by
    obtain ⟨⟨hlo, hhi, hrlen, hkey, hmod, hsrc, hhost, hcfg⟩, hcand, hmem⟩ := hs
    exact ⟨hlo, hhi, hrlen, hkey, hmod, hsrc, hhost, hcfg, hcand, hmem⟩
  have hrefl : SameOperands s s := ⟨rfl, rfl, rfl, rfl, rfl, rfl, rfl, rfl⟩
  obtain ⟨-, rfl⟩ | ⟨-, -, rfl⟩ | ⟨-, i, hi, he⟩ := writeCmd_next h
  · exact ⟨hrefl, fun _ => rfl, fun _ _ _ => rfl⟩
  · exact ⟨hrefl, fun _ => rfl, fun _ _ _ => rfl⟩
  · refine ⟨he.sameOperands, fun hne => he.cand ?_, fun _ => he.read_operandBuffers⟩
    rintro rfl
    exact hne hi

end Sys2Proof.Machine
end

section
/-!
SUPPORT and the proof of O17: `exec` runs the body of the command it is given, and a body that stops at an unwritten byte
names a byte of a buffer the command reads (10_state.md R48).
-/
namespace Sys2Proof.Machine

open Sys2Proof.Spec

/-- The body that each command runs unless the lock ignores it. -/
def commandBody (s : State) : Instr → Cmd State
  | .b32enc => b32encBody s
  | .b32dec => b32decBody s
  | .genkey => genkeyBody s
  | .trunc => truncBody s
  | .compute => computeBody s
  | .tstep => tstepBody s
  | .totp => totpBody s
  | .validate => validateBody s
  | .validates => validatesBody s

theorem exec_eq_runCommand (i : Instr) (s : State) : exec i s = runCommand s (commandBody s i) := by cases i <;> rfl

/-- The offset is that of an unwritten byte of a buffer the command reads, at an index below the operand's length, which
the buffer's capacity bounds. -/
def UnwrittenOperandByte (s : State) (i : Instr) (o : Nat) : Prop :=
  ∃ b n k, (b, n) ∈ operandBuffers s i ∧ k < n ∧ n ≤ b.capacity s.cfg ∧ s.mem.read (b.base + k) = none ∧ o = b.base + k

/-- The commands that start with `CheckSecretAndModifier` stop at bytes of the secret or of the modifier. -/
theorem UnwrittenOperandByte.of_secret {s : State} {i : Instr} {o : Nat}
    (hi : operandBuffers s i = [(.key, lenField s.keyLen), (.mod, lenField s.modLen)])
    (h : checkSecretAndModifier s = .error (.unwritten o)) : UnwrittenOperandByte s i o := by
  obtain h | ⟨h, -⟩ | ⟨h, -⟩ | ⟨o', h, hr, ho, hkey, hmod⟩ := checkSecretAndModifier_stops h <;> cases h
  obtain ⟨k, hk, rfl⟩ | ⟨k, hk, rfl⟩ := ho
  · exact ⟨.key, _, k, by simp [hi], hk, hkey, hr, rfl⟩
  · exact ⟨.mod, _, k, by simp [hi], hk, hmod, hr, rfl⟩

theorem commandBody_unwritten {s : State} {i : Instr} {o : Nat} (h : commandBody s i = .error (.unwritten o)) :
    UnwrittenOperandByte s i o := by
  cases i with
  | b32enc =>
    obtain h | ⟨k, hk, h, hr, hcap⟩ := b32encBody_error h <;> cases h
    exact ⟨.src, _, k, by simp [operandBuffers], hk, hcap, hr, rfl⟩
  | b32dec =>
    obtain h | h | ⟨k, hk, h, hr, hcap⟩ := b32decBody_error h <;> cases h
    exact ⟨.src, _, k, by simp [operandBuffers], hk, hcap, hr, rfl⟩
  | genkey => cases (genkeyBody_error h).2
  | trunc =>
    obtain ⟨k, hk, h, hr⟩ := truncBody_error h
    cases h
    exact ⟨.mac, _, k, by simp [operandBuffers], hk, Nat.le_refl _, hr, rfl⟩
  | compute => exact .of_secret rfl (computeBody_error h)
  | tstep => cases h
  | totp => exact .of_secret rfl (totpBody_error h)
  | validate => exact .of_secret rfl (validateBody_error h)
  | validates =>
    obtain h | h | h | ⟨h, -⟩ | ⟨o', h, hr, ho, hsrc, hkey, hmod⟩ := validatesBody_error h <;> cases h
    obtain ⟨k, hk, rfl⟩ | ⟨k, hk, rfl⟩ | ⟨k, hk, rfl⟩ := ho
    · exact ⟨.src, _, k, by simp [operandBuffers], hk, hsrc, hr, rfl⟩
    · exact ⟨.key, _, k, by simp [operandBuffers], hk, hkey, hr, rfl⟩
    · exact ⟨.mod, _, k, by simp [operandBuffers], hk, hmod, hr, rfl⟩

/-- Every refusal of a command: the lock does not ignore it, and a byte of an operand is unwritten. -/
theorem exec_refused {i : Instr} {s : State} {r : Refusal} (h : exec i s = .refused r) :
    s.fatal = false ∧ ∃ o, r = .unwrittenByte o ∧ UnwrittenOperandByte s i o := by
  rw [exec_eq_runCommand] at h
  obtain ⟨o, hbody, hr⟩ := runCommand_refused h
  refine ⟨?_, o, hr, commandBody_unwritten hbody⟩
  cases hf : s.fatal with
  | false => rfl
  | true =>
    rw [runCommand_fatal hf] at h
    cases h

/-- Every refusal of a write to `CMD`: an illegal word is never refused, so it is that of the word's command. -/
theorem writeCmd_refused {w : Word} {s : State} {r : Refusal} (h : writeCmd w s = .refused r) :
    ∃ i, decode w = .ok i ∧ exec i s = .refused r := by
  unfold writeCmd at h
  split at h
  · next i hi => exact ⟨i, hi, h⟩
  · obtain ⟨o, ho, -⟩ := runCommand_refused h
    cases ho

/-- Settles O17: what is not a next state is a refusal, and `exec_refused` says which. -/
theorem commandStops : Obligations.CommandStops := by
  intro w s
  refine (next_or_refused (writeCmd w s)).imp_right fun ⟨r, hr⟩ => ?_
  obtain ⟨i, hi, hexec⟩ := writeCmd_refused hr
  obtain ⟨hf, o, rfl, b, n, k, hmem, hk, hcap, hread, rfl⟩ := exec_refused hexec
  exact ⟨i, b, n, k, hi, hf, hmem, hk, hcap, hread, hr⟩

end Sys2Proof.Machine
end

section
/-!
SUPPORT and the proof of O19: where each reader inside a command stops at an unwritten byte (10_state.md R48), given that
what it reads before that byte lets it go on.
-/
namespace Sys2Proof.Machine

open Sys2Proof.Spec

theorem readByte_unwritten {m : Memory} {a : Nat} (h : m.read a = none) : readByte m a = .error (.unwritten a) := by
  simp [readByte, h]

/-- A command past the lock whose body stops at an unwritten byte is refused, naming it. -/
theorem exec_unwritten {s : State} {i : Instr} {o : Nat} (hf : s.fatal = false)
    (h : commandBody s i = .error (.unwritten o)) : exec i s = .refused (.unwrittenByte o) := by
  rw [exec_eq_runCommand, runCommand_unwritten hf h]

/-! ### Checks that pass -/

theorem checkSrcCapacity_ok {s : State} (h : lenField s.srcLen ≤ s.cfg.srcMax.toNat) : checkSrcCapacity s = .ok () :=
  checkSrcCapacity_ok_iff.2 h

theorem checkDstCapacity_ok {s : State} {n : Nat} (h : n ≤ s.cfg.dstMax.toNat) : checkDstCapacity s n = .ok () :=
  checkDstCapacity_ok_iff.2 h

theorem checkKeyModCapacity_ok {s : State} (h : ¬ KeyModTooLong s) : checkKeyModCapacity s = .ok () :=
  checkKeyModCapacity_ok_iff.2
    ⟨fun hv => Nat.le_of_not_lt fun hlt => h (.inl ⟨hv, hlt⟩), Nat.le_of_not_lt fun hlt => h (.inr hlt)⟩

theorem checkSecretPresent_ok {s : State} (h : s.keyValid = true) : checkSecretPresent s = .ok () :=
  checkSecretPresent_ok_iff.2 h

theorem checkMessageLength_ok {s : State} (h : lenField s.modLen ≤ 65527) : checkMessageLength s = .ok () :=
  checkMessageLength_ok_iff.2 (by omega)

/-! ### The secret and the modifier -/

/-- A buffer operand with an unwritten byte is not read. -/
theorem readOperand_unwritten {s : State} {b : Buffer} {n i : Nat} (hi : i < n) (h : s.mem.read (b.base + i) = none) :
    ∃ o, readOperand s b n = .error (.unwritten o) := by
  obtain ⟨l, hl⟩ | ⟨e, he⟩ := Cmd.ok_or_error (readOperand s b n)
  · obtain ⟨hlen, hbytes⟩ := readOperand_ok_iff.1 hl
    rw [hbytes i (by omega)] at h
    cases h
  · obtain ⟨k, -, rfl, -⟩ := readOperand_error he
    exact ⟨_, he⟩

/-- A byte of the secret or of the modifier that nothing has written. -/
def SecretByteMissing (s : State) : Prop :=
  ∃ i, i < lenField s.keyLen ∧ s.mem.read (Buffer.key.base + i) = none
    ∨ i < lenField s.modLen ∧ s.mem.read (Buffer.mod.base + i) = none

theorem readSecretAndModifier_unwritten {s : State} (h : SecretByteMissing s) :
    ∃ o, readSecretAndModifier s = .error (.unwritten o) := by
  obtain ⟨⟨key, modifier⟩, hok⟩ | ⟨e, he⟩ := Cmd.ok_or_error (readSecretAndModifier s)
  · obtain ⟨hkey, hmod⟩ := readSecretAndModifier_ok_iff.1 hok
    obtain ⟨i, ⟨hi, hread⟩ | ⟨hi, hread⟩⟩ := h
    · obtain ⟨o, ho⟩ := readOperand_unwritten hi hread
      rw [ho] at hkey
      cases hkey
    · obtain ⟨o, ho⟩ := readOperand_unwritten hi hread
      rw [ho] at hmod
      cases hmod
  · obtain ⟨o, rfl, -⟩ := readSecretAndModifier_error he
    exact ⟨o, he⟩

/-- Its checks passed, `CheckSecretAndModifier` reads the secret and the modifier (41_otp_code.md R155). -/
theorem checkSecretAndModifier_eq_read {s : State} (hlen : ¬ KeyModTooLong s) (hvalid : s.keyValid = true)
    (hmod : lenField s.modLen ≤ 65527) : checkSecretAndModifier s = readSecretAndModifier s := by
  rw [checkSecretAndModifier, checkKeyModCapacity_ok hlen, checkSecretPresent_ok hvalid,
    checkMessageLength_ok hmod]
  rfl

/-- COMPUTE, TOTP and VALIDATE stop where `CheckSecretAndModifier` stops. -/
theorem commandBody_secret_error {s : State} {c : Instr} (hc : c ∈ [Instr.compute, .totp, .validate]) {e : Stop}
    (h : checkSecretAndModifier s = .error e) : commandBody s c = .error e := by
  simp only [List.mem_cons, List.not_mem_nil, or_false] at hc
  obtain rfl | rfl | rfl := hc <;>
    simp only [commandBody, computeBody, totpBody, validateBody, h, Cmd.error_bind]

theorem exec_secret_unwritten {c : Instr} {s : State} (hc : c ∈ [Instr.compute, .totp, .validate])
    (hf : s.fatal = false) (hlen : ¬ KeyModTooLong s) (hvalid : s.keyValid = true) (hmod : lenField s.modLen ≤ 65527)
    (h : SecretByteMissing s) : ∃ o, exec c s = .refused (.unwrittenByte o) := by
  obtain ⟨o, ho⟩ := readSecretAndModifier_unwritten h
  have hcheck : checkSecretAndModifier s = .error (.unwritten o) := by
    rw [checkSecretAndModifier_eq_read hlen hvalid hmod, ho]
  exact ⟨o, exec_unwritten hf (commandBody_secret_error hc hcheck)⟩

/-! ### Base32 -/

theorem exec_b32enc_unwritten {s : State} {i : Nat} (hf : s.fatal = false)
    (hsrc : lenField s.srcLen ≤ s.cfg.srcMax.toNat) (hdst : encodedLength (lenField s.srcLen) ≤ s.cfg.dstMax.toNat)
    (hi : i < lenField s.srcLen) (h : s.mem.read (Buffer.src.base + i) = none) :
    ∃ o, exec .b32enc s = .refused (.unwrittenByte o) := by
  obtain ⟨o, ho⟩ := readOperand_unwritten hi h
  refine ⟨o, exec_unwritten hf ?_⟩
  have hcap : checkDstCapacity s (8 * ((lenField s.srcLen + 4) / 5)) = .ok () := checkDstCapacity_ok hdst
  rw [commandBody, b32encBody, checkSrcCapacity_ok hsrc, Cmd.ok_bind, hcap, Cmd.ok_bind, ho, Cmd.error_bind]

/-- Pads at the end of a text do not change what stripping it answers (40_base32.md R130). -/
theorem b32Strip_of_pads {m : Memory} {a k n : Nat} (hk : k ≤ n)
    (h : ∀ j, k ≤ j → j < n → m.read (a + j) = some b32Pad) : b32Strip m a n = b32Strip m a k := by
  induction n with
  | zero => rw [Nat.le_zero.1 hk]
  | succ n ih =>
    obtain rfl | hlt := Nat.eq_or_lt_of_le hk
    · rfl
    · have hpad := readByte_ok_iff.2 (h n (by omega) (by omega))
      rw [b32Strip, hpad, Cmd.ok_bind, if_pos rfl]
      exact ih (by omega) fun j h1 h2 => h j h1 (by omega)

theorem b32Strip_unwritten {m : Memory} {a i n : Nat} (hi : i < n) (h : m.read (a + i) = none)
    (hpads : ∀ j, i < j → j < n → m.read (a + j) = some b32Pad) : b32Strip m a n = .error (.unwritten (a + i)) := by
  rw [b32Strip_of_pads hi hpads, b32Strip, readByte_unwritten h, Cmd.error_bind]

theorem b32Strip_of_last {m : Memory} {a last n : Nat} {c : Byte} (hi : last < n) (h : m.read (a + last) = some c)
    (hc : c ≠ b32Pad) (hpads : ∀ j, last < j → j < n → m.read (a + j) = some b32Pad) :
    b32Strip m a n = .ok (last + 1) := by
  rw [b32Strip_of_pads hi hpads, b32Strip, readByte_ok_iff.2 h, Cmd.ok_bind, if_neg hc]

/-- A text held from `a` on is its first byte and the rest, held from `a + 1` on. -/
theorem holds_cons {m : Memory} {a : Nat} {c : Byte} {l : List Byte}
    (h : ∀ i, (hi : i < (c :: l).length) → m.read (a + i) = some (c :: l)[i]) :
    m.read a = some c ∧ ∀ i, (hi : i < l.length) → m.read (a + 1 + i) = some l[i] := by
  refine ⟨h 0 (Nat.zero_lt_succ _), fun i hi => ?_⟩
  rw [Nat.add_assoc, Nat.add_comm 1]
  exact h (i + 1) (Nat.succ_lt_succ hi)

/-- The decoder's loop stops at the unwritten byte after valid characters, whatever its bit buffer holds. -/
theorem b32DecodeFrom_unwritten {m : Memory} (before : List Byte) {k a : Nat} {acc : BitVec 12} {nbits : Nat}
    (hk : before.length < k) (hheld : ∀ i, (hi : i < before.length) → m.read (a + i) = some before[i])
    (hvalid : ∀ x ∈ before, (symbolValue x).isSome = true) (h : m.read (a + before.length) = none) :
    b32DecodeFrom m k a acc nbits = .error (.unwritten (a + before.length)) := by
  induction before generalizing k a acc nbits with
  | nil =>
    obtain ⟨k, rfl⟩ := Nat.exists_eq_succ_of_ne_zero (Nat.ne_of_gt hk)
    rw [List.length_nil, Nat.add_zero] at h ⊢
    rw [b32DecodeFrom, readByte_unwritten h, Cmd.error_bind]
  | cons c before ih =>
    obtain ⟨k, rfl⟩ := Nat.exists_eq_succ_of_ne_zero (Nat.ne_of_gt (Nat.zero_lt_of_lt hk))
    obtain ⟨hc, hrest⟩ := holds_cons hheld
    obtain ⟨v, hv⟩ : ∃ v, b32CharValue c = .ok v := by
      obtain ⟨v, hv⟩ | ⟨e, he⟩ := Cmd.ok_or_error (b32CharValue c)
      · exact ⟨v, hv⟩
      · have hc := hvalid c List.mem_cons_self
        rw [(b32CharValue_error_iff.1 he).1] at hc
        cases hc
    have hend : a + (c :: before).length = a + 1 + before.length := by rw [List.length_cons]; omega
    rw [hend] at h ⊢
    have hgo : ∀ acc' nb, b32DecodeFrom m k (a + 1) acc' nb = .error (.unwritten (a + 1 + before.length)) :=
      fun _ _ => ih (Nat.lt_of_succ_lt_succ hk) hrest (fun x hx => hvalid x (List.mem_cons_of_mem _ hx)) h
    simp only [b32DecodeFrom, readByte_ok_iff.2 hc, hv, hgo, Cmd.ok_bind, Cmd.error_bind, ite_self]

theorem exec_b32dec_strip_unwritten {s : State} {i : Nat} (hf : s.fatal = false)
    (hsrc : lenField s.srcLen ≤ s.cfg.srcMax.toNat) (hi : i < lenField s.srcLen)
    (h : s.mem.read (Buffer.src.base + i) = none)
    (hpads : ∀ j, i < j → j < lenField s.srcLen → s.mem.read (Buffer.src.base + j) = some 0x3D) :
    exec .b32dec s = .refused (.unwrittenByte (Buffer.src.base + i)) := by
  apply exec_unwritten hf
  rw [commandBody, b32decBody, checkSrcCapacity_ok hsrc, Cmd.ok_bind, b32Strip_unwritten hi h hpads, Cmd.error_bind]

theorem exec_b32dec_decode_unwritten {s : State} {last : Nat} {c : Byte} {before : List Byte} (hf : s.fatal = false)
    (hsrc : lenField s.srcLen ≤ s.cfg.srcMax.toNat) (hlast : last < lenField s.srcLen)
    (hc : s.mem.read (Buffer.src.base + last) = some c) (hne : c ≠ 0x3D)
    (hpads : ∀ j, last < j → j < lenField s.srcLen → s.mem.read (Buffer.src.base + j) = some 0x3D)
    (hdst : 5 * (last + 1) / 8 ≤ s.cfg.dstMax.toNat) (hlen : before.length < last) (hheld : Holds s .src before)
    (hvalid : ∀ x ∈ before, (symbolValue x).isSome = true)
    (h : s.mem.read (Buffer.src.base + before.length) = none) :
    exec .b32dec s = .refused (.unwrittenByte (Buffer.src.base + before.length)) := by
  apply exec_unwritten hf
  rw [commandBody, b32decBody, checkSrcCapacity_ok hsrc, Cmd.ok_bind, b32Strip_of_last hlast hc hne hpads,
    Cmd.ok_bind, checkDstCapacity_ok hdst, Cmd.ok_bind,
    b32DecodeFrom_unwritten before (Nat.lt_succ_of_lt hlen) hheld hvalid h, Cmd.error_bind]

/-! ### VALIDATES -/

/-- The digit parser stops at the unwritten byte after digits whose value does not exceed the bound (42_totp_window.md
R195, R196). -/
theorem parseDigits_unwritten {m : Memory} {candMax : Nat} (before : List Byte) {k a v : Nat} (hk : before.length < k)
    (hheld : ∀ i, (hi : i < before.length) → m.read (a + i) = some before[i]) (hdigits : before.all isDigit = true)
    (hval : decimalFrom v before ≤ candMax) (h : m.read (a + before.length) = none) :
    parseDigits m candMax k a v = .error (.unwritten (a + before.length)) := by
  induction before generalizing k a v with
  | nil =>
    obtain ⟨k, rfl⟩ := Nat.exists_eq_succ_of_ne_zero (Nat.ne_of_gt hk)
    rw [List.length_nil, Nat.add_zero] at h ⊢
    rw [parseDigits, readByte_unwritten h, Cmd.error_bind]
  | cons c before ih =>
    obtain ⟨k, rfl⟩ := Nat.exists_eq_succ_of_ne_zero (Nat.ne_of_gt (Nat.zero_lt_of_lt hk))
    obtain ⟨hc, hrest⟩ := holds_cons hheld
    have hend : a + (c :: before).length = a + 1 + before.length := by rw [List.length_cons]; omega
    rw [hend] at h ⊢
    rw [List.all_cons, Bool.and_eq_true] at hdigits
    have hstep : decimalFrom (10 * v + (c.toNat - 0x30)) before ≤ candMax := hval
    have hdigit : (decide (c.toNat < 0x30) || decide (0x39 < c.toNat)) = false := by
      simpa [isDigit] using hdigits.1
    have hbound : decide (candMax < 10 * v + (c.toNat - 0x30)) = false :=
      decide_eq_false (Nat.not_lt.2 (Nat.le_trans (decimalFrom_ge _ before) hstep))
    rw [parseDigits, readByte_ok_iff.2 hc, Cmd.ok_bind, hdigit, raiseIf_false, Cmd.ok_bind, hbound, raiseIf_false,
      Cmd.ok_bind]
    exact ih (Nat.lt_of_succ_lt_succ hk) hrest hdigits.2 hstep h

/-- VALIDATES past its checks of the lengths and of the secret stops where its parsing does (R195). -/
theorem validatesBody_parse_error {s : State} (hsrc : lenField s.srcLen ≤ s.cfg.srcMax.toNat) (hlen : ¬ KeyModTooLong s)
    (hvalid : s.keyValid = true) {e : Stop} (h : parseCandidate s = .error e) : validatesBody s = .error e := by
  simp only [validatesBody, checkSrcCapacity_ok hsrc, checkKeyModCapacity_ok hlen, checkSecretPresent_ok hvalid, h,
    Cmd.ok_bind, Cmd.error_bind]

/-- The candidate parsed and the message length checked, it stops where reading the secret and the modifier does. -/
theorem validatesBody_read_error {s : State} (hsrc : lenField s.srcLen ≤ s.cfg.srcMax.toNat) (hlen : ¬ KeyModTooLong s)
    (hvalid : s.keyValid = true) {cand : Word} (hcand : parseCandidate s = .ok cand)
    (hmod : lenField s.modLen ≤ 65527) {e : Stop} (h : readSecretAndModifier s = .error e) :
    validatesBody s = .error e := by
  simp only [validatesBody, checkSrcCapacity_ok hsrc, checkKeyModCapacity_ok hlen, checkSecretPresent_ok hvalid, hcand,
    checkMessageLength_ok hmod, h, Cmd.ok_bind, Cmd.error_bind]

theorem exec_validates_parse_unwritten {s : State} {before : List Byte} (hf : s.fatal = false)
    (hsrc : lenField s.srcLen ≤ s.cfg.srcMax.toNat) (hlen : ¬ KeyModTooLong s) (hvalid : s.keyValid = true)
    (hk : before.length < lenField s.srcLen) (hheld : Holds s .src before) (hdigits : before.all isDigit = true)
    (hval : decimalValue before ≤ s.cfg.candMax.toNat) (h : s.mem.read (Buffer.src.base + before.length) = none) :
    exec .validates s = .refused (.unwrittenByte (Buffer.src.base + before.length)) := by
  apply exec_unwritten hf
  have hne : decide (lenField s.srcLen = 0) = false := decide_eq_false (by omega)
  apply validatesBody_parse_error hsrc hlen hvalid
  rw [parseCandidate, hne, raiseIf_false, Cmd.ok_bind, parseDigits_unwritten before hk hheld hdigits hval h,
    Cmd.error_bind]

theorem exec_validates_secret_unwritten {s : State} {text : List Byte} (hf : s.fatal = false)
    (hn : lenField s.srcLen = text.length) (hheld : Holds s .src text) (hsrc : text.length ≤ s.cfg.srcMax.toNat)
    (hcand : validCandidate s.cfg.candMax.toNat text = true) (hlen : ¬ KeyModTooLong s) (hvalid : s.keyValid = true)
    (hmod : lenField s.modLen ≤ 65527) (h : SecretByteMissing s) :
    ∃ o, exec .validates s = .refused (.unwrittenByte o) := by
  obtain ⟨o, ho⟩ := readSecretAndModifier_unwritten h
  have hparse : parseCandidate s = .ok (BitVec.ofNat 32 (decimalValue text)) := by
    rw [parseCandidate_eq hn hheld, if_pos hcand]
  exact ⟨o, exec_unwritten hf (validatesBody_read_error (hn ▸ hsrc) hlen hvalid hparse hmod ho)⟩

/-- Settles O19, reader by reader. -/
theorem unwrittenOperandRefused : Obligations.UnwrittenOperandRefused :=
  ⟨fun _ _ i hc hf hlen hvalid hmod h => exec_secret_unwritten hc hf hlen hvalid hmod ⟨i, h⟩,
    fun _ _ => exec_b32enc_unwritten,
    fun _ _ => exec_b32dec_strip_unwritten,
    fun _ _ _ _ => exec_b32dec_decode_unwritten,
    fun _ _ => exec_validates_parse_unwritten,
    fun _ _ i hf hn hheld hsrc hcand hlen hvalid hmod h =>
      exec_validates_secret_unwritten hf hn hheld hsrc hcand hlen hvalid hmod ⟨i, h⟩⟩

end Sys2Proof.Machine
end

section
/-!
SUPPORT and the proof of O52: what each command meets in the reset values, under any ports and parameters (10_state.md
R47, R48; 70_reset_and_hazards.md R252): no secret, empty operands, a random request of ten bytes, nothing in `MAC`.
-/
namespace Sys2Proof.Machine

/-- Reading a sequence whose first byte is unwritten stops there, since its bytes are read index upward. -/
theorem readBytes_unwritten_first {m : Memory} {a : Nat} (h : m.read a = none) (n : Nat) :
    readBytes m a (n + 1) = .error (.unwritten a) := by
  induction n with
  | zero => simp only [readBytes, Cmd.ok_bind, Nat.add_zero, readByte_unwritten h, Cmd.error_bind]
  | succ n ih => rw [readBytes, ih, Cmd.error_bind]

theorem genkeyBody_unavailable {s : State} (hd : lenField s.rlen ≤ s.cfg.dstMax.toNat)
    (hr : s.ports.rngNow (lenField s.rlen) = none) :
    genkeyBody s = .ok (raiseError .rngFatal (s.setPorts s.ports.afterRng)) := by
  simp only [genkeyBody, checkDstCapacity_ok hd, Cmd.ok_bind, hr]

theorem genkeyBody_available {s : State} {r : List Byte} (hd : lenField s.rlen ≤ s.cfg.dstMax.toNat)
    (hr : s.ports.rngNow (lenField s.rlen) = some r) :
    genkeyBody s = .ok (succeed false ((s.setPorts s.ports.afterRng).setDst r)) := by
  simp only [genkeyBody, checkDstCapacity_ok hd, Cmd.ok_bind, hr]

/-- The reset values under any ports and parameters. -/
def State.resetWith (p : Ports) (c : Params) : State := { State.reset with ports := p, cfg := c }

section
variable (p : Ports) (c : Params)

theorem resetWith_fatal : (State.resetWith p c).fatal = false := by
  show (0 : Word).getLsbD 2 = false
  decide

theorem resetWith_keyValid : (State.resetWith p c).keyValid = false := by
  show (0 : Word).getLsbD 31 = false
  decide

theorem exec_resetWith_ok {i : Instr} {t : State} (h : commandBody (.resetWith p c) i = .ok t) :
    exec i (.resetWith p c) = .next t := by
  rw [exec_eq_runCommand, runCommand_ok (resetWith_fatal p c) h]

theorem exec_resetWith_err {i : Instr} {e : ErrKind} (h : commandBody (.resetWith p c) i = .error (.err e)) :
    exec i (.resetWith p c) = .next (raiseError e (.resetWith p c)) := by
  rw [exec_eq_runCommand, runCommand_err (resetWith_fatal p c) h]

theorem exec_tstep_resetWith : ∃ t, exec .tstep (.resetWith p c) = .next t ∧ t.status = 0x01 :=
  ⟨_, exec_resetWith_ok p c rfl, successStatus_eq false⟩

/-! ### GENKEY -/

theorem lenField_rlen_resetWith : lenField (State.resetWith p c).rlen = 10 := by
  show lenField (BitVec.ofNat 32 10) = 10
  exact lenField_ofNat (by decide)

theorem exec_genkey_resetWith (h : 10 ≤ c.dstMax.toNat) :
    ∃ t, exec .genkey (.resetWith p c) = .next t ∧ (t.status = 0x01 ∧ t.dstLen = 10 ∨ t.status = 0x55) := by
  have hlen := lenField_rlen_resetWith p c
  cases hr : p.rngNow 10 with
  | none =>
    have hbody := genkeyBody_unavailable (s := .resetWith p c) (hlen ▸ h) (hlen ▸ hr)
    exact ⟨_, exec_resetWith_ok p c hbody, .inr (errorStatus_eq .rngFatal)⟩
  | some r =>
    have hbody := genkeyBody_available (s := .resetWith p c) (hlen ▸ h) (hlen ▸ hr)
    exact ⟨_, exec_resetWith_ok p c hbody, .inl ⟨successStatus_eq false, by simp [Ports.rngNow_length hr]⟩⟩

theorem exec_genkey_resetWith_capacity (h : c.dstMax.toNat < 10) :
    exec .genkey (.resetWith p c) = .next { State.resetWith p c with status := 0x41 } := by
  have hcheck : checkDstCapacity (.resetWith p c) 10 = .error (.err .capacity) :=
    checkDstCapacity_error_iff.2 ⟨h, rfl⟩
  rw [exec_resetWith_err p c (e := .capacity)]
  · rfl
  · rw [commandBody, genkeyBody, lenField_rlen_resetWith, hcheck, Cmd.error_bind]

/-! ### Base32 -/

theorem checkSrcCapacity_resetWith : checkSrcCapacity (.resetWith p c) = .ok () := checkSrcCapacity_ok (Nat.zero_le _)

theorem checkDstCapacity_zero (s : State) : checkDstCapacity s 0 = .ok () := checkDstCapacity_ok (Nat.zero_le _)

/-- Both Base32 commands store the empty output. -/
theorem exec_base32_resetWith {i : Instr} (hi : i = .b32enc ∨ i = .b32dec) :
    ∃ t, exec i (.resetWith p c) = .next t ∧ t.status = 0x01 ∧ t.dstLen = 0 := by
  suffices hbody : commandBody (.resetWith p c) i = .ok (succeed false ((State.resetWith p c).setDst [])) from
    ⟨_, exec_resetWith_ok p c hbody, successStatus_eq false, rfl⟩
  have hlen : lenField (State.resetWith p c).srcLen = 0 := rfl
  obtain rfl | rfl := hi
  · rw [commandBody, b32encBody, checkSrcCapacity_resetWith, Cmd.ok_bind, hlen, checkDstCapacity_zero]
    rfl
  · rw [commandBody, b32decBody, checkSrcCapacity_resetWith, Cmd.ok_bind, hlen, b32Strip, Cmd.ok_bind,
      checkDstCapacity_zero]
    rfl

/-! ### The commands that need a secret -/

theorem checkKeyModCapacity_resetWith : checkKeyModCapacity (.resetWith p c) = .ok () :=
  checkKeyModCapacity_ok_iff.2 ⟨fun _ => Nat.zero_le _, Nat.zero_le _⟩

theorem checkSecretPresent_resetWith : checkSecretPresent (.resetWith p c) = .error (.err .argument) :=
  checkSecretPresent_error_iff.2 ⟨resetWith_keyValid p c, rfl⟩

theorem commandBody_resetWith_argument {i : Instr} (hi : i ∈ [Instr.compute, .totp, .validate, .validates]) :
    commandBody (.resetWith p c) i = .error (.err .argument) := by
  have hcheck : checkSecretAndModifier (.resetWith p c) = .error (.err .argument) := by
    rw [checkSecretAndModifier, checkKeyModCapacity_resetWith, Cmd.ok_bind, checkSecretPresent_resetWith, Cmd.error_bind]
  obtain hi | rfl : i ∈ [Instr.compute, .totp, .validate] ∨ i = .validates := by simpa [or_assoc] using hi
  · exact commandBody_secret_error hi hcheck
  · rw [commandBody, validatesBody, checkSrcCapacity_resetWith, Cmd.ok_bind, checkKeyModCapacity_resetWith, Cmd.ok_bind,
      checkSecretPresent_resetWith, Cmd.error_bind]

theorem exec_resetWith_argument {i : Instr} (hi : i ∈ [Instr.compute, .totp, .validate, .validates]) :
    exec i (.resetWith p c) = .next { State.resetWith p c with status := 0x21 } :=
  exec_resetWith_err p c (commandBody_resetWith_argument p c hi)

/-! ### TRUNC -/

theorem exec_trunc_resetWith : exec .trunc (.resetWith p c) = .refused (.unwrittenByte Buffer.mac.base) := by
  have hread : readBytes (State.resetWith p c).mem Buffer.mac.base 20 = .error (.unwritten Buffer.mac.base) :=
    readBytes_unwritten_first (Memory.read_nil _) 19
  apply exec_unwritten (resetWith_fatal p c)
  rw [commandBody, truncBody, hread, Cmd.error_bind]

end

/-- Settles O52, command by command. -/
theorem straightAfterReset : Obligations.StraightAfterReset := by
  rintro p c s rfl
  exact ⟨exec_tstep_resetWith p c, exec_genkey_resetWith p c, exec_genkey_resetWith_capacity p c,
    exec_base32_resetWith p c (.inl rfl), exec_base32_resetWith p c (.inr rfl),
    exec_resetWith_argument p c (by decide), exec_resetWith_argument p c (by decide),
    exec_resetWith_argument p c (by decide), exec_resetWith_argument p c (by decide), exec_trunc_resetWith p c⟩

end Sys2Proof.Machine
end

section
/-!
SUPPORT and the proofs of O44, O7, O48 and O53: a host access answers by what stands at its address and by its width
alone (20_memory.md R66, R69 to R71), one rule per location.
-/
namespace Sys2Proof.Machine

/-! ### The address map -/

theorem locate_reg (p : Params) (r : Reg) : locate p (p.base + regOffset r) = .reg r := by
  rw [locate_base_add, locateOffset_reg]

theorem locate_byte {p : Params} {b : Buffer} {i : Nat} (h : i < b.capacity p) :
    locate p (p.base + (b.base + i)) = .byte b i := by
  rw [locate_base_add, locateOffset_byte h]

/-- Settles O44: `locate_eq` reduces a located address to its offset, at which one register or byte stands. -/
theorem addressMap : Obligations.AddressMap := by
  refine ⟨locate_reg, fun _ _ _ => locate_byte, fun p a r h => ?_, fun p a b i h => ?_⟩
  · obtain ⟨o, rfl, ho⟩ := locate_eq h nofun
    rw [locateOffset_eq_reg ho]
  · obtain ⟨o, rfl, ho⟩ := locate_eq h nofun
    obtain ⟨hi, rfl⟩ := locateOffset_eq_byte ho
    exact ⟨hi, rfl⟩

/-! ### Accesses by location -/

section
variable {s : State} {a : Nat}

theorem hostRead_reg {r : Reg} (h : locate s.cfg a = .reg r) :
    hostRead s .w32 a = .next (s.setReadData (.word (hostReadReg s r))) := by
  rw [hostRead, h]
  rfl

theorem hostRead_byte {b : Buffer} {i : Nat} (h : locate s.cfg a = .byte b i) :
    hostRead s .w8 a = .next (s.setReadData (.byte (hostReadByte s b i))) := by
  rw [hostRead, h]
  rfl

theorem hostWrite_reg {r : Reg} (h : locate s.cfg a = .reg r) (hr : r ≠ .cmd) (d : DWord) :
    hostWrite s .w32 a d = .next (hostWriteReg s (d.setWidth 32) r) := by
  simp only [hostWrite, h, if_pos, if_neg hr]

theorem hostWrite_byte {b : Buffer} {i : Nat} (h : locate s.cfg a = .byte b i) (d : DWord) :
    hostWrite s .w8 a d = .next (hostWriteByte s (d.setWidth 8) b i) := by
  rw [hostWrite, h]
  rfl

end

/-! ### Bus events -/

theorem performEvent_read {s : State} (h : s.host.resetAsserted = false) (w : Width) (a : Nat) :
    performEvent s (.read w a) = hostRead s w a := by
  simp [performEvent, h]

theorem performEvent_write {s : State} (h : s.host.resetAsserted = false) (w : Width) (a : Nat) (d : DWord) :
    performEvent s (.write w a d) = hostWrite s w a d := by
  simp [performEvent, h]

theorem step_idle {s : State} (h : s.host.pending = []) : step s = .next s := by
  rw [step, performNext, h]

/-- Settles O7: a step looks at the first pending event only, and an access is performed unless reset is asserted. -/
theorem stepTakesNextEvent : Obligations.StepTakesNextEvent :=
  ⟨fun _ _ _ => step_of_pending, fun _ w a h => performEvent_read h w a, fun _ w a d h => performEvent_write h w a d,
    fun _ => step_idle⟩

/-! ### Reads -/

theorem hostRead_regOffset (s : State) (r : Reg) :
    hostRead s .w32 (s.cfg.base + regOffset r) = .next (s.setReadData (.word (hostReadReg s r))) :=
  hostRead_reg (locate_reg s.cfg r)

/-- Settles O48: what is read is handed to the host side, and `CMD` and offset 0x3C hold nothing. -/
theorem readsChangeNothing : Obligations.ReadsChangeNothing := by
  refine ⟨fun s t w a h => ?_, fun s => ⟨hostRead_regOffset s .cmd, hostRead_regOffset s .reserved⟩⟩
  obtain ⟨d, rfl⟩ := hostRead_next h
  exact ⟨rfl, rfl, rfl⟩

/-- The registers in the order of their offsets (20_memory.md R70). -/
def regsByOffset : List Reg :=
  [.cmd, .status, .ctrLo, .ctrHi, .cand, .rlen, .keyLen, .modLen, .srcLen, .dstLen, .code, .bincode, .offset, .tsLo,
    .tsHi, .reserved]

/-- Settles O53: the table written out there is `regOffset` and `hostReadReg` over `regsByOffset`. -/
theorem registerRead : Obligations.RegisterRead := by
  refine ⟨hostRead_regOffset, fun s rv hrv => ?_⟩
  have htable : rv ∈ regsByOffset.map fun r => (regOffset r, hostReadReg s r) := hrv
  obtain ⟨r, -, rfl⟩ := List.mem_map.1 htable
  exact hostRead_regOffset s r

end Sys2Proof.Machine
end

section
/-!
SUPPORT and the proof of O45: where nothing or no aligned register stands, and the accesses that are refused there and
at the locations of another width (20_memory.md R66, R67, R71).
-/
namespace Sys2Proof.Machine

/-! ### Offsets at which no location stands -/

/-- Every register stands at a multiple of 4 (20_memory.md R67). -/
theorem regAt_unaligned {o : Nat} (h : o % 4 ≠ 0) : regAt o = none := by
  cases hr : regAt o with
  | none => rfl
  | some r =>
    have haligned : regOffset r % 4 = 0 := by cases r <;> rfl
    rw [regAt_some hr] at h
    exact absurd haligned h

theorem locateOffset_misaligned (p : Params) {o : Nat} (hlt : o < 0x40) (h : o % 4 ≠ 0) :
    locateOffset p o = .misaligned := by
  rw [locateOffset, if_pos hlt, regAt_unaligned h]

theorem bufferLocation_unmapped {p : Params} {b : Buffer} {i : Nat} (h : b.capacity p ≤ i) :
    bufferLocation p b i = .unmapped :=
  if_neg (Nat.not_lt.2 h)

/-- `MAC` has no parameter: its 20 bytes end at offset 0x54 of its window. -/
theorem locateOffset_above_mac (p : Params) {o : Nat} (hlo : 0x54 ≤ o) (hhi : o < 0x10000) :
    locateOffset p o = .unmapped := by
  have hcap : Buffer.mac.capacity p ≤ o - 0x40 := show 20 ≤ o - 0x40 by omega
  rw [locateOffset, if_neg (by omega), if_pos hhi, bufferLocation_unmapped hcap]

theorem locateOffset_above_dst (p : Params) {o : Nat} (h : 0x50000 ≤ o) : locateOffset p o = .unmapped := by
  simp (disch := omega) only [locateOffset, if_neg]

/-- The four large buffers have a window of 64 KiB each (20_memory.md R70). -/
theorem locateOffset_window (p : Params) {b : Buffer} {i : Nat} (hb : b ≠ .mac) (hi : i < 0x10000) :
    locateOffset p (b.base + i) = bufferLocation p b i := by
  cases b with
  | mac => exact absurd rfl hb
  | key | mod | src | dst =>
    simp (disch := omega) only [locateOffset, Buffer.base, if_neg, if_pos, Nat.add_sub_cancel_left]

/-- The offsets of 20_memory.md R71: behind `MAC`, behind `DST`, and in a window at or above the buffer's capacity. -/
theorem locateOffset_unmapped {p : Params} {o : Nat}
    (h : 0x54 ≤ o ∧ o < 0x10000 ∨ 0x50000 ≤ o
      ∨ ∃ (b : Buffer) (i : Nat), b ≠ .mac ∧ o = b.base + i ∧ b.capacity p ≤ i ∧ i < 0x10000) :
    locateOffset p o = .unmapped := by
  obtain ⟨hlo, hhi⟩ | h | ⟨b, i, hb, rfl, hcap, hi⟩ := h
  · exact locateOffset_above_mac p hlo hhi
  · exact locateOffset_above_dst p h
  · rw [locateOffset_window p hb hi, bufferLocation_unmapped hcap]

/-! ### Refused accesses -/

/-- A read and a write of this width are both refused at this address, for this reason. -/
def AccessRefused (s : State) (w : Width) (a : Nat) (d : DWord) (r : Refusal) : Prop :=
  hostRead s w a = .refused r ∧ hostWrite s w a d = .refused r

section
variable {s : State} {a : Nat} (w : Width) (d : DWord)

theorem accessRefused_unmapped (h : locate s.cfg a = .unmapped) : AccessRefused s w a d (.unmapped a) := by
  simp only [AccessRefused, hostRead, hostWrite, h, and_self]

theorem accessRefused_misaligned (h : locate s.cfg a = .misaligned) : AccessRefused s w a d (.wrongWidth a) := by
  simp only [AccessRefused, hostRead, hostWrite, h, and_self]

theorem accessRefused_reg {w : Width} {r : Reg} (h : locate s.cfg a = .reg r) (hw : w ≠ .w32) :
    AccessRefused s w a d (.wrongWidth a) := by
  simp only [AccessRefused, hostRead, hostWrite, h, if_neg hw, and_self]

theorem accessRefused_byte {w : Width} {b : Buffer} {i : Nat} (h : locate s.cfg a = .byte b i) (hw : w ≠ .w8) :
    AccessRefused s w a d (.wrongWidth a) := by
  simp only [AccessRefused, hostRead, hostWrite, h, if_neg hw, and_self]

end

/-- Settles O45, location by location. -/
theorem badAccessStops : Obligations.BadAccessStops := by
  refine ⟨fun s r w d hw => accessRefused_reg d (locate_reg s.cfg r) hw, fun s o w d hlt ho => ?_,
    fun s b i w d hi hw => accessRefused_byte d (locate_byte hi) hw, fun s o w d ho => ?_, fun s a w d ha => ?_⟩
  · apply accessRefused_misaligned w d
    rw [locate_base_add, locateOffset_misaligned s.cfg hlt ho]
  · apply accessRefused_unmapped w d
    rw [locate_base_add, locateOffset_unmapped ho]
  · apply accessRefused_unmapped w d
    rw [locate, if_pos ha]

end Sys2Proof.Machine
end

section
/-!
SUPPORT and the proof of O46: a register read after a register write, what such a write leaves alone, and the bits that
a length register stores (10_state.md R21 to R28, 20_memory.md R69).
-/
namespace Sys2Proof.Machine

/-- No register aliases another (10_state.md R21). -/
theorem hostReadReg_hostWriteReg_of_ne (s : State) (v : Word) {q r : Reg} (h : q ≠ r) :
    hostReadReg (hostWriteReg s v r) q = hostReadReg s q := by
  cases r with
  | ctrLo => cases q with | ctrLo => exact absurd rfl h | _ => rfl
  | ctrHi => cases q with | ctrHi => exact absurd rfl h | _ => rfl
  | cand => cases q with | cand => exact absurd rfl h | _ => rfl
  | rlen => cases q with | rlen => exact absurd rfl h | _ => rfl
  | keyLen => cases q with | keyLen => exact absurd rfl h | _ => rfl
  | modLen => cases q with | modLen => exact absurd rfl h | _ => rfl
  | srcLen => cases q with | srcLen => exact absurd rfl h | _ => rfl
  | cmd | status | dstLen | code | bincode | offset | tsLo | tsHi | reserved => rfl

theorem hostWriteReg_frame (s : State) (v : Word) (r : Reg) :
    (hostWriteReg s v r).mem = s.mem ∧ (hostWriteReg s v r).ports = s.ports ∧ (hostWriteReg s v r).host = s.host
      ∧ (hostWriteReg s v r).cfg = s.cfg ∧ (hostWriteReg s v r).epoch = s.epoch := by
  cases r <;> exact ⟨rfl, rfl, rfl, rfl, rfl⟩

theorem hostWriteReg_readOnly (s : State) (v : Word) {r : Reg}
    (h : r ∈ [Reg.status, .dstLen, .code, .bincode, .offset, .tsLo, .tsHi, .reserved]) : hostWriteReg s v r = s := by
  simp only [List.mem_cons, List.not_mem_nil, or_false] at h
  obtain rfl | rfl | rfl | rfl | rfl | rfl | rfl | rfl := h <;> rfl

theorem hostReadReg_hostWriteReg_full (s : State) (v : Word) {r : Reg} (h : r ∈ [Reg.ctrLo, .ctrHi, .cand]) :
    hostReadReg (hostWriteReg s v r) r = v := by
  simp only [List.mem_cons, List.not_mem_nil, or_false] at h
  obtain rfl | rfl | rfl := h <;> rfl

theorem hostReadReg_hostWriteReg_len (s : State) (v : Word) {r : Reg} (h : r ∈ [Reg.rlen, .modLen, .srcLen]) :
    hostReadReg (hostWriteReg s v r) r = v &&& lenMask := by
  simp only [List.mem_cons, List.not_mem_nil, or_false] at h
  obtain rfl | rfl | rfl := h <;> rfl

/-! ### Bits of the length registers -/

/-- A write's data below bit 16 are those of the low word. -/
theorem setWidth_toNat_mod_len (d : DWord) : (d.setWidth 32).toNat % 2 ^ 16 = d.toNat % 2 ^ 16 := by
  rw [BitVec.toNat_setWidth]
  omega

theorem and_lenMask_toNat (v : Word) : (v &&& lenMask).toNat = v.toNat % 2 ^ 16 := by
  rw [BitVec.toNat_and, show lenMask.toNat = 2 ^ 16 - 1 from rfl, Nat.and_two_pow_sub_one_eq_mod]

theorem lenField_and_keyLenMask (v : Word) : lenField (v &&& keyLenMask) = v.toNat % 2 ^ 16 := by
  have hmask : keyLenMask.toNat % 2 ^ 16 = 2 ^ 16 - 1 := rfl
  rw [lenField_eq, BitVec.toNat_and, show 65536 = 2 ^ 16 from rfl, Nat.and_mod_two_pow, hmask,
    Nat.and_two_pow_sub_one_eq_mod, Nat.mod_mod]

theorem and_keyLenMask_valid (v : Word) : (v &&& keyLenMask).getLsbD 31 = v.getLsbD 31 := by
  rw [BitVec.getLsbD_and, show keyLenMask.getLsbD 31 = true by decide, Bool.and_true]

theorem and_keyLenMask_zeroBits (v : Word) : v &&& keyLenMask &&& 0x7FFF0000 = 0 := by
  rw [BitVec.and_assoc, show keyLenMask &&& 0x7FFF0000 = 0#32 by decide]
  exact BitVec.and_zero

/-- Settles O46: the write is `hostWriteReg` of the low word, whose stored bits depend on the register. -/
theorem registerWrite : Obligations.RegisterWrite := by
  intro s r d hr
  refine ⟨_, hostWrite_reg (locate_reg s.cfg r) hr d, hostReadReg_hostWriteReg_full s _, fun h => ?_, ?_,
    hostWriteReg_readOnly s _, fun _ => hostReadReg_hostWriteReg_of_ne s _, hostWriteReg_frame s _ r⟩
  · rw [hostReadReg_hostWriteReg_len s _ h, and_lenMask_toNat, setWidth_toNat_mod_len]
  · rintro rfl
    refine ⟨?_, ?_, and_keyLenMask_zeroBits _⟩
    · exact (lenField_and_keyLenMask _).trans (setWidth_toNat_mod_len d)
    · refine (and_keyLenMask_valid _).trans ?_
      rw [BitVec.getLsbD_setWidth, decide_eq_true (by decide), Bool.true_and]

end Sys2Proof.Machine
end

section
/-!
SUPPORT and the proofs of O47 and O49: what the host reads of a written byte, and what its write of a byte stores
(20_memory.md R69, R75; 10_state.md R39).
-/
namespace Sys2Proof.Machine

/-- A written byte that is not a stale one of `DST` is read as it stands. -/
theorem hostReadByte_of_read {s : State} {b : Buffer} {i : Nat} {v : Byte} (h : s.mem.read (b.base + i) = some v)
    (hdst : b = .dst → i < lenField s.dstLen) : hostReadByte s b i = v := by
  have hstale : staleDst s b i = false := by simpa [staleDst] using hdst
  simp [hostReadByte, h, hstale]

/-- Settles O49. -/
theorem byteRead : Obligations.ByteRead := by
  intro s b i v hi h hdst
  rw [hostRead_byte (locate_byte hi), hostReadByte_of_read h hdst]

theorem hostWriteByte_dst (s : State) (v : Byte) (i : Nat) : hostWriteByte s v .dst i = s := rfl

theorem hostWriteByte_of_ne_dst (s : State) (v : Byte) {b : Buffer} (h : b ≠ .dst) (i : Nat) :
    hostWriteByte s v b i = { s with mem := s.mem.write (b.base + i) v } := by
  cases b with
  | dst => exact absurd rfl h
  | key | mod | src | mac => rfl

theorem hostRead_hostWriteByte {s : State} {b : Buffer} {i : Nat} (hb : b ≠ .dst) (hi : i < b.capacity s.cfg)
    (v : Byte) :
    hostRead (hostWriteByte s v b i) .w8 (s.cfg.base + (b.base + i))
      = .next ((hostWriteByte s v b i).setReadData (.byte v)) := by
  rw [hostWriteByte_of_ne_dst s v hb]
  exact byteRead { s with mem := s.mem.write (b.base + i) v } b i v hi (Memory.read_write_self ..) fun h => absurd h hb

/-- Settles O47: the byte is stored and read back, or it lies in `DST` and nothing happens. -/
theorem byteWrite : Obligations.ByteWrite := by
  intro s b i d hi
  refine ⟨_, hostWrite_byte (locate_byte hi) d, fun hb => hostRead_hostWriteByte hb hi _, ?_, ?_⟩
  · rintro rfl
    exact hostWriteByte_dst s _ i
  · by_cases hb : b = .dst
    · subst hb
      exact ⟨fun _ _ => rfl, rfl⟩
    · rw [hostWriteByte_of_ne_dst s _ hb]
      refine ⟨fun x hx => ?_, rfl⟩
      exact Memory.read_write_of_ne _ _ fun heq => hx ⟨Nat.le_of_eq heq.symm, heq ▸ Nat.lt_succ_self _⟩

end Sys2Proof.Machine
end

section
/-!
SUPPORT and the proofs of O25 and O32: the frames of the commands that commit an output to `DST` and of those that latch
a digest in `MAC` (20_memory.md R61, R65, R73).
-/
namespace Sys2Proof.Machine

open Sys2Proof.Spec

theorem sameOutside_of_mem_eq {s t : State} (h : t.mem = s.mem) (a n : Nat) : SameOutside s t a n :=
  fun x _ => by rw [h]

/-- An output that fits `DST` changes no byte but the first `DST_LEN` of it. -/
theorem sameOutside_of_setDst {s t : State} {l : List Byte} (hmem : t.mem = s.mem.writeBytes Buffer.dst.base l)
    (hlen : t.dstLen = BitVec.ofNat 32 l.length) (hl : l.length ≤ s.cfg.dstMax.toNat) :
    SameOutside s t Buffer.dst.base (lenField t.dstLen) := by
  have hmax := s.cfg.dstMax.isLt
  intro x hx
  rw [hlen, lenField_ofNat (by omega)] at hx
  rw [hmem, Memory.read_writeBytes_outside _ _ hx]

theorem sameOutside_of_setMac {s t : State} {d : Digest} (hmem : t.mem = s.mem.writeBytes Buffer.mac.base d.toList) :
    SameOutside s t Buffer.mac.base 20 := by
  intro x hx
  rw [hmem, Memory.read_writeBytes_outside]
  rwa [Vector.length_toList]

/-- The conclusion of O25 for one command and its next state. -/
def DstFrame (c : Instr) (s t : State) : Prop :=
  { t with status := s.status, dstLen := s.dstLen, mem := s.mem, epoch := s.epoch, ports := s.ports } = s
  ∧ (c ≠ .genkey → t.ports = s.ports)
  ∧ SameOutside s t Buffer.dst.base (lenField t.dstLen)

theorem Effect.dstFrame {c : Instr} {s t : State} (hc : c ∈ [Instr.b32enc, .b32dec, .genkey]) (h : Effect s c t) :
    DstFrame c s t := by
  cases h with
  | error => exact ⟨rfl, fun _ => rfl, sameOutside_of_mem_eq rfl _ _⟩
  | rngFatal => exact ⟨rfl, fun hne => absurd rfl hne, sameOutside_of_mem_eq rfl _ _⟩
  | b32enc hsrc hd =>
    refine ⟨rfl, fun _ => rfl, sameOutside_of_setDst rfl rfl ?_⟩
    rw [b32Encode_length, (readOperand_ok_iff.1 hsrc).1]
    exact hd
  | b32dec hd => exact ⟨rfl, fun _ => rfl, sameOutside_of_setDst rfl rfl hd⟩
  | genkey _ hd => exact ⟨rfl, fun hne => absurd rfl hne, sameOutside_of_setDst rfl rfl hd⟩
  | trunc | compute | tstep | totp | validate | validates => exact absurd hc (by decide)

/-- Settles O25: under the lock nothing changes, else the command has one of its effects. -/
theorem frameDstCommands : Obligations.FrameDstCommands := by
  intro c s t hc h
  obtain ⟨-, rfl⟩ | ⟨-, he⟩ := exec_next h
  · exact ⟨rfl, fun _ => rfl, sameOutside_of_mem_eq rfl _ _⟩
  · exact he.dstFrame hc

/-- The conclusion of O32 for one command and its next state. -/
def CodeFrame (c : Instr) (s t : State) : Prop :=
  { t with status := s.status, offset := s.offset, bincode := s.bincode, code := s.code, tsLo := s.tsLo,
           tsHi := s.tsHi, mem := s.mem, ports := s.ports } = s
  ∧ (c = .compute → t.tsLo = s.tsLo ∧ t.tsHi = s.tsHi)
  ∧ SameOutside s t Buffer.mac.base 20

theorem Effect.codeFrame {c : Instr} {s t : State} (hc : c ∈ [Instr.compute, .totp]) (h : Effect s c t) :
    CodeFrame c s t := by
  cases h with
  | error => exact ⟨rfl, fun _ => ⟨rfl, rfl⟩, sameOutside_of_mem_eq rfl _ _⟩
  | compute => exact ⟨by simp, fun _ => ⟨rfl, rfl⟩, sameOutside_of_setMac (State.setCodeResult_mem ..)⟩
  | totp => exact ⟨by simp, nofun, sameOutside_of_setMac (State.setCodeResult_mem ..)⟩
  | b32enc | b32dec | rngFatal | genkey | trunc | tstep | validate | validates => exact absurd hc (by decide)

/-- Settles O32: under the lock nothing changes, else the command has one of its effects. -/
theorem frameCodeCommands : Obligations.FrameCodeCommands := by
  intro c s t hc h
  obtain ⟨-, rfl⟩ | ⟨-, he⟩ := exec_next h
  · exact ⟨rfl, fun _ => ⟨rfl, rfl⟩, sameOutside_of_mem_eq rfl _ _⟩
  · exact he.codeFrame hc

end Sys2Proof.Machine
end

section
/-!
SUPPORT and the proof of O24: both Base32 commands commit an output that is computed from the capacities, `SRC_LEN` and
the source bytes, and each reader inside them depends on the bytes of its range alone (20_memory.md R61, 40_base32.md
R137).
-/
namespace Sys2Proof.Machine

/-! ### Readers depend on their range -/

section
variable {m m' : Memory} {a : Nat}

theorem readByte_congr (h : m'.read a = m.read a) : readByte m' a = readByte m a := by
  rw [readByte, h, readByte]

theorem readBytes_congr {n : Nat} (h : ∀ i < n, m'.read (a + i) = m.read (a + i)) :
    readBytes m' a n = readBytes m a n := by
  induction n with
  | zero => rfl
  | succ n ih =>
    rw [readBytes, readBytes, ih fun i hi => h i (by omega), readByte_congr (h n (Nat.lt_succ_self n))]

theorem b32Strip_congr {n : Nat} (h : ∀ i < n, m'.read (a + i) = m.read (a + i)) :
    b32Strip m' a n = b32Strip m a n := by
  induction n with
  | zero => rfl
  | succ n ih =>
    rw [b32Strip, b32Strip, ih fun i hi => h i (by omega), readByte_congr (h n (Nat.lt_succ_self n))]

theorem b32DecodeFrom_congr {k : Nat} (h : ∀ i < k, m'.read (a + i) = m.read (a + i)) (acc : BitVec 12)
    (nbits : Nat) : b32DecodeFrom m' k a acc nbits = b32DecodeFrom m k a acc nbits := by
  induction k generalizing a acc nbits with
  | zero => rfl
  | succ k ih =>
    have hrest : ∀ i < k, m'.read (a + 1 + i) = m.read (a + 1 + i) := fun i hi => by
      rw [Nat.add_assoc, Nat.add_comm 1]
      exact h (i + 1) (Nat.succ_lt_succ hi)
    have hhead : readByte m' a = readByte m a := readByte_congr (h 0 (Nat.zero_lt_succ k))
    simp only [b32DecodeFrom, hhead, ih hrest]

end

/-! ### The outputs -/

/-- The text B32ENC commits, or why it commits none (40_base32.md R122). -/
def b32encOutput (s : State) : Cmd (List Byte) := do
  checkSrcCapacity s
  checkDstCapacity s (8 * ((lenField s.srcLen + 4) / 5))
  let src ← readOperand s .src (lenField s.srcLen)
  .ok (b32Encode src)

/-- The bytes B32DEC commits, or why it commits none (40_base32.md R130). -/
def b32decOutput (s : State) : Cmd (List Byte) := do
  checkSrcCapacity s
  let m ← b32Strip s.mem Buffer.src.base (lenField s.srcLen)
  checkDstCapacity s (5 * m / 8)
  b32DecodeFrom s.mem m Buffer.src.base 0 0

theorem b32encBody_eq (s : State) :
    b32encBody s = b32encOutput s >>= fun l => .ok (succeed false (s.setDst l)) := by
  simp only [b32encBody, b32encOutput, bind_assoc, Cmd.ok_bind]

theorem b32decBody_eq (s : State) :
    b32decBody s = b32decOutput s >>= fun l => .ok (succeed false (s.setDst l)) := by
  simp only [b32decBody, b32decOutput, bind_assoc]

/-- The two states have the same parameters, source length and source bytes. -/
structure SameSource (s s' : State) : Prop where
  cfg : s'.cfg = s.cfg
  len : lenField s'.srcLen = lenField s.srcLen
  bytes : ∀ i < lenField s.srcLen, s'.mem.read (Buffer.src.base + i) = s.mem.read (Buffer.src.base + i)

section
variable {s s' : State} (h : SameSource s s')
include h

theorem SameSource.checkSrcCapacity : checkSrcCapacity s' = checkSrcCapacity s := by
  rw [Machine.checkSrcCapacity, h.cfg, h.len, Machine.checkSrcCapacity]

theorem SameSource.checkDstCapacity (n : Nat) : checkDstCapacity s' n = checkDstCapacity s n := by
  rw [Machine.checkDstCapacity, h.cfg, Machine.checkDstCapacity]

theorem SameSource.readOperand_src :
    readOperand s' .src (lenField s.srcLen) = readOperand s .src (lenField s.srcLen) := by
  rw [readOperand, readBytes_congr h.bytes, readOperand]

theorem SameSource.b32encOutput : b32encOutput s' = b32encOutput s := by
  simp only [Machine.b32encOutput, h.checkSrcCapacity, h.checkDstCapacity, h.len, h.readOperand_src]

/-- The decoder's loop stays inside the source: stripping answers at most `SRC_LEN`. -/
theorem SameSource.b32decOutput : b32decOutput s' = b32decOutput s := by
  simp only [Machine.b32decOutput, h.checkSrcCapacity, h.checkDstCapacity, h.len, b32Strip_congr h.bytes]
  obtain ⟨m, hm⟩ | ⟨e, he⟩ := Cmd.ok_or_error (b32Strip s.mem Buffer.src.base (lenField s.srcLen))
  · have hbytes : ∀ i < m, s'.mem.read (Buffer.src.base + i) = s.mem.read (Buffer.src.base + i) := fun i hi =>
      h.bytes i (Nat.lt_of_lt_of_le hi (b32Strip_le hm))
    simp only [hm, Cmd.ok_bind, b32DecodeFrom_congr hbytes]
  · simp only [he, Cmd.error_bind]

end

/-! ### Commands that commit one output -/

/-- The conclusion of O24 for two next states: the same `STATUS` and, on success, the same result in `DST`. -/
def SameDstResult (t t' : State) : Prop :=
  t'.status = t.status
  ∧ (t.err = 0 → t'.dstLen = t.dstLen ∧ ∀ i < lenField t.dstLen,
      t'.mem.read (Buffer.dst.base + i) = t.mem.read (Buffer.dst.base + i))

/-- The bytes below `DST_LEN` are those of the output, whatever memory it was stored over. -/
theorem sameDstResult_setDst (s s' : State) (l : List Byte) :
    SameDstResult (succeed false (s.setDst l)) (succeed false (s'.setDst l)) := by
  refine ⟨rfl, fun _ => ⟨rfl, fun i hi => ?_⟩⟩
  rw [succeed_dstLen, State.setDst_dstLen, lenField_eq, BitVec.toNat_ofNat] at hi
  have hl : i < l.length := Nat.lt_of_lt_of_le hi (Nat.le_trans (Nat.mod_le _ _) (Nat.mod_le _ _))
  simp only [succeed_mem, State.setDst_mem, Memory.read_writeBytes_at _ _ _ hl]

theorem sameDstResult_raiseError (s s' : State) (e : ErrKind) : SameDstResult (raiseError e s) (raiseError e s') := by
  refine ⟨rfl, fun herr => ?_⟩
  rw [raiseError_err] at herr
  cases e <;> cases herr

/-- A command that commits an output, run where the output is the same, ends the same. -/
theorem exec_sameDstResult {c : Instr} {s s' t : State} (output : State → Cmd (List Byte))
    (hbody : ∀ u, commandBody u c = output u >>= fun l => .ok (succeed false (u.setDst l)))
    (hout : output s' = output s) (hf : s.fatal = false) (hf' : s'.fatal = false) (h : exec c s = .next t) :
    ∃ t', exec c s' = .next t' ∧ SameDstResult t t' := by
  rw [exec_eq_runCommand, hbody] at h ⊢
  rw [hout]
  obtain ⟨hlock, -⟩ | ⟨-, hok⟩ | ⟨-, e, herr, rfl⟩ := runCommand_next h
  · rw [hf] at hlock
    cases hlock
  · obtain ⟨l, hl, ht⟩ := Cmd.bind_ok_iff.1 hok
    cases ht
    refine ⟨_, runCommand_ok hf' ?_, sameDstResult_setDst s s' l⟩
    rw [hl, Cmd.ok_bind]
  · obtain herr | ⟨l, -, hl⟩ := Cmd.bind_error_iff.1 herr
    · refine ⟨_, runCommand_err hf' ?_, sameDstResult_raiseError s s' e⟩
      rw [herr, Cmd.error_bind]
    · cases hl

/-- Settles O24: the output of either command is a function of what `SameSource` compares. -/
theorem base32DependsOnSource : Obligations.Base32DependsOnSource := by
  intro c s s' t hc hf hf' hcfg hlen hbytes h
  have hsame : SameSource s s' := ⟨hcfg, hlen, hbytes⟩
  obtain rfl | rfl : c = .b32enc ∨ c = .b32dec := by simpa using hc
  · exact exec_sameDstResult b32encOutput b32encBody_eq hsame.b32encOutput hf hf' h
  · exact exec_sameDstResult b32decOutput b32decBody_eq hsame.b32decOutput hf hf' h

end Sys2Proof.Machine
end

section
/-!
SUPPORT and the proofs of O1, O2 and O4: a command word is its two fields, the opcode map is the inverse of the column
`OP`, and so the decoder is the inverse of the encoder (30_encoding.md R90, R92, R93).
-/
namespace Sys2Proof

/-! ### The fields of a word -/

theorem zeroField_append_opField (w : Word) : zeroField w ++ opField w = w :=
  (BitVec.extractLsb'_append_extractLsb'_eq_extractLsb' rfl).trans BitVec.extractLsb'_eq_self

theorem opField_encode (i : Instr) : opField (encode i) = opcode i := BitVec.extractLsb'_append_eq_right

theorem zeroField_encode (i : Instr) : zeroField (encode i) = 0#24 := BitVec.extractLsb'_append_eq_left

theorem opField_toNat (w : Word) : (opField w).toNat = w.toNat % 256 := by
  simp [opField]

theorem zeroField_eq_zero_iff (w : Word) : zeroField w = 0#24 ↔ w.toNat / 256 = 0 := by
  have hdiv : w.toNat / 256 < 2 ^ 24 := by omega
  rw [← BitVec.toNat_inj, zeroField, BitVec.extractLsb'_toNat, Nat.shiftRight_eq_div_pow, Nat.mod_eq_of_lt hdiv]
  rfl

/-- R90: a word with an empty field `ZERO` is the word of a command exactly when its field `OP` is the command's
opcode. -/
theorem encode_eq_iff {i : Instr} {w : Word} : encode i = w ↔ zeroField w = 0#24 ∧ opcode i = opField w := by
  constructor
  · rintro rfl
    exact ⟨zeroField_encode i, (opField_encode i).symm⟩
  · rintro ⟨hzero, hop⟩
    rw [encode, hop, ← hzero, zeroField_append_opField]

/-! ### The opcode map and the decoder -/

theorem instrOfOpcode_opcode (i : Instr) : instrOfOpcode (opcode i) = some i := by
  cases i <;> rfl

theorem instrOfOpcode_eq_some_iff {op : Byte} {i : Instr} : instrOfOpcode op = some i ↔ opcode i = op := by
  constructor
  · intro h
    unfold instrOfOpcode at h
    split at h <;> cases h <;> rfl
  · rintro rfl
    exact instrOfOpcode_opcode i

theorem decode_eq_ok_iff {w : Word} {i : Instr} :
    decode w = .ok i ↔ zeroField w = 0#24 ∧ instrOfOpcode (opField w) = some i := by
  unfold decode
  split
  · next hzero => cases instrOfOpcode (opField w) <;> simp [hzero]
  · next hzero => simp [hzero]

/-- Settles O4: decoding and encoding both say that `ZERO` is empty and `OP` is the command's opcode. -/
theorem decodeEncode : Obligations.DecodeEncode := by
  intro w i
  rw [decode_eq_ok_iff, instrOfOpcode_eq_some_iff, encode_eq_iff]

theorem decode_encode (i : Instr) : decode (encode i) = .ok i := (decodeEncode _ i).2 rfl

/-- Settles O1: the legal words are `encode` of their commands. -/
theorem decodeSanity : Obligations.DecodeSanity :=
  ⟨decode_encode .b32enc, decode_encode .genkey, decode_encode .compute, decode_encode .validates, rfl, rfl, rfl, rfl⟩

/-! ### The table of the nine commands -/

/-- The commands in the order of the opcode map (30_encoding.md R92). -/
def Instr.all : List Instr := [.b32enc, .b32dec, .genkey, .trunc, .compute, .tstep, .totp, .validate, .validates]

theorem Instr.mem_all (i : Instr) : i ∈ Instr.all := by
  cases i <;> decide

/-- Settles O2: the table of R92 pairs each command with its word, and the decoder inverts the encoder. -/
theorem opcodeMap : Obligations.OpcodeMap := by
  intro w i
  have htable : (w, i) ∈ Instr.all.map (fun j => (encode j, j)) ↔ encode i = w := by simp [Instr.mem_all]
  exact (decodeEncode w i).trans htable.symm

end Sys2Proof
end

section
/-!
SUPPORT and the proofs of O3, O5 and O6: which words are illegal, and that a write to `CMD` looks at nothing but whether
the word decodes (30_encoding.md R93, R94; 20_memory.md R75, R76).
-/
namespace Sys2Proof.Machine

/-! ### Illegal words -/

/-- A word is illegal exactly when it decodes to no command. -/
theorem decode_error_iff {w : Word} : (∃ e, decode w = .error e) ↔ ∀ i, decode w ≠ .ok i := by
  cases decode w <;> simp

theorem opcode_toNat_mem_iff {op : Byte} :
    op.toNat ∈ Instr.all.map (fun i => (opcode i).toNat) ↔ ∃ i, opcode i = op := by
  simp [Instr.mem_all, BitVec.toNat_inj]

theorem mem_map_encode_iff {w : Word} : w ∈ Instr.all.map encode ↔ ∃ i, decode w = .ok i := by
  simp [Instr.mem_all, decodeEncode w]

/-! ### A write to `CMD` -/

theorem writeCmd_of_decode {w : Word} {i : Instr} (h : decode w = .ok i) (s : State) : writeCmd w s = exec i s := by
  rw [writeCmd, h]

theorem writeCmd_of_illegal {w : Word} (h : ∀ i, decode w ≠ .ok i) (s : State) : writeCmd w s = illegalCommand s := by
  obtain ⟨e, he⟩ := decode_error_iff.2 h
  rw [writeCmd, he]

/-- Settles O3: a word decodes exactly when it is the word of a command, that is when `ZERO` is empty and `OP` is one of
the nine opcodes; a write to `CMD` runs what it decodes to. -/
theorem illegalWords : Obligations.IllegalWords := by
  refine fun w => ⟨?_, fun i hi => ⟨(decodeEncode w i).1 hi, writeCmd_of_decode hi⟩⟩
  have hlegal : (∃ i, decode w = .ok i)
      ↔ w.toNat / 256 = 0 ∧ w.toNat % 256 ∈ Instr.all.map (fun i => (opcode i).toNat) := by
    rw [← opField_toNat, opcode_toNat_mem_iff, ← zeroField_eq_zero_iff, ← exists_and_left]
    simp only [decodeEncode w, encode_eq_iff]
  rw [decode_error_iff, ← not_exists, hlegal, Classical.not_and_iff_not_or_not]
  rfl

/-- R94: unless the fatal lock ignores it, an illegal command writes the error word of `IllegalCommand`. -/
theorem illegalCommand_eq {s : State} (hf : s.fatal = false) :
    illegalCommand s = .next { s with status := 0x61 } := by
  rw [illegalCommand, runCommand_err hf rfl, raiseError, errorStatus_eq, State.setStatus]

/-- Settles O5: a word outside the list is the word of no command, so it does not decode. (The name `illegalCommand` is
the model's.) -/
theorem illegalCommandStatus : Obligations.IllegalCommand := by
  intro s w hf hw
  have hillegal : ∀ i, decode w ≠ .ok i := fun i hi => hw (mem_map_encode_iff.2 ⟨i, hi⟩)
  rw [writeCmd_of_illegal hillegal, illegalCommand_eq hf]

/-! ### A step that writes `CMD` -/

theorem hostWrite_cmd (s : State) (d : DWord) : hostWrite s .w32 s.cfg.base d = writeCmd (d.setWidth 32) s := by
  have hloc : locate s.cfg s.cfg.base = .reg .cmd := locate_reg s.cfg .cmd
  simp only [hostWrite, hloc, if_pos]

theorem step_write_cmd {s : State} {d : DWord} {rest : List BusEvent} (hr : s.host.resetAsserted = false)
    (h : s.host.pending = .write .w32 s.cfg.base d :: rest) :
    step s = writeCmd (d.setWidth 32) (s.setPending rest) := by
  rw [step_of_pending h, performEvent_write (s := s.setPending rest) hr]
  exact hostWrite_cmd (s.setPending rest) d

/-- Settles O6: the step is the write to `CMD` on the state with the event taken, decided by what the word decodes to. -/
theorem stepRunsCommand : Obligations.StepRunsCommand := by
  intro s d rest hr hp
  rw [step_write_cmd hr hp]
  exact ⟨fun i hi => writeCmd_of_decode hi _, fun hillegal => writeCmd_of_illegal hillegal _⟩

end Sys2Proof.Machine
end

section
/-!
SUPPORT and the proofs of O20 and O21: the two tables of the alphabet, how a Base32 command commits or raises, and what
B32ENC leaves (40_base32.md R120 to R124).
-/
namespace Sys2Proof.Machine

open Sys2Proof.Spec

/-! ### The alphabet -/

theorem b32Val_upper {c : Byte} (h : 0x41 ≤ c.toNat ∧ c.toNat ≤ 0x5A) :
    (b32Val c).map BitVec.toNat = some (c.toNat - 0x41) := by
  rw [b32Val, if_pos h, Option.map_some]
  congr 1
  bv_omega

theorem b32Val_lower {c : Byte} (h : 0x61 ≤ c.toNat ∧ c.toNat ≤ 0x7A) :
    (b32Val c).map BitVec.toNat = some (c.toNat - 0x61) := by
  rw [b32Val, if_neg (by omega), if_pos h, Option.map_some]
  congr 1
  bv_omega

theorem b32Val_digit {c : Byte} (h : 0x32 ≤ c.toNat ∧ c.toNat ≤ 0x37) :
    (b32Val c).map BitVec.toNat = some (c.toNat - 0x32 + 26) := by
  rw [b32Val, if_neg (by omega), if_neg (by omega), if_pos h, Option.map_some]
  congr 1
  bv_omega

/-- Settles O20: `b32Alpha_eq` is the listing, and `VAL` is read off range by range. (The name `alphabet` is the
specification's.) -/
theorem alphabetTables : Obligations.Alphabet := by
  refine ⟨fun v => ?_, rfl, by decide, fun c => ?_⟩
  · have hv : v.toNat < alphabet.length := v.isLt
    rw [b32Alpha_eq, List.getD_eq_getElem?_getD, List.getElem?_eq_getElem hv, Option.getD_some]
  · split
    · next hupper => exact b32Val_upper hupper
    · next hupper =>
      split
      · next hlower => exact b32Val_lower hlower
      · next hlower =>
        split
        · next hdigit => exact b32Val_digit hdigit
        · next hdigit => rw [b32Val, if_neg hupper, if_neg hlower, if_neg hdigit, Option.map_none]

/-! ### Committing an output, or raising an error -/

section
variable {c : Instr} {s : State} (output : State → Cmd (List Byte))
  (hbody : ∀ u, commandBody u c = output u >>= fun l => .ok (succeed false (u.setDst l))) (hf : s.fatal = false)
include hbody hf

theorem exec_of_output_ok {l : List Byte} (h : output s = .ok l) : exec c s = .next (succeed false (s.setDst l)) := by
  rw [exec_eq_runCommand, runCommand_ok hf]
  rw [hbody, h, Cmd.ok_bind]

theorem exec_of_output_error {e : ErrKind} (h : output s = .error (.err e)) :
    exec c s = .next { s with status := errorStatus e } := by
  rw [exec_eq_runCommand, runCommand_err hf (e := e)]
  · rfl
  · rw [hbody, h, Cmd.error_bind]

end

/-- The `n` bytes of an output stand in `DST`, `DST_LEN` and `STATUS` say so, and nothing else has changed (10_state.md
R34; 20_memory.md R61, R73). -/
def CommitsDst (s t : State) (n : Nat) (byteAt : Nat → Byte) : Prop :=
  t.status = 0x01 ∧ t.dstLen.toNat = n
  ∧ (∀ i < n, t.mem.read (Buffer.dst.base + i) = some (byteAt i))
  ∧ SameOutside s t Buffer.dst.base n
  ∧ { t with status := s.status, dstLen := s.dstLen, mem := s.mem, epoch := s.epoch } = s

theorem commitsDst_setDst {s : State} {l : List Byte} {n : Nat} {byteAt : Nat → Byte} (hn : l.length = n)
    (hcap : n ≤ s.cfg.dstMax.toNat) (hbytes : ∀ i < n, l[i]? = some (byteAt i)) :
    CommitsDst s (succeed false (s.setDst l)) n byteAt := by
  subst hn
  have hmax := s.cfg.dstMax.isLt
  refine ⟨successStatus_eq false, ?_, fun i hi => ?_, fun x hx => ?_, rfl⟩
  · rw [succeed_dstLen, State.setDst_dstLen, BitVec.toNat_ofNat]
    omega
  · rw [succeed_mem, State.setDst_mem, Memory.read_writeBytes_at _ _ _ hi, ← List.getElem?_eq_getElem hi]
    exact hbytes i hi
  · rw [succeed_mem, State.setDst_mem, Memory.read_writeBytes_outside _ _ hx]

/-! ### B32ENC -/

theorem b32encOutput_ok {s : State} {src : List Byte} (hlen : lenField s.srcLen = src.length) (hheld : Holds s .src src)
    (hsrc : src.length ≤ s.cfg.srcMax.toNat) (hdst : encodedLength src.length ≤ s.cfg.dstMax.toNat) :
    b32encOutput s = .ok (b32Encode src) := by
  have hcap : checkDstCapacity s (8 * ((src.length + 4) / 5)) = .ok () := checkDstCapacity_ok hdst
  rw [b32encOutput, checkSrcCapacity_ok (hlen ▸ hsrc), Cmd.ok_bind, hlen, hcap, Cmd.ok_bind,
    readOperand_ok_iff.2 ⟨rfl, hheld⟩, Cmd.ok_bind]

theorem b32encOutput_capacity {s : State}
    (h : s.cfg.srcMax.toNat < lenField s.srcLen ∨ s.cfg.dstMax.toNat < encodedLength (lenField s.srcLen)) :
    b32encOutput s = .error (.err .capacity) := by
  rw [b32encOutput]
  by_cases hsrc : s.cfg.srcMax.toNat < lenField s.srcLen
  · rw [checkSrcCapacity_error_iff.2 ⟨hsrc, rfl⟩, Cmd.error_bind]
  · have hdst : checkDstCapacity s (8 * ((lenField s.srcLen + 4) / 5)) = .error (.err .capacity) :=
      checkDstCapacity_error_iff.2 ⟨h.resolve_left hsrc, rfl⟩
    rw [checkSrcCapacity_ok (Nat.le_of_not_lt hsrc), Cmd.ok_bind, hdst, Cmd.error_bind]

theorem exec_b32enc_ok {s : State} {src : List Byte} (hf : s.fatal = false) (hlen : lenField s.srcLen = src.length)
    (hheld : Holds s .src src) (hsrc : src.length ≤ s.cfg.srcMax.toNat)
    (hdst : encodedLength src.length ≤ s.cfg.dstMax.toNat) :
    exec .b32enc s = .next (succeed false (s.setDst (b32Encode src))) :=
  exec_of_output_ok (c := .b32enc) b32encOutput b32encBody_eq hf (b32encOutput_ok hlen hheld hsrc hdst)

/-- Settles O21: the text that is committed has the length and the characters of R122. -/
theorem b32encResult : Obligations.B32encResult := by
  refine ⟨decode_encode .b32enc, fun s src hf hlen hheld hsrc hdst => ?_, fun s hf h => ?_⟩
  · exact ⟨_, exec_b32enc_ok hf hlen hheld hsrc hdst,
      commitsDst_setDst (b32Encode_length src) hdst fun _ => b32Encode_getElem? src⟩
  · exact exec_of_output_error (c := .b32enc) b32encOutput b32encBody_eq hf (b32encOutput_capacity h)

end Sys2Proof.Machine
end

section
/-!
SUPPORT and the proof of O22: what B32DEC leaves for a written text, and where it raises an error (40_base32.md R130 to
R132).
-/
namespace Sys2Proof.Machine

open Sys2Proof.Spec

/-- The decoder's loop raises `FormatError` at the first character outside the alphabet, whatever its bit buffer
holds. -/
theorem b32DecodeFrom_invalid {m : Memory} (text : List Byte) {a : Nat} {acc : BitVec 12} {nbits : Nat}
    (hheld : ∀ i, (hi : i < text.length) → m.read (a + i) = some text[i])
    (hinvalid : ∃ x ∈ text, symbolValue x = none) :
    b32DecodeFrom m text.length a acc nbits = .error (.err .format) := by
  induction text generalizing a acc nbits with
  | nil => simp at hinvalid
  | cons c text ih =>
    obtain ⟨hc, hrest⟩ := holds_cons hheld
    rw [List.length_cons, b32DecodeFrom, readByte_ok_iff.2 hc, Cmd.ok_bind]
    obtain ⟨v, hv⟩ | ⟨e, he⟩ := Cmd.ok_or_error (b32CharValue c)
    · have htext : ∃ x ∈ text, symbolValue x = none := by simpa [b32CharValue_ok_iff.1 hv] using hinvalid
      simp only [hv, ih hrest htext, Cmd.ok_bind, Cmd.error_bind, ite_self]
    · rw [he, Cmd.error_bind, b32CharValue_error he]

/-! ### The output of B32DEC -/

/-- `SRC` holds the text, within its capacity. -/
structure SrcHolds (s : State) (text : List Byte) : Prop where
  len : lenField s.srcLen = text.length
  held : Holds s .src text
  fits : text.length ≤ s.cfg.srcMax.toNat

/-- B32DEC checks the capacity of `DST` against the stripped length, then decodes the characters before the pads. -/
theorem b32decOutput_eq {s : State} {text : List Byte} (h : SrcHolds s text) :
    b32decOutput s = checkDstCapacity s (5 * strippedLength text / 8) >>= fun _ =>
      b32DecodeFrom s.mem (strippedLength text) Buffer.src.base 0 0 := by
  rw [b32decOutput, h.len, checkSrcCapacity_ok (h.len ▸ h.fits), Cmd.ok_bind, b32Strip_eq text h.held, Cmd.ok_bind]

theorem b32decOutput_srcCapacity {s : State} (h : s.cfg.srcMax.toNat < lenField s.srcLen) :
    b32decOutput s = .error (.err .capacity) := by
  rw [b32decOutput, checkSrcCapacity_error_iff.2 ⟨h, rfl⟩, Cmd.error_bind]

section
variable {s : State} {text : List Byte} (h : SrcHolds s text)
include h

theorem SrcHolds.b32decOutput_dstCapacity (hdst : s.cfg.dstMax.toNat < 5 * strippedLength text / 8) :
    b32decOutput s = .error (.err .capacity) := by
  rw [b32decOutput_eq h, checkDstCapacity_error_iff.2 ⟨hdst, rfl⟩, Cmd.error_bind]

/-- The characters before the pads: as many as the stripped length, held as the start of the text. -/
theorem SrcHolds.take_stripped :
    (text.take (strippedLength text)).length = strippedLength text
    ∧ Holds s .src (text.take (strippedLength text)) := by
  refine ⟨List.length_take_of_le (strippedLength_le text), fun i hi => ?_⟩
  rw [List.getElem_take]
  exact h.held i _

theorem SrcHolds.b32decOutput_format (hdst : 5 * strippedLength text / 8 ≤ s.cfg.dstMax.toNat)
    (hinvalid : decodable text = false) : b32decOutput s = .error (.err .format) := by
  obtain ⟨hlen, hheld⟩ := h.take_stripped
  have hbad : ∃ x ∈ text.take (strippedLength text), symbolValue x = none := by
    simpa [decodable] using hinvalid
  have hloop := b32DecodeFrom_invalid _ (acc := 0) (nbits := 0) hheld hbad
  rw [b32decOutput_eq h, checkDstCapacity_ok hdst, Cmd.ok_bind, ← hloop, hlen]

/-- The bytes of a valid text are those of the closed form R132. -/
theorem SrcHolds.b32decOutput_ok (hdst : 5 * strippedLength text / 8 ≤ s.cfg.dstMax.toNat)
    (hvalid : decodable text = true) :
    ∃ out, b32decOutput s = .ok out ∧ out.length = 5 * strippedLength text / 8
      ∧ ∀ o < 5 * strippedLength text / 8, out[o]? = some (decodedByte text o) := by
  obtain ⟨hlen, hheld⟩ := h.take_stripped
  obtain ⟨out, hout, hbytes⟩ :=
    b32DecodeFrom_eq _ (acc := 0) (nbits := 0) hheld (List.all_eq_true.1 hvalid) (by decide) (by decide)
  rw [hlen] at hout hbytes
  simp only [Nat.zero_add] at hbytes
  refine ⟨out, ?_, by simpa using b32DecodeFrom_length hout (by decide), hbytes⟩
  rw [b32decOutput_eq h, checkDstCapacity_ok hdst, Cmd.ok_bind, hout]

end

/-- Settles O22: the output of B32DEC, or its error, clause by clause. -/
theorem b32decResult : Obligations.B32decResult := by
  refine ⟨decode_encode .b32dec, fun s text hf hlen hheld hsrc hdst hvalid => ?_, fun s hf hsrc => ?_,
    fun s text hf hlen hheld hsrc hdst => ?_, fun s text hf hlen hheld hsrc hdst hinvalid => ?_⟩
  · obtain ⟨out, hout, hn, hbytes⟩ := SrcHolds.b32decOutput_ok ⟨hlen, hheld, hsrc⟩ hdst hvalid
    exact ⟨_, exec_of_output_ok (c := .b32dec) b32decOutput b32decBody_eq hf hout, commitsDst_setDst hn hdst hbytes⟩
  · exact exec_of_output_error (c := .b32dec) b32decOutput b32decBody_eq hf (b32decOutput_srcCapacity hsrc)
  · exact exec_of_output_error (c := .b32dec) b32decOutput b32decBody_eq hf
      (SrcHolds.b32decOutput_dstCapacity ⟨hlen, hheld, hsrc⟩ hdst)
  · exact exec_of_output_error (c := .b32dec) b32decOutput b32decBody_eq hf
      (SrcHolds.b32decOutput_format ⟨hlen, hheld, hsrc⟩ hdst hinvalid)

end Sys2Proof.Machine
end

section
/-!
SUPPORT and the proof of O23: an encoding is a text of alphabet characters and then pads, the number of the text is that
of the bytes with zero bits below it (40_base32.md R122, R132), and so its decoding gives the bytes back (R136).
-/
namespace Sys2Proof.Machine

open Sys2Proof.Spec

/-! ### A byte sequence as a number -/

/-- The bytes joined into one number, the first one most significant. -/
def bytesValue : List Byte → Nat
  | [] => 0
  | c :: l => c.toNat * 2 ^ (8 * l.length) + bytesValue l

theorem bytesValue_nil : bytesValue [] = 0 := rfl

theorem bytesValue_cons (c : Byte) (l : List Byte) :
    bytesValue (c :: l) = c.toNat * 2 ^ (8 * l.length) + bytesValue l := rfl

theorem bytesValue_singleton (c : Byte) : bytesValue [c] = c.toNat := Nat.mul_one _

theorem bytesValue_append (x y : List Byte) :
    bytesValue (x ++ y) = bytesValue x * 2 ^ (8 * y.length) + bytesValue y := by
  induction x with
  | nil => rw [List.nil_append, bytesValue_nil, Nat.zero_mul, Nat.zero_add]
  | cons c x ih =>
    rw [List.cons_append, bytesValue_cons, bytesValue_cons, ih, List.length_append, Nat.mul_add, Nat.pow_add, Nat.add_mul,
      Nat.mul_assoc, Nat.add_assoc]

theorem bytesValue_lt (l : List Byte) : bytesValue l < 2 ^ (8 * l.length) := by
  induction l with
  | nil => exact Nat.zero_lt_one
  | cons c l ih =>
    rw [bytesValue_cons, List.length_cons, Nat.mul_add, Nat.pow_add, Nat.mul_comm (2 ^ (8 * l.length))]
    have hc : c.toNat * 2 ^ (8 * l.length) ≤ 255 * 2 ^ (8 * l.length) :=
      Nat.mul_le_mul_right _ (Nat.le_of_lt_succ c.isLt)
    omega

/-- The number without its last bytes is that of the bytes before them. -/
theorem bytesValue_append_div (x y : List Byte) : bytesValue (x ++ y) / 2 ^ (8 * y.length) = bytesValue x := by
  rw [bytesValue_append, Nat.add_comm, Nat.add_mul_div_right _ _ (Nat.two_pow_pos _), Nat.div_eq_of_lt (bytesValue_lt y),
    Nat.zero_add]

/-- Byte `o` is the lowest byte of the number that ends with it. -/
theorem byte_of_bytesValue (l : List Byte) {o : Nat} (ho : o < l.length) :
    BitVec.ofNat 8 (bytesValue l / 2 ^ (8 * (l.length - (o + 1)))) = l[o] := by
  have hcut : bytesValue l / 2 ^ (8 * (l.length - (o + 1))) = bytesValue (l.take o ++ [l[o]]) := by
    have hdiv := bytesValue_append_div (l.take (o + 1)) (l.drop (o + 1))
    rwa [List.take_append_drop, List.length_drop, ← List.take_append_getElem ho] at hdiv
  rw [hcut, bytesValue_append, bytesValue_singleton]
  apply BitVec.eq_of_toNat_eq
  rw [BitVec.toNat_ofNat, List.length_singleton, Nat.mul_one, Nat.mul_add_mod_self_right, Nat.mod_eq_of_lt l[o].isLt]

/-! ### A text as a number -/

theorem textValue_append (x y : List Byte) : textValue (x ++ y) = textValue x * 2 ^ (5 * y.length) + textValue y := by
  rw [← textValueFrom_eq, textValue, textValue, textValueFrom, List.foldl_append]

theorem symbolValue_b32Alpha (v : BitVec 5) : symbolValue (b32Alpha v) = some v.toNat := by
  revert v; decide

/-! ### Pads at the end -/

theorem strippedLength_append_pads (text : List Byte) (p : Nat) :
    strippedLength (text ++ List.replicate p b32Pad) = strippedLength text := by
  induction p with
  | zero => rw [List.replicate_zero, List.append_nil]
  | succ p ih => rw [List.replicate_succ', ← List.append_assoc, strippedLength_append_pad, ih]

theorem strippedLength_of_valid {text : List Byte} (h : ∀ c ∈ text, (symbolValue c).isSome = true) :
    strippedLength text = text.length := by
  obtain rfl | ⟨init, last, rfl⟩ := List.eq_nil_or_concat text
  · rfl
  · have hlast : last ≠ b32Pad := by
      rintro rfl
      exact absurd (h b32Pad (by simp)) (by decide)
    rw [List.concat_eq_append, strippedLength_append_of_ne init hlast, List.length_append, List.length_singleton]

/-! ### The text of a byte sequence -/

/-- The text has the characters of the bytes and no pad: its length is `⌈8n / 5⌉` (R123), and its number that of the
bytes, moved up by the bits that fill its last character (R122). -/
structure IsTextOf (text bytes : List Byte) : Prop where
  valid : ∀ c ∈ text, (symbolValue c).isSome = true
  length : text.length = (8 * bytes.length + 4) / 5
  value : textValue text = bytesValue bytes * 2 ^ (5 * text.length - 8 * bytes.length)

/-- The first `m` characters of a block. -/
def blockText (blk : BitVec 40) (m : Nat) : List Byte := (List.range m).map fun i => b32Alpha (b32Group blk i)

theorem blockText_length (blk : BitVec 40) (m : Nat) : (blockText blk m).length = m := by simp [blockText]

/-- The first `m` characters denote the upper `5m` bits of the block. -/
theorem textValue_blockText (blk : BitVec 40) {m : Nat} (hm : m ≤ 8) :
    textValue (blockText blk m) = blk.toNat / 2 ^ (40 - 5 * m) := by
  induction m with
  | zero =>
    have hblk := blk.isLt
    exact (Nat.div_eq_of_lt hblk).symm
  | succ m ih =>
    have hexp : 40 - 5 * m = 35 - 5 * m + 5 := by omega
    have hexp' : 40 - 5 * (m + 1) = 35 - 5 * m := by omega
    have hchar : textValue [b32Alpha (b32Group blk m)] = blk.toNat / 2 ^ (35 - 5 * m) % 2 ^ 5 := by
      simp [textValue, symbolValue_b32Alpha, b32Group, BitVec.extractLsb'_toNat, Nat.shiftRight_eq_div_pow]
    have hsplit : blockText blk (m + 1) = blockText blk m ++ [b32Alpha (b32Group blk m)] := by
      simp [blockText, List.range_succ]
    rw [hsplit, textValue_append, ih (by omega), hchar, hexp, hexp', Nat.pow_add, ← Nat.div_div_eq_div_mul,
      List.length_singleton, Nat.mul_one, Nat.mul_comm, Nat.div_add_mod]

/-- The bytes of a block stand at its upper end. -/
theorem b32Pack_bytesValue {l : List Byte} (hl : l.length ≤ 5) :
    (b32Pack l).toNat = bytesValue l * 2 ^ (40 - 8 * l.length) := by
  rw [b32Pack_toNat]
  match l, hl with
  | [], _ => rfl
  | [a], _ | [a, b], _ | [a, b, c], _ | [a, b, c, d], _ | [a, b, c, d, e], _ =>
    simp only [blockValue, bytesValue_cons, bytesValue_nil, List.getD_cons_zero, List.getD_cons_succ, List.getD_nil,
      List.length_cons, List.length_nil, Nat.mul_zero, Nat.zero_add, BitVec.ofNat_eq_ofNat, BitVec.toNat_zero]
    omega

theorem blockText_isTextOf {l : List Byte} (hl : l.length ≤ 5) :
    IsTextOf (blockText (b32Pack l) (b32Nchar l.length)) l := by
  have hn := b32Nchar_eq hl
  refine ⟨fun c hc => ?_, by rw [blockText_length, hn], ?_⟩
  · obtain ⟨i, -, rfl⟩ := List.mem_map.1 hc
    rw [symbolValue_b32Alpha]
    rfl
  · rw [textValue_blockText _ (by omega), b32Pack_bytesValue hl, blockText_length, hn]
    have hexp : 40 - 8 * l.length
        = 5 * ((8 * l.length + 4) / 5) - 8 * l.length + (40 - 5 * ((8 * l.length + 4) / 5)) := by omega
    rw [hexp, Nat.pow_add, ← Nat.mul_assoc, Nat.mul_div_cancel _ (Nat.two_pow_pos _)]

/-- A full block's characters, followed by the text of the other bytes. -/
theorem IsTextOf.append_of_full {x y l r : List Byte} (hx : IsTextOf x l) (hl : l.length = 5) (hy : IsTextOf y r) :
    IsTextOf (x ++ y) (l ++ r) := by
  have hxlen := hx.length
  have hylen := hy.length
  rw [hl] at hxlen
  refine ⟨fun c hc => (List.mem_append.1 hc).elim (hx.valid c) (hy.valid c), ?_, ?_⟩
  · rw [List.length_append, List.length_append]
    omega
  · have hexp : 5 * (x ++ y).length - 8 * (l ++ r).length = 5 * y.length - 8 * r.length := by
      rw [List.length_append, List.length_append]
      omega
    have hfull : 5 * x.length - 8 * l.length = 0 := by omega
    have hbits : 5 * y.length = 8 * r.length + (5 * y.length - 8 * r.length) := by omega
    rw [textValue_append, bytesValue_append, hexp, hx.value, hy.value, hfull, Nat.pow_zero, Nat.mul_one, Nat.add_mul,
      Nat.mul_assoc, ← Nat.pow_add, ← hbits]

/-- The characters of a block, then pads (R122). -/
theorem b32Block_eq {l : List Byte} (hl : l.length ≤ 5) :
    b32Block l = blockText (b32Pack l) (b32Nchar l.length) ++ List.replicate (8 - b32Nchar l.length) b32Pad := by
  have hn : b32Nchar l.length ≤ 8 := by rw [b32Nchar_eq hl]; omega
  rw [b32Block, blockText]
  generalize b32Nchar l.length = n at hn
  have hrange : List.range 8 = List.range n ++ (List.range (8 - n)).map (n + ·) := by
    rw [← List.range_add, Nat.add_sub_cancel' hn]
  rw [hrange, List.map_append]
  congr 1
  · exact List.map_congr_left fun i hi => if_pos (List.mem_range.1 hi)
  · rw [List.map_map]
    refine List.eq_replicate_iff.2 ⟨by rw [List.length_map, List.length_range], fun c hc => ?_⟩
    obtain ⟨i, -, rfl⟩ := List.mem_map.1 hc
    exact if_neg (Nat.not_lt.2 (Nat.le_add_right n i))

theorem b32Block_eq_text_pads {l : List Byte} (hl : l.length ≤ 5) :
    ∃ text p, b32Block l = text ++ List.replicate p b32Pad ∧ IsTextOf text l :=
  ⟨_, _, b32Block_eq hl, blockText_isTextOf hl⟩

/-- Every full block before the last one has no pad, so the pads of an encoding stand at its end. -/
theorem b32Encode_eq_text_pads (l : List Byte) :
    ∃ text p, b32Encode l = text ++ List.replicate p b32Pad ∧ IsTextOf text l := by
  induction l using b32Encode.induct with
  | case1 => exact ⟨[], 0, rfl, nofun, rfl, rfl⟩
  | case2 a => exact b32Block_eq_text_pads (l := [a]) (by simp)
  | case3 a b => exact b32Block_eq_text_pads (l := [a, b]) (by simp)
  | case4 a b c => exact b32Block_eq_text_pads (l := [a, b, c]) (by simp)
  | case5 a b c d => exact b32Block_eq_text_pads (l := [a, b, c, d]) (by simp)
  | case6 a b c d e rest ih =>
    obtain ⟨text, p, heq, htext⟩ := ih
    have hblock : IsTextOf (blockText (b32Pack [a, b, c, d, e]) 8) [a, b, c, d, e] := blockText_isTextOf (by simp)
    have hfull : b32Block [a, b, c, d, e] = blockText (b32Pack [a, b, c, d, e]) 8 ++ [] := b32Block_eq (by simp)
    refine ⟨_, p, ?_, hblock.append_of_full rfl htext⟩
    rw [b32Encode, heq, hfull, List.append_nil, List.append_assoc]

/-! ### Decoding the text -/

theorem IsTextOf.stripped {text bytes : List Byte} (h : IsTextOf text bytes) (p : Nat) :
    strippedLength (text ++ List.replicate p b32Pad) = text.length := by
  rw [strippedLength_append_pads, strippedLength_of_valid h.valid]

section
variable (b : List Byte)

theorem strippedLength_b32Encode : strippedLength (b32Encode b) = (8 * b.length + 4) / 5 := by
  obtain ⟨text, p, heq, htext⟩ := b32Encode_eq_text_pads b
  rw [heq, htext.stripped, htext.length]

theorem decodable_b32Encode : decodable (b32Encode b) = true := by
  obtain ⟨text, p, heq, htext⟩ := b32Encode_eq_text_pads b
  rw [decodable, heq, htext.stripped, List.take_left, List.all_eq_true]
  exact htext.valid

theorem decodedByte_b32Encode {o : Nat} (ho : o < b.length) : decodedByte (b32Encode b) o = b[o] := by
  obtain ⟨text, p, heq, htext⟩ := b32Encode_eq_text_pads b
  have hlen := htext.length
  have hexp : 5 * text.length - 8 * (o + 1) = 8 * (b.length - (o + 1)) + (5 * text.length - 8 * b.length) := by omega
  rw [decodedByte, heq, htext.stripped, List.take_left, htext.value, hexp, Nat.pow_add,
    Nat.mul_div_mul_right _ _ (Nat.two_pow_pos _), byte_of_bytesValue]

end

/-- Settles O23: a state that holds the encoding as its source is one B32DEC decodes, and its output is the bytes. -/
theorem base32RoundTrip : Obligations.Base32RoundTrip := by
  intro s b hf hlen hheld hsrc henc
  obtain ⟨hdst, htext⟩ := Nat.le_min.1 henc
  refine ⟨_, exec_b32enc_ok hf hlen hheld hsrc hdst, successStatus_eq false, fun u huf hcfg hulen hcopy => ?_⟩
  have hmax := s.cfg.srcMax.isLt
  have hn := b32Encode_length b
  have hbytes : 5 * strippedLength (b32Encode b) / 8 = b.length := by rw [strippedLength_b32Encode]; omega
  have hfits : b.length ≤ u.cfg.dstMax.toNat := by
    rw [hcfg]
    exact Nat.le_trans (by rw [encodedLength]; omega) hdst
  rw [succeed_dstLen, State.setDst_dstLen, lenField_ofNat (by omega)] at hulen hcopy
  have huheld : Holds u .src (b32Encode b) := fun i hi => by
    rw [hcopy i hi, succeed_mem, State.setDst_mem, Memory.read_writeBytes_at _ _ _ hi]
  obtain ⟨-, hdecodes, -⟩ := b32decResult
  obtain ⟨v, hv, hstatus, hvlen, hvbytes, -⟩ := hdecodes u (b32Encode b) huf hulen huheld
    (by rw [hn, hcfg]; exact htext) (hbytes ▸ hfits) (decodable_b32Encode b)
  rw [hbytes] at hvlen hvbytes
  refine ⟨v, hv, hstatus, ?_, fun o ho => ?_⟩
  · rw [lenField_eq, hvlen]
    omega
  · rw [hvbytes o ho, decodedByte_b32Encode b ho]

end Sys2Proof.Machine
end

section
/-!
SUPPORT and the proofs of O26, O27 and O28: what TRUNC leaves, and what of a digest its truncation depends on
(41_otp_code.md R150 to R152).
-/
namespace Sys2Proof.Machine

open Sys2Proof.Spec

/-! ### How a command ends, given its body -/

section
variable {s : State} {i : Instr} (hf : s.fatal = false)
include hf

theorem exec_of_body_ok {t : State} (h : commandBody s i = .ok t) : exec i s = .next t := by
  rw [exec_eq_runCommand, runCommand_ok hf h]

theorem exec_of_body_error {e : ErrKind} (h : commandBody s i = .error (.err e)) :
    exec i s = .next { s with status := errorStatus e } := by
  rw [exec_eq_runCommand, runCommand_err hf h, raiseError, State.setStatus]

theorem body_of_exec_next {t : State} (h : exec i s = .next t) :
    commandBody s i = .ok t ∨ ∃ e, commandBody s i = .error (.err e) ∧ t = raiseError e s := by
  rw [exec_eq_runCommand] at h
  obtain ⟨hlock, -⟩ | ⟨-, hok⟩ | ⟨-, herr⟩ := runCommand_next h
  · rw [hf] at hlock
    cases hlock
  · exact .inl hok
  · exact .inr herr

end

/-! ### TRUNC -/

theorem truncBody_of_mac {s : State} {mac : Digest} (h : Holds s .mac mac.toList) :
    truncBody s = .ok (succeed false (s.setTruncation mac)) := by
  have hread : readBytes s.mem Buffer.mac.base 20 = .ok mac := readBytes_ok_iff.2 fun i hi => by
    rw [h i (by rwa [Vector.length_toList]), Vector.getElem_toList]
  rw [truncBody, hread, Cmd.ok_bind]

theorem truncBody_unwritten {s : State} {i : Nat} (hi : i < 20) (h : s.mem.read (Buffer.mac.base + i) = none) :
    ∃ o, truncBody s = .error (.unwritten o) := by
  obtain ⟨t, ht⟩ | ⟨e, he⟩ := Cmd.ok_or_error (truncBody s)
  · obtain ⟨mac, hmac, -⟩ := truncBody_ok ht
    rw [readBytes_ok_iff.1 hmac i hi] at h
    cases h
  · obtain ⟨k, -, rfl, -⟩ := truncBody_error he
    exact ⟨_, he⟩

theorem exec_trunc_unwritten {s : State} {i : Nat} (hf : s.fatal = false) (hi : i < 20)
    (h : s.mem.read (Buffer.mac.base + i) = none) : ∃ o, exec .trunc s = .refused (.unwrittenByte o) :=
  (truncBody_unwritten hi h).imp fun _ ho => exec_unwritten hf ho

/-- The state TRUNC leaves, its registers as the numbers of R151. -/
theorem succeed_setTruncation_eq (s : State) (mac : Digest) :
    succeed false (s.setTruncation mac) = { s with
      status := 0x01
      offset := BitVec.ofNat 32 (offsetOf mac)
      bincode := BitVec.ofNat 32 (binaryCodeOf mac)
      code := BitVec.ofNat 32 (codeOf mac) } := by
  obtain ⟨hoffset, hbincode, hcode⟩ := truncation_eq mac
  have hstatus : successStatus false = 0x01 := successStatus_eq false
  rw [succeed, hstatus, State.setTruncation, hoffset, hbincode, hcode, State.setCode, State.setStatus]

/-- Settles O26: the digest in `MAC` is read or one of its bytes is missing, and the lock ignores the command. -/
theorem truncResult : Obligations.TruncResult := by
  refine ⟨decode_encode .trunc, fun s mac hf hmac => ?_, fun s hf => exec_fatal hf .trunc,
    fun s i => exec_trunc_unwritten⟩
  rw [exec_of_body_ok hf (i := .trunc) (truncBody_of_mac hmac), succeed_setTruncation_eq]

/-- Settles O28: TRUNC has no effect but `setTruncation` and the end of the command, which leave memory alone. -/
theorem frameTrunc : Obligations.FrameTrunc := by
  intro s t h
  obtain ⟨-, rfl⟩ | ⟨-, he⟩ := exec_next h
  · exact ⟨rfl, fun _ => rfl⟩
  · cases he with
    | error | trunc => exact ⟨rfl, fun _ => rfl⟩

/-! ### What the truncation depends on -/

theorem Digest.getD_set (mac : Digest) {k : Nat} (hk : k < 20) (b : Byte) (i : Nat) :
    (mac.set k b hk).toList.getD i 0 = if k = i then b else mac.toList.getD i 0 := by
  rw [Vector.toList_set, List.getD_eq_getElem?_getD, List.getElem?_set]
  split
  · next heq => simp [hk]
  · next hne => rw [List.getD_eq_getElem?_getD]

/-- The binary code looks at the offset, at the byte there without its top bit, and at the three bytes after it
(R151 step 5). -/
theorem truncBincode_congr {mac mac' : Digest} (hoffset : offsetOf mac' = offsetOf mac)
    (htop : (mac'.toList.getD (offsetOf mac) 0).toNat % 128 = (mac.toList.getD (offsetOf mac) 0).toNat % 128)
    (hrest : ∀ i, offsetOf mac < i → i ≤ offsetOf mac + 3 → mac'.toList.getD i 0 = mac.toList.getD i 0) :
    truncBincode mac' = truncBincode mac := by
  apply BitVec.eq_of_toNat_eq
  rw [truncBincode_toNat, truncBincode_toNat, binaryCodeOf, binaryCodeOf, hoffset,
    hrest (offsetOf mac + 1) (by omega) (by omega), hrest (offsetOf mac + 2) (by omega) (by omega),
    hrest (offsetOf mac + 3) (by omega) (by omega)]
  omega

/-- The offset is the low half of the last byte, which lies above the four bytes of the binary code. -/
theorem truncBincode_set_last (mac : Digest) {b : Byte} (h : b.toNat % 16 = mac[19].toNat % 16) :
    truncBincode (mac.set 19 b) = truncBincode mac := by
  have ho := offsetOf_lt mac
  have hkeep : ∀ i, i ≠ 19 → (mac.set 19 b).toList.getD i 0 = mac.toList.getD i 0 := fun i hi => by
    rw [Digest.getD_set, if_neg hi.symm]
  apply truncBincode_congr
  · rw [offsetOf, offsetOf, Digest.getD_set, if_pos rfl, Digest.getD_eq mac (by decide), h]
  · rw [hkeep _ (by omega)]
  · exact fun i _ hi => hkeep i (by omega)

/-- Bit 31 of the four bytes is cleared (R151 step 5). -/
theorem truncBincode_set_top (mac : Digest) (h : (truncOffset mac).toNat < 20) {b : Byte}
    (hb : b.toNat % 128 = mac[(truncOffset mac).toNat].toNat % 128) :
    truncBincode (mac.set (truncOffset mac).toNat b) = truncBincode mac := by
  have ho := offsetOf_lt mac
  have heq := truncOffset_toNat mac
  apply truncBincode_congr
  · rw [offsetOf, offsetOf, Digest.getD_set, if_neg (by omega)]
  · rw [← heq, Digest.getD_set, if_pos rfl, Digest.getD_eq mac h, hb]
  · exact fun i hi _ => by rw [Digest.getD_set, if_neg (by omega)]

theorem truncation_ranges (mac : Digest) :
    (truncOffset mac).toNat ≤ 15 ∧ (truncBincode mac).toNat ≤ 2147483647 ∧ (truncCode mac).toNat ≤ 999999 := by
  rw [truncBincode_toNat, truncCode_toNat_eq]
  exact ⟨Nat.le_of_lt_succ (truncOffset_lt mac), Nat.le_of_lt_succ (binaryCodeOf_lt mac),
    Nat.le_of_lt_succ (codeOf_lt mac)⟩

/-- Settles O27: the ranges, two digests evaluated, and the two kinds of bit the binary code ignores. -/
theorem truncateRanges : Obligations.TruncateRanges :=
  ⟨truncation_ranges, by decide, by decide, fun mac _ => truncBincode_set_last mac,
    fun mac h _ => truncBincode_set_top mac h⟩

end Sys2Proof.Machine
end

section
/-!
SUPPORT and the proofs of O29 and O31: what COMPUTE leaves, and the operands that `CheckSecretAndModifier` and the
digest depend on (41_otp_code.md R155 to R158).
-/
namespace Sys2Proof.Machine

open Sys2Proof.Spec

/-! ### `CheckSecretAndModifier` on operands that pass or fail it -/

theorem checkSecretAndModifier_of_ready {s : State} {key modifier : List Byte} (h : SecretReady s key modifier) :
    checkSecretAndModifier s = .ok (key, modifier) := by
  obtain ⟨hvalid, hkeyLen, hmodLen, hkeyMax, hmodMax, hmessage, hkey, hmod⟩ := h
  rw [← hkeyLen] at hkeyMax
  rw [← hmodLen] at hmodMax hmessage
  exact checkSecretAndModifier_ok_iff.2 ⟨⟨hvalid, hkeyMax, hmodMax, hmessage⟩,
    readSecretAndModifier_ok_iff.2
      ⟨readOperand_ok_iff.2 ⟨hkeyLen.symm, hkey⟩, readOperand_ok_iff.2 ⟨hmodLen.symm, hmod⟩⟩⟩

theorem checkSecretAndModifier_capacity {s : State} (h : KeyModTooLong s) :
    checkSecretAndModifier s = .error (.err .capacity) := by
  rw [checkSecretAndModifier, checkKeyModCapacity_error_iff.2 ⟨h, rfl⟩, Cmd.error_bind]

theorem checkSecretAndModifier_argument {s : State} (hlen : ¬ KeyModTooLong s) (h : s.keyValid = false) :
    checkSecretAndModifier s = .error (.err .argument) := by
  rw [checkSecretAndModifier, checkKeyModCapacity_ok hlen, Cmd.ok_bind, checkSecretPresent_error_iff.2 ⟨h, rfl⟩,
    Cmd.error_bind]

theorem checkMessageLength_overflow {s : State} (h : 65527 < lenField s.modLen) :
    checkMessageLength s = .error (.err .overflow) :=
  checkMessageLength_error_iff.2 ⟨by omega, rfl⟩

theorem checkSecretAndModifier_overflow {s : State} (hlen : ¬ KeyModTooLong s) (hvalid : s.keyValid = true)
    (h : 65527 < lenField s.modLen) : checkSecretAndModifier s = .error (.err .overflow) := by
  rw [checkSecretAndModifier, checkKeyModCapacity_ok hlen, Cmd.ok_bind, checkSecretPresent_ok hvalid, Cmd.ok_bind,
    checkMessageLength_overflow h, Cmd.error_bind]

/-- The three commands that start with `CheckSecretAndModifier` have its errors. -/
theorem secretErrors {c : Instr} (hc : c ∈ [Instr.compute, .totp, .validate]) : SecretErrors c :=
  ⟨fun _ hf hlong => exec_of_body_error hf (commandBody_secret_error hc (checkSecretAndModifier_capacity hlong)),
    fun _ hf hlen hkey =>
      exec_of_body_error hf (commandBody_secret_error hc (checkSecretAndModifier_argument hlen hkey)),
    fun _ hf hlen hvalid hmod =>
      exec_of_body_error hf (commandBody_secret_error hc (checkSecretAndModifier_overflow hlen hvalid hmod))⟩

/-! ### The result of COMPUTE -/

/-- A committed code result read back: the digest from `MAC`, its truncation from the registers (R155). -/
theorem holds_setCodeResult (s : State) (mac : Digest) :
    Holds (s.setCodeResult mac) .mac mac.toList ∧ HoldsTruncation (s.setCodeResult mac) mac := by
  refine ⟨fun i hi => ?_, truncation_eq mac⟩
  rw [State.setCodeResult_mem, Memory.read_writeBytes_at _ _ _ hi]

theorem exec_compute_ok {s : State} {key modifier : List Byte} (hf : s.fatal = false)
    (h : SecretReady s key modifier) :
    exec .compute s = .next (succeed false (s.setCodeResult (digestFor s.ports key s.ctr.toNat modifier))) := by
  apply exec_of_body_ok hf
  simp only [commandBody, computeBody, checkSecretAndModifier_of_ready h, Cmd.ok_bind, codeDigest_eq]

/-- Settles O29: the commit of COMPUTE read back, and the errors of `CheckSecretAndModifier`. -/
theorem computeResult : Obligations.ComputeResult := by
  refine ⟨decode_encode .compute, fun s key modifier hf hready => ?_, secretErrors (by decide)⟩
  obtain ⟨hmac, htrunc⟩ := holds_setCodeResult s (digestFor s.ports key s.ctr.toNat modifier)
  exact ⟨_, exec_compute_ok hf hready, successStatus_eq false, hmac, htrunc, rfl,
    sameOutside_of_setMac (State.setCodeResult_mem ..), by simp⟩

/-! ### The operands of COMPUTE -/

/-- The two states have the same parameters, secret and modifier. -/
structure SameSecret (s s' : State) : Prop where
  cfg : s'.cfg = s.cfg
  keyLen : s'.keyLen = s.keyLen
  modLen : s'.modLen = s.modLen
  key : ∀ i < lenField s.keyLen, s'.mem.read (Buffer.key.base + i) = s.mem.read (Buffer.key.base + i)
  modifier : ∀ i < lenField s.modLen, s'.mem.read (Buffer.mod.base + i) = s.mem.read (Buffer.mod.base + i)

theorem readOperand_congr {s s' : State} {b : Buffer} {n : Nat}
    (h : ∀ i < n, s'.mem.read (b.base + i) = s.mem.read (b.base + i)) : readOperand s' b n = readOperand s b n := by
  rw [readOperand, readBytes_congr h, readOperand]

theorem SameSecret.checkSecretAndModifier {s s' : State} (h : SameSecret s s') :
    checkSecretAndModifier s' = checkSecretAndModifier s := by
  have hread : readSecretAndModifier s' = readSecretAndModifier s := by
    simp only [readSecretAndModifier, h.keyLen, h.modLen, readOperand_congr h.key, readOperand_congr h.modifier]
  simp only [Machine.checkSecretAndModifier, checkKeyModCapacity, checkSecretPresent, checkMessageLength,
    State.keyValid, h.cfg, h.keyLen, h.modLen, hread]

/-- The digest COMPUTE commits, or why it commits none (R155). -/
def computeOutput (s : State) : Cmd Digest := do
  let (key, modifier) ← checkSecretAndModifier s
  .ok (codeDigest s.ports key s.ctr modifier)

theorem computeBody_eq (s : State) :
    computeBody s = computeOutput s >>= fun mac => .ok (succeed false (s.setCodeResult mac)) := by
  simp only [computeBody, computeOutput, bind_assoc, Cmd.ok_bind]

theorem SameSecret.computeOutput {s s' : State} (h : SameSecret s s') (hctr : s'.ctr = s.ctr)
    (hports : s'.ports.hmacAnswers = s.ports.hmacAnswers) : computeOutput s' = computeOutput s := by
  simp only [Machine.computeOutput, h.checkSecretAndModifier, hctr, codeDigest, Ports.hmacSha1_congr hports]

/-- A command that commits an output, run where the output is the same, commits it there too or raises the same
error. -/
theorem exec_of_same_output {α : Type} {c : Instr} {s s' t : State} (output : State → Cmd α)
    (commit : State → α → State) (hbody : ∀ u, commandBody u c = output u >>= fun a => .ok (commit u a))
    (hout : output s' = output s) (hf : s.fatal = false) (hf' : s'.fatal = false) (h : exec c s = .next t) :
    (∃ a, t = commit s a ∧ exec c s' = .next (commit s' a))
    ∨ ∃ e, t = raiseError e s ∧ exec c s' = .next (raiseError e s') := by
  obtain hok | ⟨e, herr, rfl⟩ := body_of_exec_next hf h
  · rw [hbody] at hok
    obtain ⟨a, ha, ht⟩ := Cmd.bind_ok_iff.1 hok
    cases ht
    refine .inl ⟨a, rfl, exec_of_body_ok hf' ?_⟩
    rw [hbody, hout, ha, Cmd.ok_bind]
  · rw [hbody] at herr
    obtain herr | ⟨a, -, ha⟩ := Cmd.bind_error_iff.1 herr
    · refine .inr ⟨e, rfl, exec_of_body_error hf' ?_⟩
      rw [hbody, hout, herr, Cmd.error_bind]
    · cases ha

/-- An error leaves a code in `STATUS.ERR` (60_exceptions.md R210). -/
theorem raiseError_err_ne_zero (e : ErrKind) (s : State) : (raiseError e s).err ≠ 0 := by
  rw [raiseError_err]
  cases e <;> decide

/-- Settles O31: the digest is a function of what `SameSecret` compares, of `CTR` and of `HMAC_SHA1`, and the results
are functions of the digest. -/
theorem computeDeterministic : Obligations.ComputeDeterministic := by
  intro s s' t hf hf' hcfg hkeyLen hmodLen hctr hports hkey hmod h
  have hout : computeOutput s' = computeOutput s :=
    SameSecret.computeOutput ⟨hcfg, hkeyLen, hmodLen, hkey, hmod⟩ hctr hports
  obtain ⟨mac, rfl, h'⟩ | ⟨e, rfl, h'⟩ := exec_of_same_output (c := .compute) computeOutput
    (fun u mac => succeed false (u.setCodeResult mac)) computeBody_eq hout hf hf' h
  · refine ⟨_, h', rfl, fun _ => ⟨rfl, rfl, rfl, fun i hi => ?_⟩⟩
    have hi : i < mac.toList.length := by rwa [Vector.length_toList]
    exact ((holds_setCodeResult s' mac).1 i hi).trans ((holds_setCodeResult s mac).1 i hi).symm
  · exact ⟨_, h', rfl, fun herr => absurd herr (raiseError_err_ne_zero e s)⟩

end Sys2Proof.Machine
end

section
/-!
SUPPORT and the proof of O30: the only source of `OverflowError` is the check of the message length, which follows the
checks of the capacities (41_otp_code.md R157).
-/
namespace Sys2Proof.Machine

open Sys2Proof.Spec

/-- VALIDATES checks the message length once it has a valid candidate (42_totp_window.md R195). -/
theorem validatesBody_overflow {s : State} (hsrc : lenField s.srcLen ≤ s.cfg.srcMax.toNat) (hlen : ¬ KeyModTooLong s)
    (hvalid : s.keyValid = true) {cand : Word} (hcand : parseCandidate s = .ok cand) (h : 65527 < lenField s.modLen) :
    validatesBody s = .error (.err .overflow) := by
  simp only [validatesBody, checkSrcCapacity_ok hsrc, checkKeyModCapacity_ok hlen, checkSecretPresent_ok hvalid, hcand,
    checkMessageLength_overflow h, Cmd.ok_bind, Cmd.error_bind]

theorem exec_validates_overflow {s : State} {text : List Byte} (hf : s.fatal = false)
    (hn : lenField s.srcLen = text.length) (hheld : Holds s .src text) (hsrc : text.length ≤ s.cfg.srcMax.toNat)
    (hcand : validCandidate s.cfg.candMax.toNat text = true) (hlen : ¬ KeyModTooLong s) (hvalid : s.keyValid = true)
    (h : 65527 < lenField s.modLen) : exec .validates s = .next { s with status := 0x31 } := by
  have hparse : parseCandidate s = .ok (BitVec.ofNat 32 (decimalValue text)) := by
    rw [parseCandidate_eq hn hheld, if_pos hcand]
  exact exec_of_body_error hf (i := .validates) (validatesBody_overflow (hn ▸ hsrc) hlen hvalid hparse h)

/-- The message is too long, and the modifier's capacity allows it. -/
def MessageOverflows (s : State) : Prop := 65535 < 8 + lenField s.modLen ∧ lenField s.modLen ≤ s.cfg.modMax.toNat

theorem MessageOverflows.of_secret {s : State} (h : checkSecretAndModifier s = .error (.err .overflow)) :
    MessageOverflows s := by
  obtain h | ⟨h, -⟩ | ⟨-, hlong, hmax⟩ | ⟨o, h, -⟩ := checkSecretAndModifier_stops h
  · cases h
  · cases h
  · exact ⟨hlong, hmax⟩
  · cases h

theorem commandBody_overflow {s : State} {i : Instr} (h : commandBody s i = .error (.err .overflow)) :
    MessageOverflows s := by
  cases i with
  | b32enc => obtain h | ⟨k, -, h, -⟩ := b32encBody_error h <;> cases h
  | b32dec => obtain h | h | ⟨k, -, h, -⟩ := b32decBody_error h <;> cases h
  | genkey => cases (genkeyBody_error h).2
  | trunc => obtain ⟨k, -, h, -⟩ := truncBody_error h; cases h
  | compute => exact .of_secret (computeBody_error h)
  | tstep => cases h
  | totp => exact .of_secret (totpBody_error h)
  | validate => exact .of_secret (validateBody_error h)
  | validates =>
    obtain h | h | h | ⟨-, hlong, hmax⟩ | ⟨o, h, -⟩ := validatesBody_error h
    · cases h
    · cases h
    · cases h
    · exact ⟨hlong, hmax⟩
    · cases h

/-- A body that comes to its end leaves a success, or the fatal error of GENKEY. -/
theorem commandBody_ok {s t : State} {i : Instr} (h : commandBody s i = .ok t) :
    (∃ r u, t = succeed r u) ∨ ∃ u, t = raiseError .rngFatal u := by
  cases i with
  | b32enc => obtain ⟨src, -, -, -, rfl⟩ := b32encBody_ok h; exact .inl ⟨_, _, rfl⟩
  | b32dec => obtain ⟨m, out, -, -, -, -, -, rfl⟩ := b32decBody_ok h; exact .inl ⟨_, _, rfl⟩
  | genkey =>
    obtain ⟨-, ⟨-, rfl⟩ | ⟨r, -, -, rfl⟩⟩ := genkeyBody_ok h
    · exact .inr ⟨_, rfl⟩
    · exact .inl ⟨_, _, rfl⟩
  | trunc => obtain ⟨mac, -, rfl⟩ := truncBody_ok h; exact .inl ⟨_, _, rfl⟩
  | compute => obtain ⟨key, modifier, -, rfl⟩ := computeBody_ok h; exact .inl ⟨_, _, rfl⟩
  | tstep => cases h; exact .inl ⟨_, _, rfl⟩
  | totp => obtain ⟨key, modifier, -, rfl⟩ := totpBody_ok h; exact .inl ⟨_, _, rfl⟩
  | validate => obtain ⟨key, modifier, -, rfl⟩ := validateBody_ok h; exact .inl ⟨_, _, validateCommit_eq ..⟩
  | validates =>
    obtain ⟨cand, key, modifier, -, -, -, rfl⟩ := validatesBody_ok h
    exact .inl ⟨_, _, validateCommit_eq ..⟩

theorem eq_overflow_of_err {e : ErrKind} {s : State} (h : (raiseError e s).err = 3) : e = .overflow := by
  rw [raiseError_err] at h
  cases e <;> revert h <;> decide

theorem exec_err_overflow {s t : State} {i : Instr} (hf : s.fatal = false) (h : exec i s = .next t)
    (herr : t.err = 3) : MessageOverflows s := by
  obtain hok | ⟨e, hbody, rfl⟩ := body_of_exec_next hf h
  · obtain ⟨r, u, rfl⟩ | ⟨u, rfl⟩ := commandBody_ok hok
    · rw [succeed_err] at herr
      exact absurd herr (by decide)
    · cases eq_overflow_of_err herr
  · cases eq_overflow_of_err herr
    exact commandBody_overflow hbody

theorem writeCmd_err_overflow {w : Word} {s t : State} (hf : s.fatal = false) (h : writeCmd w s = .next t)
    (herr : t.err = 3) : MessageOverflows s := by
  obtain ⟨hlock, -⟩ | ⟨-, -, rfl⟩ | ⟨-, i, hi, -⟩ := writeCmd_next h
  · rw [hf] at hlock
    cases hlock
  · cases eq_overflow_of_err herr
  · rw [writeCmd_of_decode hi] at h
    exact exec_err_overflow hf h herr

/-- Settles O30: a message that is too long is the third error of `CheckSecretAndModifier` and the last error of
VALIDATES, and no other check raises it. -/
theorem overflowExactly : Obligations.OverflowExactly := by
  refine ⟨fun c s hc hf hlen hvalid hlong => ?_, fun s text hf hn hheld hsrc hcand hlen hvalid hlong => ?_,
    fun w s t hf h herr => ?_⟩
  · obtain ⟨-, -, hoverflow⟩ := secretErrors hc
    exact hoverflow s hf hlen hvalid (by omega)
  · exact exec_validates_overflow hf hn hheld hsrc hcand hlen hvalid (by omega)
  · obtain ⟨hlong, hmax⟩ := writeCmd_err_overflow hf h herr
    exact ⟨hlong, by omega⟩

end Sys2Proof.Machine
end

section
/-!
SUPPORT and the proof of O33: the three ends of GENKEY, and the lock that an unavailable source leaves (41_otp_code.md
R160; 60_exceptions.md R218).
-/
namespace Sys2Proof.Machine

open Sys2Proof.Spec

/-- Under the lock every write to `CMD` is ignored, whatever its word (60_exceptions.md R218). -/
theorem writeCmd_fatal {s : State} (h : s.fatal = true) (w : Word) : writeCmd w s = .next s := by
  unfold writeCmd
  split
  · exact exec_fatal h _
  · exact runCommand_fatal h _

theorem exec_genkey_available {s : State} {r : List Byte} (hf : s.fatal = false)
    (hd : lenField s.rlen ≤ s.cfg.dstMax.toNat) (hr : s.ports.rngNow (lenField s.rlen) = some r) :
    exec .genkey s = .next (succeed false ((s.setPorts s.ports.afterRng).setDst r)) :=
  exec_of_body_ok hf (i := .genkey) (genkeyBody_available hd hr)

theorem raiseError_rngFatal_eq (s : State) (p : Ports) :
    raiseError .rngFatal (s.setPorts p) = { s with status := 0x55, ports := p } := by
  rw [raiseError, errorStatus_eq]
  rfl

theorem exec_genkey_unavailable {s : State} (hf : s.fatal = false) (hd : lenField s.rlen ≤ s.cfg.dstMax.toNat)
    (hr : s.ports.rngNow (lenField s.rlen) = none) :
    exec .genkey s = .next { s with status := 0x55, ports := s.ports.afterRng } := by
  rw [exec_of_body_ok hf (i := .genkey) (genkeyBody_unavailable hd hr), raiseError_rngFatal_eq]

theorem exec_genkey_capacity {s : State} (hf : s.fatal = false) (h : s.cfg.dstMax.toNat < lenField s.rlen) :
    exec .genkey s = .next { s with status := 0x41 } := by
  apply exec_of_body_error hf (e := .capacity)
  rw [commandBody, genkeyBody, checkDstCapacity_error_iff.2 ⟨h, rfl⟩, Cmd.error_bind]

/-- The commit of GENKEY is that of an output in `DST`, made after the draw. -/
theorem commitsDst_genkey {s : State} {r : List Byte} (hd : lenField s.rlen ≤ s.cfg.dstMax.toNat)
    (hr : s.ports.rngNow (lenField s.rlen) = some r) :
    CommitsDst (s.setPorts s.ports.afterRng) (succeed false ((s.setPorts s.ports.afterRng).setDst r))
      (lenField s.rlen) (r.getD · 0) := by
  refine commitsDst_setDst (Ports.rngNow_length hr) hd fun i hi => ?_
  rw [← Ports.rngNow_length hr] at hi
  rw [List.getElem?_eq_getElem hi, List.getElem_eq_getD 0]

/-- Settles O33: bytes, lock, or an error before the port is asked. -/
theorem genkeyResult : Obligations.GenkeyResult := by
  refine ⟨decode_encode .genkey, fun s r hf hd hr => ?_, fun s hf hd hr => ?_, fun s => exec_genkey_capacity⟩
  · have hlen := Ports.rngNow_length hr
    obtain ⟨hstatus, hdstLen, hbytes, hout, -⟩ := commitsDst_genkey hd hr
    refine ⟨hlen, _, exec_genkey_available hf hd hr, hstatus, hdstLen, fun i hi => ?_, rfl, hout, rfl⟩
    rw [List.getElem_eq_getD 0]
    exact hbytes i (hlen ▸ hi)
  · refine ⟨exec_genkey_unavailable hf hd hr, writeCmd_fatal ?_⟩
    rw [← raiseError_rngFatal_eq]
    exact raiseError_fatal ..

end Sys2Proof.Machine
end

section
/-!
SUPPORT and the proofs of O34 and O35: the laws of the time step, and the two registers TSTEP writes it to
(42_totp_window.md R180 to R182).
-/
namespace Sys2Proof.Machine

open Sys2Proof.Spec

/-- Settles O35: every law is one of the quotient by 30. -/
theorem timeStepLaws : Obligations.TimeStepLaws := by
  refine ⟨fun x => ⟨timeStep_toNat x, timeStep_le x⟩, fun x y k hx hx' hy hy' => ?_, fun x y h => ?_⟩
  · apply BitVec.eq_of_toNat_eq
    rw [timeStep_toNat, timeStep_toNat]
    omega
  · rw [timeStep_toNat, timeStep_toNat]
    exact Nat.div_le_div_right h

/-- The two halves of a time step as numbers (10_state.md R30). -/
theorem setTs_eq (s : State) (t : DWord) :
    s.setTs t = { s with tsLo := BitVec.ofNat 32 t.toNat, tsHi := BitVec.ofNat 32 (t.toNat / 2 ^ 32) } := by
  rw [State.setTs, BitVec.extractLsb', BitVec.extractLsb', Nat.shiftRight_zero, Nat.shiftRight_eq_div_pow]

/-- `TS` read back, whatever else the command did to the state it sampled the clock in (10_state.md R30). -/
theorem ts_setTs_timeStepNow (s u : State) : (u.setTs s.timeStepNow).ts.toNat = stepNow s := by
  rw [State.ts_setTs, timeStepNow_toNat]

theorem succeed_ts (r : Bool) (s : State) : (succeed r s).ts = s.ts := rfl

/-- The body of TSTEP has no check, so the command never fails (R180). -/
theorem exec_tstep_ok {s : State} (hf : s.fatal = false) :
    exec .tstep s = .next (succeed false (s.sampleClock.setTs s.timeStepNow)) :=
  exec_of_body_ok hf (i := .tstep) rfl

/-- Settles O34: the commit of TSTEP, its time step as a number. -/
theorem tstepResult : Obligations.TstepResult := by
  refine ⟨decode_encode .tstep, fun s hf => ?_⟩
  have hstatus : successStatus false = 0x01 := successStatus_eq false
  rw [exec_tstep_ok hf, succeed, hstatus, setTs_eq, timeStepNow_toNat]
  rfl

end Sys2Proof.Machine
end

section
/-!
SUPPORT and the proofs of O36 and O37: what TOTP leaves, and that it is TSTEP and COMPUTE in one (42_totp_window.md R183,
R184).
-/
namespace Sys2Proof.Machine

open Sys2Proof.Spec

theorem exec_totp_ok {s : State} {key modifier : List Byte} (hf : s.fatal = false) (h : SecretReady s key modifier) :
    exec .totp s = .next (succeed false
      ((s.sampleClock.setTs s.timeStepNow).setCodeResult (digestFor s.ports key (stepNow s) modifier))) := by
  apply exec_of_body_ok hf
  simp only [commandBody, totpBody, checkSecretAndModifier_of_ready h, Cmd.ok_bind, codeDigest_eq, timeStepNow_toNat]

/-- Settles O36: the commit of TOTP read back, and the errors of `CheckSecretAndModifier`. -/
theorem totpResult : Obligations.TotpResult := by
  refine ⟨decode_encode .totp, fun s key modifier hf hready => ?_, secretErrors (by decide)⟩
  obtain ⟨hmac, htrunc⟩ := holds_setCodeResult (s.sampleClock.setTs s.timeStepNow)
    (digestFor s.ports key (stepNow s) modifier)
  exact ⟨_, exec_totp_ok hf hready, successStatus_eq false, ts_setTs_timeStepNow s s.sampleClock, hmac, htrunc, rfl,
    sameOutside_of_setMac (State.setCodeResult_mem ..), by simp⟩

/-- The state that TSTEP leaves, `CTR` set to its `TS`: what COMPUTE starts from in R184. -/
def afterTstepSetCtr (s : State) : State :=
  let a := succeed false (s.sampleClock.setTs s.timeStepNow)
  { a with ctrLo := a.tsLo, ctrHi := a.tsHi }

theorem afterTstepSetCtr_ctr (s : State) : (afterTstepSetCtr s).ctr.toNat = stepNow s :=
  ts_setTs_timeStepNow s s.sampleClock

/-- COMPUTE after TSTEP asks the HMAC port for the digest TOTP asks for: a clock draw does not change that function. -/
theorem exec_compute_afterTstepSetCtr {s : State} {key modifier : List Byte} (h : SecretReady s key modifier) :
    exec .compute (afterTstepSetCtr s) = .next (succeed false
      ((afterTstepSetCtr s).setCodeResult (digestFor s.ports key (stepNow s) modifier))) := by
  have hf : (afterTstepSetCtr s).fatal = false := succeed_fatal false (s.sampleClock.setTs s.timeStepNow)
  have hready : SecretReady (afterTstepSetCtr s) key modifier := h
  have hports : digestFor (afterTstepSetCtr s).ports = digestFor s.ports := rfl
  rw [exec_compute_ok hf hready, afterTstepSetCtr_ctr, hports]

/-- Settles O37: both commit the same digest over the same `TS`, and the named updates agree field by field. -/
theorem totpIsTstepCompute : Obligations.TotpIsTstepCompute := by
  intro s key modifier hf hready
  refine ⟨_, _, _, exec_tstep_ok hf, exec_compute_afterTstepSetCtr hready, exec_totp_ok hf hready, ?_⟩
  simp [afterTstepSetCtr]

end Sys2Proof.Machine
end

section
/-!
SUPPORT and the proofs of O38 to O43: what the commit of VALIDATE and VALIDATES leaves, which steps the window accepts,
and the errors of VALIDATES (42_totp_window.md R190 to R196).
-/
namespace Sys2Proof.Machine

open Sys2Proof.Spec

/-! ### The commit of VALIDATE and VALIDATES -/

section
variable (s : State) (key modifier : List Byte) (cand : Word)

theorem validateCommit_status_match (h : Matches s.ports key modifier (stepNow s) cand.toNat) :
    (validateCommit s key modifier cand).status = 0x03 := by
  rw [← timeStepNow_toNat, ← windowCheck_match] at h
  rw [validateCommit_eq, succeed_status, h, successStatus_eq, if_pos rfl]

theorem validateCommit_status_mismatch (h : ¬ Matches s.ports key modifier (stepNow s) cand.toNat) :
    (validateCommit s key modifier cand).status = 0x01 := by
  rw [← timeStepNow_toNat, ← windowCheck_match] at h
  rw [validateCommit_eq, succeed_status, successStatus_eq, if_neg h]

theorem validateCommit_ts : (validateCommit s key modifier cand).ts.toNat = stepNow s := by
  rw [validateCommit_eq, succeed_ts, ts_setTs_timeStepNow]

theorem validateCommit_ports : (validateCommit s key modifier cand).ports = { s.ports.afterClock with
    hmacCalls := s.ports.hmacCalls + tries s.ports key modifier (stepNow s) cand.toNat } := by
  rw [validateCommit_eq, succeed_ports, State.setTs_ports, State.setPorts_ports, windowCheck_calls, timeStepNow_toNat]
  rfl

theorem validateCommit_frame :
    { validateCommit s key modifier cand with status := s.status, tsLo := s.tsLo, tsHi := s.tsHi, ports := s.ports }
      = s := rfl

end

/-! ### VALIDATE -/

theorem exec_validate_ok {s : State} {key modifier : List Byte} (hf : s.fatal = false)
    (h : SecretReady s key modifier) : exec .validate s = .next (validateCommit s key modifier s.cand) := by
  apply exec_of_body_ok hf
  rw [commandBody, validateBody, checkSecretAndModifier_of_ready h, Cmd.ok_bind]

/-- Settles O38: the commit of VALIDATE read back, and the errors of `CheckSecretAndModifier`. -/
theorem validateResult : Obligations.ValidateResult :=
  ⟨decode_encode .validate,
    fun s key modifier hf hready => ⟨_, exec_validate_ok hf hready, validateCommit_status_match s key modifier s.cand,
      validateCommit_status_mismatch s key modifier s.cand, validateCommit_ts s key modifier s.cand,
      validateCommit_ports s key modifier s.cand, validateCommit_frame s key modifier s.cand⟩,
    secretErrors (by decide)⟩

/-! ### The steps and candidates the window accepts -/

/-- A step at most two away from `T` is one of the five counters: the one with index `S + 2 - T` (R191). -/
theorem exists_windowStep_eq {t S : Nat} (hS : S < 2 ^ 64) (hlo : t ≤ S + 2) (hhi : S ≤ t + 2) :
    ∃ w < 5, windowStep t w = S := by
  refine ⟨S + 2 - t, by omega, ?_⟩
  rw [windowStep]
  omega

/-- Settles O39: the code of a step in the window matches. -/
theorem windowAccepts : Obligations.WindowAccepts := by
  intro s key modifier S hf hready hS hlo hhi hcand
  obtain ⟨w, hw, hstep⟩ := exists_windowStep_eq hS hlo hhi
  have hmatch : Matches s.ports key modifier (stepNow s) s.cand.toNat := ⟨w, hw, by rw [hstep, hcand]⟩
  exact ⟨_, exec_validate_ok hf hready, validateCommit_status_match s key modifier s.cand hmatch⟩

/-- Settles O40: at those clock values the clock's time step is at most two away from `S`. -/
theorem acceptanceSpan : Obligations.AcceptanceSpan := by
  intro s key modifier S hf hready hS hlo hhi hcand
  obtain ⟨hbelow, habove⟩ : stepNow s ≤ S + 2 ∧ S ≤ stepNow s + 2 := by
    rw [stepNow]
    omega
  obtain ⟨t, hexec, hstatus⟩ := windowAccepts s key modifier S hf hready hS hbelow habove hcand
  refine ⟨t, hexec, ?_, ?_⟩
  · rw [State.matched, hstatus]
    decide
  · rw [State.err, hstatus]
    decide

/-- A code is below 1000000 (41_otp_code.md R151 step 6). -/
theorem not_matches_of_large {p : Ports} {key modifier : List Byte} {t cand : Nat} (h : 1000000 ≤ cand) :
    ¬ Matches p key modifier t cand := by
  rintro ⟨w, -, rfl⟩
  exact absurd (codeOf_lt (digestFor p key (windowStep t w) modifier)) (Nat.not_lt.2 h)

/-- Settles O41: such a candidate is a mismatch, which is a success (R190, R193). -/
theorem largeCandidate : Obligations.LargeCandidate := by
  intro s key modifier hf hready hlarge
  exact ⟨_, exec_validate_ok hf hready,
    validateCommit_status_mismatch s key modifier s.cand (not_matches_of_large hlarge)⟩

/-! ### VALIDATES -/

theorem validatesBody_of_ready {s : State} {key modifier : List Byte} {cand : Word}
    (hsrc : lenField s.srcLen ≤ s.cfg.srcMax.toNat) (hready : SecretReady s key modifier)
    (hcand : parseCandidate s = .ok cand) :
    validatesBody s = .ok (validateCommit (s.setCand cand) key modifier cand) := by
  obtain ⟨⟨hvalid, hkey, hmod, hmessage⟩, hread⟩ :=
    checkSecretAndModifier_ok_iff.1 (checkSecretAndModifier_of_ready hready)
  have hcapacity : checkKeyModCapacity s = .ok () := checkKeyModCapacity_ok_iff.2 ⟨fun _ => hkey, hmod⟩
  have hlength : checkMessageLength s = .ok () := checkMessageLength_ok_iff.2 hmessage
  simp only [validatesBody, checkSrcCapacity_ok hsrc, hcapacity, checkSecretPresent_ok hvalid, hcand, hlength, hread,
    Cmd.ok_bind]

/-- A length above its capacity, the source's checked before the others (R195). -/
theorem validatesBody_capacity {s : State} (h : s.cfg.srcMax.toNat < lenField s.srcLen ∨ KeyModTooLong s) :
    validatesBody s = .error (.err .capacity) := by
  by_cases hsrc : s.cfg.srcMax.toNat < lenField s.srcLen
  · rw [validatesBody, checkSrcCapacity_error_iff.2 ⟨hsrc, rfl⟩, Cmd.error_bind]
  · have hlong : KeyModTooLong s := h.resolve_left hsrc
    rw [validatesBody, checkSrcCapacity_ok (Nat.not_lt.1 hsrc), Cmd.ok_bind,
      checkKeyModCapacity_error_iff.2 ⟨hlong, rfl⟩, Cmd.error_bind]

theorem validatesBody_argument {s : State} (hsrc : lenField s.srcLen ≤ s.cfg.srcMax.toNat) (hlen : ¬ KeyModTooLong s)
    (h : s.keyValid = false) : validatesBody s = .error (.err .argument) := by
  rw [validatesBody, checkSrcCapacity_ok hsrc, Cmd.ok_bind, checkKeyModCapacity_ok hlen, Cmd.ok_bind,
    checkSecretPresent_error_iff.2 ⟨h, rfl⟩, Cmd.error_bind]

/-- The value of a valid candidate string does not exceed `CAND_MAX`, so it fits a register (R196). -/
theorem toNat_decimalValue {candMax : Word} {text : List Byte} (h : validCandidate candMax.toNat text = true) :
    (BitVec.ofNat 32 (decimalValue text)).toNat = decimalValue text := by
  rw [validCandidate, Bool.and_eq_true, decide_eq_true_eq] at h
  obtain ⟨-, hle⟩ := h
  rw [BitVec.toNat_ofNat, Nat.mod_eq_of_lt (Nat.lt_of_le_of_lt hle candMax.isLt)]

section
variable {s : State} {text : List Byte} (hf : s.fatal = false) (hn : lenField s.srcLen = text.length)
  (hheld : Holds s .src text) (hsrc : text.length ≤ s.cfg.srcMax.toNat)
include hf hn hheld hsrc

theorem exec_validates_ok {key modifier : List Byte} (hready : SecretReady s key modifier)
    (hcand : validCandidate s.cfg.candMax.toNat text = true) :
    exec .validates s = .next (validateCommit (s.setCand (BitVec.ofNat 32 (decimalValue text))) key modifier
      (BitVec.ofNat 32 (decimalValue text))) := by
  have hparse : parseCandidate s = .ok (BitVec.ofNat 32 (decimalValue text)) := by
    rw [parseCandidate_eq hn hheld, if_pos hcand]
  exact exec_of_body_ok hf (i := .validates) (validatesBody_of_ready (hn ▸ hsrc) hready hparse)

theorem exec_validates_format (hlen : ¬ KeyModTooLong s) (hvalid : s.keyValid = true)
    (hcand : validCandidate s.cfg.candMax.toNat text = false) : exec .validates s = .next { s with status := 0x11 } := by
  have hparse : parseCandidate s = .error (.err .format) := by
    rw [parseCandidate_eq hn hheld, hcand, if_neg Bool.false_ne_true]
  exact exec_of_body_error hf (i := .validates) (validatesBody_parse_error (hn ▸ hsrc) hlen hvalid hparse)

end

/-- Settles O42: the commit on the state with the parsed candidate read back, and the errors in their order. -/
theorem validatesResult : Obligations.ValidatesResult := by
  refine ⟨decode_encode .validates, fun s key modifier text hf hready hn hheld hsrc hcand => ?_,
    fun s hf h => exec_of_body_error hf (i := .validates) (validatesBody_capacity h),
    fun s hf hsrc hlen h => exec_of_body_error hf (i := .validates) (validatesBody_argument hsrc hlen h),
    fun s text hf hn hheld hsrc hlen hvalid hcand => exec_validates_format hf hn hheld hsrc hlen hvalid hcand,
    fun s text hf hn hheld hsrc hlen hvalid hcand hlong =>
      exec_validates_overflow hf hn hheld hsrc hcand hlen hvalid hlong⟩
  have hexec := exec_validates_ok hf hn hheld hsrc hready hcand
  have hv : (BitVec.ofNat 32 (decimalValue text)).toNat = decimalValue text := toNat_decimalValue hcand
  generalize BitVec.ofNat 32 (decimalValue text) = cand at hexec hv
  rw [← hv]
  exact ⟨_, hexec, validateCommit_status_match (s.setCand cand) key modifier cand,
    validateCommit_status_mismatch (s.setCand cand) key modifier cand, rfl,
    validateCommit_ts (s.setCand cand) key modifier cand, validateCommit_ports (s.setCand cand) key modifier cand, rfl⟩

/-! ### Frame -/

/-- The conclusion of O43 for one command and its next state. -/
def WindowFrame (c : Instr) (s t : State) : Prop :=
  { t with status := s.status, cand := s.cand, tsLo := s.tsLo, tsHi := s.tsHi, ports := s.ports } = s
  ∧ (c ≠ .validates → t.cand = s.cand)
  ∧ ∀ a, t.mem.read a = s.mem.read a

theorem Effect.windowFrame {c : Instr} {s t : State} (hc : c ∈ [Instr.tstep, .validate, .validates])
    (h : Effect s c t) : WindowFrame c s t := by
  cases h with
  | error | tstep | validate => exact ⟨rfl, fun _ => rfl, fun _ => rfl⟩
  | validates => exact ⟨rfl, fun hne => absurd rfl hne, fun _ => rfl⟩
  | b32enc | b32dec | rngFatal | genkey | trunc | compute | totp => exact absurd hc (by decide)

/-- Settles O43: under the lock nothing changes, else the command has one of its effects. -/
theorem frameWindowCommands : Obligations.FrameWindowCommands := by
  intro c s t hc h
  obtain ⟨-, rfl⟩ | ⟨-, he⟩ := exec_next h
  · exact ⟨rfl, fun _ => rfl, fun _ => rfl⟩
  · exact he.windowFrame hc

end Sys2Proof.Machine
end

section
/-!
SUPPORT and the proofs of O12 and O14: a command that is not ignored succeeds, raises one of its own errors in the state
it started from, or sets the lock (60_exceptions.md R210, R211, R216, R218).
-/
namespace Sys2Proof.Machine

/-- Without the lock a command that ends has one of its effects. -/
theorem Effect.of_exec {s t : State} {i : Instr} (hf : s.fatal = false) (h : exec i s = .next t) : Effect s i t := by
  obtain ⟨hlock, -⟩ | ⟨-, he⟩ := exec_next h
  · rw [hf] at hlock
    cases hlock
  · exact he

/-- `ERR` after each effect. An error other than the fatal one is raised in the state the command started from; the
fatal one follows a draw of the random source. -/
theorem Effect.err {s t : State} {i : Instr} (h : Effect s i t) :
    t.err = 0 ∨ (∃ e ∈ raisedErrors i, e ≠ .rngFatal ∧ t = raiseError e s)
    ∨ (i = .genkey ∧ t.err = ErrKind.rngFatal.code) := by
  cases h with
  | error hmem hne => exact .inr (.inl ⟨_, hmem, hne, rfl⟩)
  | rngFatal => exact .inr (.inr ⟨rfl, raiseError_err ..⟩)
  | b32enc | b32dec | genkey | trunc | compute | tstep | totp | validate | validates => exact .inl (succeed_err ..)

/-- `ERR` after a write to `CMD`: an illegal word raises its error in the same way. -/
theorem writeCmd_err {w : Word} {s t : State} (hf : s.fatal = false) (h : writeCmd w s = .next t) :
    t.err = 0 ∨ (∃ e, e ≠ .rngFatal ∧ t = raiseError e s) ∨ t.err = ErrKind.rngFatal.code := by
  obtain ⟨hlock, -⟩ | ⟨-, -, rfl⟩ | ⟨-, i, -, he⟩ := writeCmd_next h
  · rw [hf] at hlock
    cases hlock
  · exact .inr (.inl ⟨.illegalCommand, nofun, rfl⟩)
  · obtain h0 | ⟨e, -, hne, ht⟩ | ⟨-, h5⟩ := he.err
    · exact .inl h0
    · exact .inr (.inl ⟨e, hne, ht⟩)
    · exact .inr (.inr h5)

/-- `DONE` in bit 0 and the code from bit 4; `FATAL` would add 4 (10_state.md R33). -/
theorem errorStatus_eq_ofNat_code {e : ErrKind} (h : e ≠ .rngFatal) :
    errorStatus e = BitVec.ofNat 32 (16 * e.code.toNat + 1) := by
  cases e with
  | rngFatal => exact absurd rfl h
  | format | argument | overflow | capacity | illegalCommand => decide

/-- Settles O12: codes 0 and 5 are excluded, and what is left is `raiseError`, which writes `STATUS` only. -/
theorem errorEntry : Obligations.ErrorEntry := by
  intro w s t hf h herr
  obtain h0 | ⟨e, hne, rfl⟩ | h5 := writeCmd_err hf h
  · rw [h0] at herr
    exact absurd herr (by decide)
  · rw [raiseError_err, ← errorStatus_eq_ofNat_code hne]
    rfl
  · rw [h5] at herr
    exact absurd herr (by decide)

/-- Settles O14: the errors that `Effect` admits are those of `raisedErrors`. -/
theorem errorsByCommand : Obligations.ErrorsByCommand := by
  intro i s t hf h
  obtain h0 | ⟨e, hmem, -, rfl⟩ | ⟨rfl, h5⟩ := (Effect.of_exec hf h).err
  · exact .inl h0
  · exact .inr ⟨e, hmem, raiseError_err e s⟩
  · exact .inr ⟨.rngFatal, by decide, h5⟩

end Sys2Proof.Machine
end

section
/-!
SUPPORT and the proof of O16: the calls of each port that an effect of a command makes (60_exceptions.md R233 to R235).
An error but the fatal one asks no port.
-/
namespace Sys2Proof.Machine

/-- The clock and the HMAC port are asked by successes only (60_exceptions.md R233, R234). -/
theorem not_success_of_raiseError (e : ErrKind) (s : State) (p : Prop) : ¬ ((raiseError e s).err = 0 ∧ p) :=
  fun h => raiseError_err_ne_zero e s h.1

theorem Effect.clockReads {s t : State} {i : Instr} (h : Effect s i t) :
    t.ports.clockReads = s.ports.clockReads
      + (if t.err = 0 ∧ i ∈ [Instr.tstep, .totp, .validate, .validates] then 1 else 0) := by
  cases h with
  | error | rngFatal =>
    rw [if_neg (not_success_of_raiseError _ _ _)]
    rfl
  | tstep | totp | validate | validates =>
    rw [if_pos ⟨succeed_err .., by decide⟩]
    rfl
  | b32enc | b32dec | genkey | trunc | compute =>
    rw [if_neg fun hc => absurd hc.2 (by decide)]
    rfl

/-- The one error of GENKEY that is raised before the source is asked is `CapacityError` (41_otp_code.md R160). -/
theorem Effect.rngReads {s t : State} {i : Instr} (h : Effect s i t) :
    t.ports.rngReads = s.ports.rngReads + (if i = .genkey ∧ t.err ≠ 4 then 1 else 0) := by
  cases h with
  | @error _ e hmem hne =>
    have hcapacity : i = .genkey → (raiseError e s).err = 4 := by
      rintro rfl
      cases e with
      | capacity => exact raiseError_err ..
      | rngFatal => exact absurd rfl hne
      | format | argument | overflow | illegalCommand => exact absurd hmem (by decide)
    rw [if_neg fun hc => hc.2 (hcapacity hc.1)]
    rfl
  | rngFatal =>
    rw [if_pos ⟨rfl, by rw [raiseError_err]; decide⟩]
    rfl
  | genkey =>
    rw [if_pos ⟨rfl, by rw [succeed_err]; decide⟩]
    rfl
  | b32enc | b32dec | trunc | compute | tstep | totp | validate | validates =>
    rw [if_neg fun hc => absurd hc.1 (by decide)]
    rfl

/-- The window makes one call per counter it tries, five at most (42_totp_window.md R192). -/
theorem validateCommit_hmacCalls (s : State) (key modifier : List Byte) (cand : Word) :
    s.ports.hmacCalls + 1 ≤ (validateCommit s key modifier cand).ports.hmacCalls
      ∧ (validateCommit s key modifier cand).ports.hmacCalls ≤ s.ports.hmacCalls + 5 := by
  obtain ⟨hle, hpos⟩ := windowFrom_calls s.ports key modifier s.timeStepNow cand 5 0
  exact ⟨Nat.add_le_add_left (hpos (by decide)) _, Nat.add_le_add_left hle _⟩

theorem Effect.hmacCalls {s t : State} {i : Instr} (h : Effect s i t) :
    if t.err = 0 ∧ i ∈ [Instr.compute, .totp] then t.ports.hmacCalls = s.ports.hmacCalls + 1
    else if t.err = 0 ∧ i ∈ [Instr.validate, .validates] then
      s.ports.hmacCalls + 1 ≤ t.ports.hmacCalls ∧ t.ports.hmacCalls ≤ s.ports.hmacCalls + 5
    else t.ports.hmacCalls = s.ports.hmacCalls := by
  cases h with
  | error | rngFatal =>
    rw [if_neg (not_success_of_raiseError _ _ _), if_neg (not_success_of_raiseError _ _ _)]
    rfl
  | compute | totp =>
    rw [if_pos ⟨succeed_err .., by decide⟩]
    rfl
  | @validate key modifier =>
    rw [if_neg fun hc => absurd hc.2 (by decide), if_pos ⟨succeed_err .., by decide⟩]
    exact validateCommit_hmacCalls s key modifier s.cand
  | @validates key modifier cand =>
    rw [if_neg fun hc => absurd hc.2 (by decide), if_pos ⟨succeed_err .., by decide⟩]
    exact validateCommit_hmacCalls (s.setCand cand) key modifier cand
  | b32enc | b32dec | genkey | trunc | tstep =>
    rw [if_neg fun hc => absurd hc.2 (by decide), if_neg fun hc => absurd hc.2 (by decide)]
    rfl

/-- Settles O16: the three counters, effect by effect. -/
theorem portCalls : Obligations.PortCalls := by
  intro i s t hf h
  have he := Effect.of_exec hf h
  exact ⟨he.clockReads, he.rngReads, he.hmacCalls⟩

end Sys2Proof.Machine
end

section
/-!
SUPPORT and the proof of O11: under the lock no command runs and no other host access writes `STATUS`, so the release of
reset alone clears it (60_exceptions.md R218, 70_reset_and_hazards.md R250).
-/
namespace Sys2Proof.Machine

/-- `STATUS` is read-only to the host (20_memory.md R69). -/
theorem hostWriteReg_status (s : State) (v : Word) (r : Reg) : (hostWriteReg s v r).status = s.status := by
  cases r <;> rfl

theorem hostWriteByte_status (s : State) (v : Byte) (b : Buffer) (i : Nat) :
    (hostWriteByte s v b i).status = s.status := by
  cases b <;> rfl

theorem hostRead_status {s t : State} {w : Width} {a : Nat} (h : hostRead s w a = .next t) : t.status = s.status := by
  obtain ⟨d, rfl⟩ := hostRead_next h
  rfl

theorem hostWrite_status_of_fatal {s t : State} {w : Width} {a : Nat} {d : DWord} (hf : s.fatal = true)
    (h : hostWrite s w a d = .next t) : t.status = s.status := by
  obtain ⟨r, -, rfl⟩ | hcmd | ⟨b, i, -, rfl⟩ := hostWrite_next h
  · exact hostWriteReg_status s _ r
  · rw [writeCmd_fatal hf] at hcmd
    cases hcmd
    rfl
  · exact hostWriteByte_status s _ b i

theorem resetInput_status (s : State) (b : Bool) :
    (resetInput s b).status = s.status
    ∨ b = false ∧ s.host.resetAsserted = true ∧ (resetInput s b).status = 0 := by
  cases b with
  | true => exact .inl rfl
  | false =>
    cases hr : s.host.resetAsserted with
    | true => exact .inr ⟨rfl, rfl, by rw [resetInput_release hr]; rfl⟩
    | false => exact .inl (by rw [resetInput_released hr])

theorem performEvent_status_of_fatal {s t : State} {e : BusEvent} (hf : s.fatal = true)
    (h : performEvent s e = .next t) :
    t.status = s.status ∨ e = .resetInput false ∧ s.host.resetAsserted = true ∧ t.status = 0 := by
  obtain ⟨b, rfl, rfl⟩ | ⟨-, w, a, -, hr⟩ | ⟨-, w, a, d, -, hw⟩ := performEvent_next h
  · exact (resetInput_status s b).imp_right fun ⟨hb, hrest⟩ => ⟨congrArg _ hb, hrest⟩
  · exact .inl (hostRead_status hr)
  · exact .inl (hostWrite_status_of_fatal hf hw)

/-- The way out of the lock (60_exceptions.md R218). -/
theorem step_status_of_fatal {s t : State} (hf : s.fatal = true) (h : step s = .next t) :
    t.status = s.status
    ∨ (∃ rest, s.host.pending = .resetInput false :: rest) ∧ s.host.resetAsserted = true ∧ t.status = 0 := by
  obtain ⟨-, rfl⟩ | ⟨e, rest, hp, he⟩ := step_next h
  · exact .inl rfl
  · obtain hkeep | ⟨rfl, hreset, h0⟩ := performEvent_status_of_fatal (s := s.setPending rest) hf he
    · exact .inl hkeep
    · exact .inr ⟨⟨rest, hp⟩, hreset, h0⟩

/-- Settles O11: GENKEY enters the lock, `writeCmd` ignores every word under it, an access to any other location answers
by that location alone, and `step_status_of_fatal` is the way out. -/
theorem fatalLock : Obligations.FatalLock :=
  ⟨fun _ => exec_genkey_unavailable,
    fun _ w hf => writeCmd_fatal hf w,
    fun s r d _ hr => hostWrite_reg (locate_reg s.cfg r) hr d,
    fun s r _ => hostRead_regOffset s r,
    fun _ _ _ d _ hi => hostWrite_byte (locate_byte hi) d,
    fun _ _ _ _ hi => hostRead_byte (locate_byte hi),
    fun _ _ => step_status_of_fatal⟩

end Sys2Proof.Machine
end

section
/-!
SUPPORT and the proof of O18: a command reads no buffer but the four operand buffers, each below its length, so by O17
there is nothing left to refuse it for once those bytes are written (70_reset_and_hazards.md R255, R264).
-/
namespace Sys2Proof.Machine

open Sys2Proof.Spec

/-- The operands of all commands together (20_memory.md R61). -/
theorem operandBuffers_subset (s : State) (i : Instr) :
    operandBuffers s i ⊆ [(.mac, Config.macLen), (.key, lenField s.keyLen), (.mod, lenField s.modLen),
      (.src, lenField s.srcLen)] := by
  cases i <;> simp [operandBuffers]

/-- Settles O18: a refusal would name an unwritten byte of an operand (`commandStops`), and each of the four buffers
that can hold one is written. -/
theorem writtenOperandsSuffice : Obligations.WrittenOperandsSuffice := by
  intro w s hmac hkey hmod hsrc
  obtain hnext | ⟨i, b, n, k, -, -, hmem, hk, -, hread, -⟩ := commandStops w s
  · exact hnext
  · have hwritten : (s.mem.read (b.base + k)).isSome = true := by
      have hb := operandBuffers_subset s i hmem
      simp only [List.mem_cons, List.not_mem_nil, or_false, Prod.mk.injEq] at hb
      obtain ⟨rfl, rfl⟩ | ⟨rfl, rfl⟩ | ⟨rfl, rfl⟩ | ⟨rfl, rfl⟩ := hb
      · exact hmac k hk
      · exact hkey k hk
      · exact hmod k hk
      · exact hsrc k hk
    simp [hread] at hwritten

end Sys2Proof.Machine
end

section
/-!
SUPPORT and the proof of O51: the reset input, asserted, held and released (70_reset_and_hazards.md R250).
-/
namespace Sys2Proof.Machine

theorem performEvent_read_of_asserted {s : State} (h : s.host.resetAsserted = true) (w : Width) (a : Nat) :
    performEvent s (.read w a) = .refused .accessInReset := by
  simp [performEvent, h]

theorem performEvent_write_of_asserted {s : State} (h : s.host.resetAsserted = true) (w : Width) (a : Nat) (d : DWord) :
    performEvent s (.write w a d) = .refused .accessInReset := by
  simp [performEvent, h]

theorem step_resetInput {s : State} {asserted : Bool} {rest : List BusEvent}
    (h : s.host.pending = .resetInput asserted :: rest) : step s = .next (resetInput (s.setPending rest) asserted) := by
  rw [step_of_pending h, performEvent]

theorem step_release {s : State} {rest : List BusEvent} (hr : s.host.resetAsserted = true)
    (h : s.host.pending = .resetInput false :: rest) : step s = .next (s.setPending rest).toReset := by
  rw [step_resetInput h, resetInput_release (s := s.setPending rest) hr]

/-- What is outside the block is not read through a register (10_state.md R47). -/
theorem hostReadReg_toReset (s : State) (r : Reg) : hostReadReg s.toReset r = hostReadReg State.reset r := by
  cases r <;> rfl

/-- Settles O51: an access meets the level of the input, its release leads to `State.toReset`, and its assertion only
raises the level. -/
theorem resetInputLaws : Obligations.ResetInput := by
  refine ⟨fun s w a d h => ⟨performEvent_read_of_asserted h w a, performEvent_write_of_asserted h w a d⟩,
    fun s rest hr h => ?_, fun s rest h => ?_⟩
  · exact ⟨_, step_release hr h, rfl, rfl, hostReadReg_toReset _, Memory.read_nil, rfl, rfl⟩
  · exact ⟨_, step_resetInput h, rfl⟩

end Sys2Proof.Machine
end
